-- ==== Sys2Proof/Word.lean ====
section
/-! DEFINITION. The 64-bit word: the unit of every access and the carrier of every binary64 value
(20_memory.md R51, 00_scope.md R11). -/

namespace Sys2Proof

/-- One 64-bit word (R11, R51). Bit 63 is the sign, bits 62:52 the biased exponent, bits 51:0 the fraction. -/
abbrev Word := BitVec 64

end Sys2Proof
end

