-- ==== Sys2Proof/Syntax.lean ====
section
/-! DEFINITION. Syntax: the 24 commands of the opcode map (30_encoding.md R76) with the operands of R75, the encoded
command as it stands on the command port (R71, R74), and the two ways a word is no command (R77, R78). -/

namespace Sys2Proof

/-- A command as the host presents it: the 32-bit word `C` and the 64-bit operand `D` that accompanies every command,
used or not (R71, R74). -/
structure Command where
  word : BitVec 32
  data : Word
  deriving DecidableEq, Repr

/-- Why a word is not a command: the opcode is not in the map (R77), or a reserved bit of `IMM` is one (R78). -/
inductive DecodeError where
  | illegalOpcode
  | reservedBit
  deriving DecidableEq, Repr

/-- The commands (R76). Immediate fields are unsigned integers, `EN` and `CS` single bits, `D` a word where the
command uses it (R75); a command that ignores `D` (R79) does not carry it. -/
inductive Instr where
  | nop
  | setlp (en : Bool)
  | sethp (en : Bool)
  | setflc (d : Word)
  | setfhc (d : Word)
  | setfs (d : Word)
  | setord (n : Nat)
  | apply (x : Word)
  | reset
  | analyze (l : Nat) (cs : Bool)
  | getdelay
  | freqresp (np : Nat)
  | fftrun (l : Nat)
  | getord
  | rdcsr (num : Nat)
  | rdcoef (idx : Nat)
  | rdstate (idx : Nat)
  | rdresp (idx : Nat)
  | rdir (idx : Nat)
  | rdre (idx : Nat)
  | rdim (idx : Nat)
  | rdtw (idx : Nat)
  | wrir (idx : Nat) (d : Word)
  | clrerr
  deriving DecidableEq, Repr

end Sys2Proof
end

