-- ==== Sys2Proof/WellFormed.lean ====
section
/-! DEFINITION. Well-formedness: of an instruction (every immediate fits the field R75 gives it) and of a command word
(it is an instance of a row of the opcode map, 30_encoding.md R76). -/

namespace Sys2Proof

/-- Every immediate field fits its width (R75): `N`, `NP` 16 bits, `L` 5 bits, `NUM` 8 bits, `IDX` 24 bits. -/
def Instr.wellFormed : Instr → Bool
  | .nop => true
  | .setlp _ => true
  | .sethp _ => true
  | .setflc _ => true
  | .setfhc _ => true
  | .setfs _ => true
  | .setord n => decide (n < 2 ^ 16)
  | .apply _ => true
  | .reset => true
  | .analyze l _ => decide (l < 2 ^ 5)
  | .getdelay => true
  | .freqresp np => decide (np < 2 ^ 16)
  | .fftrun l => decide (l < 2 ^ 5)
  | .getord => true
  | .rdcsr num => decide (num < 2 ^ 8)
  | .rdcoef idx => decide (idx < 2 ^ 24)
  | .rdstate idx => decide (idx < 2 ^ 24)
  | .rdresp idx => decide (idx < 2 ^ 24)
  | .rdir idx => decide (idx < 2 ^ 24)
  | .rdre idx => decide (idx < 2 ^ 24)
  | .rdim idx => decide (idx < 2 ^ 24)
  | .rdtw idx => decide (idx < 2 ^ 24)
  | .wrir idx _ => decide (idx < 2 ^ 24)
  | .clrerr => true

/-- One row of the opcode map (R76): `match` and `mask` over the 32-bit command word. -/
structure OpcodeRow where
  matchBits : BitVec 32
  mask : BitVec 32
  deriving DecidableEq, Repr

/-- A word is an instance of the row when `(C & mask) = match` (R76). -/
def OpcodeRow.accepts (r : OpcodeRow) (w : BitVec 32) : Bool := w &&& r.mask == r.matchBits

/-- The row of the opcode map (R76) that an instruction's words are instances of. -/
def Instr.row : Instr → OpcodeRow
  | .nop => ⟨0x00000000, 0xFFFFFFFF⟩
  | .setlp _ => ⟨0x01000000, 0xFFFFFFFE⟩
  | .sethp _ => ⟨0x02000000, 0xFFFFFFFE⟩
  | .setflc _ => ⟨0x03000000, 0xFFFFFFFF⟩
  | .setfhc _ => ⟨0x04000000, 0xFFFFFFFF⟩
  | .setfs _ => ⟨0x05000000, 0xFFFFFFFF⟩
  | .setord _ => ⟨0x06000000, 0xFFFF0000⟩
  | .apply _ => ⟨0x10000000, 0xFFFFFFFF⟩
  | .reset => ⟨0x11000000, 0xFFFFFFFF⟩
  | .analyze _ _ => ⟨0x20000000, 0xFFFFFEE0⟩
  | .getdelay => ⟨0x21000000, 0xFFFFFFFF⟩
  | .freqresp _ => ⟨0x22000000, 0xFFFF0000⟩
  | .fftrun _ => ⟨0x23000000, 0xFFFFFFE0⟩
  | .getord => ⟨0x30000000, 0xFFFFFFFF⟩
  | .rdcsr _ => ⟨0x31000000, 0xFFFFFF00⟩
  | .rdcoef _ => ⟨0x32000000, 0xFF000000⟩
  | .rdstate _ => ⟨0x33000000, 0xFF000000⟩
  | .rdresp _ => ⟨0x34000000, 0xFF000000⟩
  | .rdir _ => ⟨0x35000000, 0xFF000000⟩
  | .rdre _ => ⟨0x36000000, 0xFF000000⟩
  | .rdim _ => ⟨0x37000000, 0xFF000000⟩
  | .rdtw _ => ⟨0x38000000, 0xFF000000⟩
  | .wrir _ _ => ⟨0x39000000, 0xFF000000⟩
  | .clrerr => ⟨0x3F000000, 0xFFFFFFFF⟩

/-- The 24 rows of the opcode map, in the order of R76. -/
def opcodeMap : List OpcodeRow :=
  [Instr.nop.row, (Instr.setlp false).row, (Instr.sethp false).row, (Instr.setflc 0).row, (Instr.setfhc 0).row,
    (Instr.setfs 0).row, (Instr.setord 0).row, (Instr.apply 0).row] ++
  [Instr.reset.row, (Instr.analyze 0 false).row, Instr.getdelay.row, (Instr.freqresp 0).row, (Instr.fftrun 0).row,
    Instr.getord.row, (Instr.rdcsr 0).row, (Instr.rdcoef 0).row] ++
  [(Instr.rdstate 0).row, (Instr.rdresp 0).row, (Instr.rdir 0).row, (Instr.rdre 0).row, (Instr.rdim 0).row,
    (Instr.rdtw 0).row, (Instr.wrir 0 0).row, Instr.clrerr.row]

/-- The opcode `OPC = C[31:24]` stands in the opcode map (R76, R77): every row's opcode bits are fixed. -/
def knownOpcode (w : BitVec 32) : Bool :=
  opcodeMap.any fun r => w &&& 0xFF000000 == r.matchBits &&& 0xFF000000

/-- The word is a well-formed instance of some row of the opcode map (R76). -/
def wellFormedWord (w : BitVec 32) : Bool := opcodeMap.any fun r => r.accepts w

end Sys2Proof
end

