-- ==== Sys2Proof/Decode.lean ====
section
/-! DEFINITION. Decoding a command word with its operand to an instruction, or to the reason it is none
(30_encoding.md R74 to R79), and encoding an instruction (R75, R80). Total on all words. -/

namespace Sys2Proof

/-- `OPC = C[31:24]` (R74). -/
def opcField (w : BitVec 32) : Nat := w.toNat / 2 ^ 24

/-- `IMM = C[23:0]` (R74). -/
def immField (w : BitVec 32) : Nat := w.toNat % 2 ^ 24

/-- The instruction, provided the reserved bits of `IMM` are zero (R78). -/
def unlessReserved (reservedClear : Bool) (i : Instr) : Except DecodeError Instr :=
  if reservedClear then .ok i else .error .reservedBit

/-- The reserved bits of ANALYZE: `IMM[7:5]` and `IMM[23:9]` (R75, R140). -/
def analyzeReservedClear (imm : Nat) : Bool := imm / 2 ^ 5 % 2 ^ 3 == 0 && imm / 2 ^ 9 == 0

/-- The decoder (R76 to R78): a command of the table, or an illegal opcode, or a set reserved bit, tested in that
order. -/
def decode (c : Command) : Except DecodeError Instr :=
  let imm := immField c.word
  match opcField c.word with
  | 0x00 => unlessReserved (imm == 0) .nop
  | 0x01 => unlessReserved (imm / 2 == 0) (.setlp (imm % 2 == 1))
  | 0x02 => unlessReserved (imm / 2 == 0) (.sethp (imm % 2 == 1))
  | 0x03 => unlessReserved (imm == 0) (.setflc c.data)
  | 0x04 => unlessReserved (imm == 0) (.setfhc c.data)
  | 0x05 => unlessReserved (imm == 0) (.setfs c.data)
  | 0x06 => unlessReserved (imm / 2 ^ 16 == 0) (.setord (imm % 2 ^ 16))
  | 0x10 => unlessReserved (imm == 0) (.apply c.data)
  | 0x11 => unlessReserved (imm == 0) .reset
  | 0x20 => unlessReserved (analyzeReservedClear imm) (.analyze (imm % 2 ^ 5) (imm / 2 ^ 8 % 2 == 1))
  | 0x21 => unlessReserved (imm == 0) .getdelay
  | 0x22 => unlessReserved (imm / 2 ^ 16 == 0) (.freqresp (imm % 2 ^ 16))
  | 0x23 => unlessReserved (imm / 2 ^ 5 == 0) (.fftrun (imm % 2 ^ 5))
  | 0x30 => unlessReserved (imm == 0) .getord
  | 0x31 => unlessReserved (imm / 2 ^ 8 == 0) (.rdcsr (imm % 2 ^ 8))
  | 0x32 => .ok (.rdcoef imm)
  | 0x33 => .ok (.rdstate imm)
  | 0x34 => .ok (.rdresp imm)
  | 0x35 => .ok (.rdir imm)
  | 0x36 => .ok (.rdre imm)
  | 0x37 => .ok (.rdim imm)
  | 0x38 => .ok (.rdtw imm)
  | 0x39 => .ok (.wrir imm c.data)
  | 0x3F => unlessReserved (imm == 0) .clrerr
  | _ => .error .illegalOpcode

/-! ## The encoder -/

/-- The word `{OPC, IMM}` (R74). -/
def commandWord (opc imm : Nat) : BitVec 32 := BitVec.ofNat 32 (opc * 2 ^ 24 + imm)

/-- A one-bit field's value. -/
def bitValue (b : Bool) : Nat := if b then 1 else 0

/-- The words of an instruction (R75, R76); a command with `D` ignored is assembled with `D = 0` (R80). -/
def encode : Instr → Command
  | .nop => ⟨commandWord 0x00 0, 0⟩
  | .setlp en => ⟨commandWord 0x01 (bitValue en), 0⟩
  | .sethp en => ⟨commandWord 0x02 (bitValue en), 0⟩
  | .setflc d => ⟨commandWord 0x03 0, d⟩
  | .setfhc d => ⟨commandWord 0x04 0, d⟩
  | .setfs d => ⟨commandWord 0x05 0, d⟩
  | .setord n => ⟨commandWord 0x06 n, 0⟩
  | .apply x => ⟨commandWord 0x10 0, x⟩
  | .reset => ⟨commandWord 0x11 0, 0⟩
  | .analyze l cs => ⟨commandWord 0x20 (bitValue cs * 2 ^ 8 + l), 0⟩
  | .getdelay => ⟨commandWord 0x21 0, 0⟩
  | .freqresp np => ⟨commandWord 0x22 np, 0⟩
  | .fftrun l => ⟨commandWord 0x23 l, 0⟩
  | .getord => ⟨commandWord 0x30 0, 0⟩
  | .rdcsr num => ⟨commandWord 0x31 num, 0⟩
  | .rdcoef idx => ⟨commandWord 0x32 idx, 0⟩
  | .rdstate idx => ⟨commandWord 0x33 idx, 0⟩
  | .rdresp idx => ⟨commandWord 0x34 idx, 0⟩
  | .rdir idx => ⟨commandWord 0x35 idx, 0⟩
  | .rdre idx => ⟨commandWord 0x36 idx, 0⟩
  | .rdim idx => ⟨commandWord 0x37 idx, 0⟩
  | .rdtw idx => ⟨commandWord 0x38 idx, 0⟩
  | .wrir idx d => ⟨commandWord 0x39 idx, d⟩
  | .clrerr => ⟨commandWord 0x3F 0, 0⟩

/-! ## The numbering of spec/opcode_table.json -/

/-- The command whose bits are `w` when bits 31:0 number the command word and the bits above them the operand `D`
(log entry 9); bits from `nbits` up are zero. -/
def commandOfTableWord (nbits w : Nat) : Command :=
  let v := w % 2 ^ nbits
  ⟨BitVec.ofNat 32 v, BitVec.ofNat 64 (v / 2 ^ 32)⟩

/-- The instruction the decoder reads from an instruction whose bits are `w`, numbered as the opcode table numbers
them; none where it refuses. -/
def decodeTableWord (nbits w : Nat) : Option Instr := (decode (commandOfTableWord nbits w)).toOption

end Sys2Proof
end

