-- ==== Sys2Proof/Config.lean ====
section
/-! DEFINITION. What an implementation of BQFA fixes: its parameters (00_scope.md R8), and the free values of the model
(00_scope.md R13, R14). -/

namespace Sys2Proof

/-- The parameters of an implementation (R8), fixed for its life. Log entry 3. -/
structure Config where
  /-- `SMAX`, the number of cascade stages the coefficient and state memories hold. -/
  smax : Nat
  /-- `LOG2_NFFT_MAX`, log2 of the capture and FFT buffer length. -/
  log2NfftMax : Nat
  /-- `LOG2_NFFT_DEFAULT`, log2 of the length GETDELAY analyses with. -/
  log2NfftDefault : Nat
  deriving DecidableEq, Repr

/-- The legal ranges of R8. -/
def Config.legal (c : Config) : Bool :=
  decide (1 ≤ c.smax) && decide (c.smax ≤ 255) && decide (8 ≤ c.log2NfftMax) && decide (c.log2NfftMax ≤ 24) &&
    decide (1 ≤ c.log2NfftDefault) && decide (c.log2NfftDefault ≤ c.log2NfftMax)

/-- The values this hardware takes (R8: "the default is the value this hardware takes"). -/
def Config.hardware : Config := ⟨8, 12, 8⟩

/-- `NFFT_MAX`, the length of the capture and FFT buffers (R8). -/
def Config.nfftMax (c : Config) : Nat := 2 ^ c.log2NfftMax

/-- `TAN`: a configuration function of which the machine assumes only that its result depends on its one operand
alone (R14). Log entry 2. -/
opaque Config.tan : Word → Word

/-- `SIN` (R14). Log entry 2. -/
opaque Config.sin : Word → Word

/-- `COS` (R14). Log entry 2. -/
opaque Config.cos : Word → Word

/-- `LOG10` (R14). Log entry 2. -/
opaque Config.log10 : Word → Word

/-- The free value behind every NaN an operation produces (R13): the sign bit and the 51 payload bits of the `n`-th
draw. Log entry 1. -/
opaque Config.nanBits : Nat → BitVec 52

end Sys2Proof
end

