-- ==== Sys2Proof/Machine/State.lean ====
section
/-! DEFINITION. The state of the block (10_state.md R20 to R38), the host's side of its ports (30_encoding.md R71,
R72), the reasons a step can stop, and the state after hardware reset (R38, R220). Plain data. -/

namespace Sys2Proof.Machine

/-- A file of 64-bit words reached by a word index (20_memory.md R50), in canonical form: indices strictly rising and
no entry `+0.0`, which is what an unlisted index reads as (the reset contents, R38). Log entry 7. -/
abbrev WordMem := List (Nat × Word)

/-- FilterMode (R28): Bypass 0, LowPass 1, HighPass 2, BandPass 3. -/
inductive Mode where
  | bypass
  | lowPass
  | highPass
  | bandPass
  deriving DecidableEq, Repr

/-- The six configuration registers (R26, R27). -/
structure FilterConfig where
  lpen : Bool
  hpen : Bool
  flc : Word
  fhc : Word
  fs : Word
  order : BitVec 16
  deriving DecidableEq, Repr

/-- The derived design registers and the coefficient file, replaced together by a redesign (R22, R28). `GAIN[k]` is
word `k` of `gain`, `COEF[k][j]` word `4k+j` of `coef`. -/
structure Design where
  mode : Mode
  numStages : BitVec 8
  numCoef : BitVec 3
  gain : WordMem
  coef : WordMem
  deriving DecidableEq, Repr

/-- The error statuses (60_exceptions.md R201). -/
inductive ErrKind where
  | opc
  | rsv
  | range
  | stale
  deriving DecidableEq, Repr

/-- The status of a response: OK or one of the four errors, and no other (R201). -/
inductive Status where
  | ok
  | err (e : ErrKind)
  deriving DecidableEq, Repr

/-- One response: `(status, R)` (R72). -/
structure Response where
  status : Status
  data : Word
  deriving DecidableEq, Repr

/-- What the host does next (70_reset_and_hazards.md R228): issues a command, takes the standing response by raising
`rsp_ready`, or asserts `rst`. Log entries 4, 11. -/
inductive HostEvent where
  | command (c : Command)
  | takeResponse
  | reset
  deriving DecidableEq, Repr

/-- The state of the block (R20), and beside it its parameters, the response port and the host's coming moves. -/
structure State where
  /-- The parameters the block was built with (00_scope.md R8): no state of its own, read by commands and never changed.
  Log entry 3. -/
  par : Config
  /-- `LPEN`, `HPEN`, `FLC`, `FHC`, `FS`, `ORDER` (R26, R27). -/
  cfg : FilterConfig
  /-- `MODE`, `NUMSTAGES`, `NUMCOEF`, `GAIN`, `COEF` (R22, R28). -/
  design : Design
  /-- `STATE[k][j]`, word `4k+j` (R21, R50). -/
  delayLine : WordMem
  /-- `STATUS` bit 0, `DELAY_VALID` (R29). -/
  delayValid : Bool
  /-- `STATUS` bit 1, `RESP_VALID` (R29). -/
  respValid : Bool
  /-- `STATUS` bit 2, `ERR` (R29). -/
  err : Bool
  /-- `STATUS` bits 15:8, `ERRCODE` (R29). -/
  errCode : BitVec 8
  /-- `DELAY` (R30). -/
  delay : BitVec 32
  /-- `RESPLEN` (R30). -/
  respLen : BitVec 32
  /-- `IR`, the impulse capture (R32). -/
  ir : WordMem
  /-- `RE`, the real half of the FFT buffer (R33). -/
  re : WordMem
  /-- `IM`, the imaginary half of the FFT buffer (R33). -/
  im : WordMem
  /-- `RESP`, the dB curve (R34). -/
  resp : WordMem
  /-- The response port (R71): the latest command's response, none when `rsp_valid` is low. Log entry 4. -/
  rsp : Option Response
  /-- The host's coming moves, oldest first; the host's, not the block's (R24). Log entries 4, 5. -/
  inbox : List HostEvent
  /-- The model's counter of NaN draws (00_scope.md R13). Log entry 1. -/
  draws : Nat
  deriving DecidableEq, Repr

/-- Reasons the machine stops with a fault: none. Nothing traps and no input halts the block (60_exceptions.md R205,
R206), so nobody raises one; safe. Log entry 15. -/
inductive Fault where
  deriving DecidableEq, Repr

/-- Reasons the model refuses an instruction. -/
inductive Refusal where
  /-- Raised only by an arm of `exec` whose instruction has no meaning yet; no arm does. Safe: nothing is claimed of
  such a step. -/
  | notModelled (mnemonic : String)
  deriving DecidableEq, Repr

/-- The configuration after hardware reset (R38): nothing enabled, `ORDER = 1`. -/
def FilterConfig.reset : FilterConfig := ⟨false, false, 0, 0, 0, 1⟩

/-- The Bypass design: no stages and an all-zero coefficient file (R28, R101, R105); also the design after hardware
reset (R38). -/
def Design.bypass : Design := ⟨.bypass, 0, 0, [], []⟩

/-- The machine right after hardware reset (R38, R220): Bypass, every register and buffer zero but `ORDER = 1`, no
response standing, of the hardware with the parameters it takes (R8). The host has no move pending and no NaN has been drawn (log entries 1, 3, 4, 5). -/
def State.reset : State where
  par := Config.hardware
  cfg := FilterConfig.reset
  design := Design.bypass
  delayLine := []
  delayValid := false
  respValid := false
  err := false
  errCode := 0
  delay := 0
  respLen := 0
  ir := []
  re := []
  im := []
  resp := []
  rsp := none
  inbox := []
  draws := 0

end Sys2Proof.Machine
end

