-- ==== Sys2Proof/Machine/Binary64.lean ====
section
/-! DEFINITION. IEEE 754 binary64 arithmetic as the block does it (00_scope.md R11 to R17): each operation computed
exactly on integers and rounded once, to nearest with ties to even; a produced NaN is a draw. -/

namespace Sys2Proof.Machine

/-! ## Constants (R15) -/

/-- `+0.0`. -/
def f0 : Word := 0x0000000000000000
/-- `0.5`. -/
def fHalf : Word := 0x3FE0000000000000
/-- `1.0`. -/
def f1 : Word := 0x3FF0000000000000
/-- `2.0`. -/
def f2 : Word := 0x4000000000000000
/-- `4.0`. -/
def f4 : Word := 0x4010000000000000
/-- `10.0`. -/
def f10 : Word := 0x4024000000000000
/-- `-250.0`. -/
def fFloor : Word := 0xC06F400000000000
/-- `PI`, the binary64 number nearest to π. -/
def fPi : Word := 0x400921FB54442D18

/-! ## The parts of a word (R11) -/

/-- Bit 63. -/
def isNeg (w : Word) : Bool := w.msb

/-- Bits 62:0 as a number; it grows with the magnitude. -/
def magBits (w : Word) : Nat := w.toNat % 2 ^ 63

/-- The biased exponent, bits 62:52. -/
def expField (w : Word) : Nat := magBits w / 2 ^ 52

/-- The fraction, bits 51:0. -/
def fracField (w : Word) : Nat := magBits w % 2 ^ 52

/-- Bits 62:0 of an infinity. -/
def infBits : Nat := 0x7FF0000000000000

def isNaN (w : Word) : Bool := decide (infBits < magBits w)
def isInf (w : Word) : Bool := magBits w == infBits
def isFinite (w : Word) : Bool := decide (magBits w < infBits)
def isZero (w : Word) : Bool := magBits w == 0

/-- The magnitude of a finite word in units of `2^-1074`, the smallest subnormal: every finite magnitude is a whole
number of them. -/
def units (w : Word) : Nat :=
  if expField w = 0 then fracField w else (2 ^ 52 + fracField w) * 2 ^ (expField w - 1)

/-- The value of a finite word in units of `2^-1074`. -/
def signedUnits (w : Word) : Int := if isNeg w then -(units w : Int) else units w

/-- `2^1074`: the number of units in 1.0. -/
def unitScale : Nat := 1 <<< 1074

/-! ## Rounding (R12) -/

/-- Bits 62:0 of the binary64 magnitude nearest to `num / den` units of `2^-1074`, ties to even; past the largest
finite magnitude, infinity. Subnormals need no case of their own: their bits are their number of units. -/
def roundMag (num den : Nat) : Nat :=
  let k := Nat.log2 (num / den) - 52
  let d := den * 2 ^ k
  let q := num / d
  let r := num % d
  let up := decide (d < 2 * r) || (2 * r == d && q % 2 == 1)
  min (k * 2 ^ 52 + (if up then q + 1 else q)) infBits

/-- The word with a given sign and magnitude bits. -/
def ofSignMag (neg : Bool) (mag : Nat) : Word := BitVec.ofNat 64 ((if neg then 2 ^ 63 else 0) + mag)

/-! ## Draws (R13) -/

/-- A computation that may produce NaNs: it reads and advances the counter of draws. -/
abbrev Draw (α : Type) := StateM Nat α

/-- Runs a computation from the counter `n`: its result and the counter after it. -/
def runDraw {α : Type} (x : Draw α) (n : Nat) : α × Nat := x n

/-- The quiet NaN with the sign and payload in `b` (R13). -/
def quietNaN (b : BitVec 52) : Word :=
  ofSignMag b.msb (0x7FF8000000000000 + b.toNat % 2 ^ 51)

/-- A NaN result: any quiet NaN, a draw of its own at each operation that produces one (R13). Log entry 1. -/
def drawNaN : Draw Word := fun n => (quietNaN (Config.nanBits n), n + 1)

/-! ## The four operations (R12) -/

/-- Flips bit 63 (R12). -/
def fneg (a : Word) : Word := a ^^^ 0x8000000000000000

/-- Clears bit 63 (R12). -/
def fabs (a : Word) : Word := a &&& 0x7FFFFFFFFFFFFFFF

/-- `fadd` (R12). The zero-sum signs are IEEE 754's for round to nearest (log entry 14). -/
def fadd (a b : Word) : Draw Word :=
  if isNaN a || isNaN b then drawNaN
  else if isInf a then (if isInf b && isNeg a != isNeg b then drawNaN else pure a)
  else if isInf b then pure b
  else
    let x := signedUnits a + signedUnits b
    if x = 0 then pure (ofSignMag (isNeg a && isNeg b) 0)
    else pure (ofSignMag (decide (x < 0)) (roundMag x.natAbs 1))

/-- `fsub` (R12): the IEEE difference is the sum with the second operand's sign flipped. -/
def fsub (a b : Word) : Draw Word := fadd a (fneg b)

/-- `fmul` (R12). -/
def fmul (a b : Word) : Draw Word :=
  let neg := isNeg a != isNeg b
  if isNaN a || isNaN b then drawNaN
  else if isInf a || isInf b then
    (if isZero a || isZero b then drawNaN else pure (ofSignMag neg infBits))
  else pure (ofSignMag neg (roundMag (units a * units b) unitScale))

/-- `fdiv` (R12): `x/0` of a non-zero `x` is an infinity, `0/0` and `inf/inf` a NaN. -/
def fdiv (a b : Word) : Draw Word :=
  let neg := isNeg a != isNeg b
  if isNaN a || isNaN b then drawNaN
  else if isInf a then (if isInf b then drawNaN else pure (ofSignMag neg infBits))
  else if isInf b then pure (ofSignMag neg 0)
  else if isZero b then (if isZero a then drawNaN else pure (ofSignMag neg infBits))
  else pure (ofSignMag neg (roundMag (units a * unitScale) (units b)))

/-! ## Comparisons (R16) -/

/-- The order of the non-NaN words: `-0` and `+0` fall together, infinities lie outside. -/
def orderKey (w : Word) : Int := if isNeg w then -(magBits w : Int) else magBits w

/-- `a < b`, false on a NaN (R16). -/
def flt (a b : Word) : Bool := !isNaN a && !isNaN b && decide (orderKey a < orderKey b)

/-- `a ≤ b`, false on a NaN (R16). -/
def fle (a b : Word) : Bool := !isNaN a && !isNaN b && decide (orderKey a ≤ orderKey b)

/-- `a > b`, false on a NaN (R16). -/
def fgt (a b : Word) : Bool := flt b a

/-- The IEEE equality test, false on a NaN, `-0 = +0` (R16, used by 42_analysis.md R153). -/
def feq (a b : Word) : Bool := !isNaN a && !isNaN b && orderKey a == orderKey b

/-- Equal bit for bit (R16). -/
def fbitsEq (a b : Word) : Bool := a == b

/-! ## Conversion and the elementary functions (R14, R17) -/

/-- The binary64 number of a non-negative integer (R17). -/
def int2f (n : Nat) : Word := ofSignMag false (roundMag (n * unitScale) 1)

/-- The result of a configuration function: its bits, but a draw where it is a NaN (R13). Log entry 2. -/
def elementary (r : Word) : Draw Word := if isNaN r then drawNaN else pure r

/-- `TAN` (R14). -/
def ftan (x : Word) : Draw Word := elementary (Config.tan x)
/-- `SIN` (R14). -/
def fsin (x : Word) : Draw Word := elementary (Config.sin x)
/-- `COS` (R14). -/
def fcos (x : Word) : Draw Word := elementary (Config.cos x)
/-- `LOG10` (R14). -/
def flog10 (x : Word) : Draw Word := elementary (Config.log10 x)

end Sys2Proof.Machine
end

