-- ==== Sys2Proof/Machine/Ops.lean ====
section
/-! DEFINITION. The named operations over the word files and the response port: reading and writing one word
(00_scope.md R10), answering OK, and ending a command with an error status (60_exceptions.md R201, R202), which is all
this block has in the place of an exception (R205). -/

namespace Sys2Proof.Machine

/-! ## Word files (log entry 7) -/

/-- The word at an index; an unlisted index reads as `+0.0` (R38). -/
def WordMem.read : WordMem → Nat → Word
  | [], _ => f0
  | (j, w) :: m, i => if j = i then w else WordMem.read m i

/-- Write the word at an index, keeping the canonical form: writing `+0.0` removes the entry. -/
def WordMem.write : WordMem → Nat → Word → WordMem
  | [], i, v => if v = f0 then [] else [(i, v)]
  | (j, w) :: m, i, v =>
    if i < j then (if v = f0 then (j, w) :: m else (i, v) :: (j, w) :: m)
    else if i = j then (if v = f0 then m else (i, v) :: m)
    else (j, w) :: WordMem.write m i v

/-- Every word of the file `+0.0`. -/
def WordMem.zeros : WordMem := []

/-- Indices strictly rising from at least `lo`, and no entry `+0.0`. -/
def WordMem.wfFrom : Nat → WordMem → Bool
  | _, [] => true
  | lo, (j, w) :: m => decide (lo ≤ j) && w != f0 && WordMem.wfFrom (j + 1) m

/-- The canonical form: indices strictly rising and no entry equal to what an unlisted index reads as. -/
def WordMem.wf (m : WordMem) : Bool := WordMem.wfFrom 0 m

/-- Every listed index is below `size`: the file lists nothing outside its space (R50). -/
def WordMem.below (size : Nat) (m : WordMem) : Bool := m.all fun e => decide (e.1 < size)

/-- `file[i] <- value i` for `i` in `0..n-1`, ascending (R10). -/
def WordMem.fill (m : WordMem) (n : Nat) (value : Nat → Word) : WordMem :=
  (List.range n).foldl (fun m i => m.write i (value i)) m

/-! ## Responses (30_encoding.md R72) -/

/-- The status codes (R201). -/
def ErrKind.code : ErrKind → BitVec 8
  | .opc => 0x01
  | .rsv => 0x02
  | .range => 0x03
  | .stale => 0x04

/-- `rsp_status` (R201): `0x00` is OK. -/
def Status.code : Status → BitVec 8
  | .ok => 0x00
  | .err e => e.code

/-- End the command with status OK and result word `r` (R10, R72). -/
def respondOk (r : Word) (s : State) : State := { s with rsp := some ⟨.ok, r⟩ }

/-- End the command with an error status (R201, R202): the first error since `ERR` was last clear is recorded, the
result word is 0 and nothing else changes. -/
def raiseErr (e : ErrKind) (s : State) : State :=
  { s with
    err := true
    errCode := if s.err then s.errCode else e.code
    rsp := some ⟨.err e, 0⟩ }

/-- Clear the error record (R191, R202): the one way back from `raiseErr` but hardware reset. -/
def clearErr (s : State) : State := { s with err := false, errCode := 0 }

/-- The error a word that is no command ends with (R77, R78). -/
def decodeErrKind : DecodeError → ErrKind
  | .illegalOpcode => .opc
  | .reservedBit => .rsv

/-! ## The host's moves (R228) -/

/-- The output `cmd_ready` (30_encoding.md R71, R73): low until the standing response has been transferred. -/
def cmdReady (s : State) : Bool := s.rsp.isNone

/-- The response is transferred to the host (R71): `rsp_valid` falls and no other state changes (R228). -/
def takeResponse (s : State) : State := { s with rsp := none }

/-- Hardware reset (70_reset_and_hazards.md R220, R221): every piece of the block's state takes its reset value, and
no response stands. The parameters are fixed for the block's life; the host's coming moves and the counter of draws are
not the block's. Log entries 3, 11. -/
def hardReset (s : State) : State := { State.reset with par := s.par, inbox := s.inbox, draws := s.draws }

/-- The host's next move and the state with that move taken from its list; none when the host does nothing. -/
def nextEvent (s : State) : Option (HostEvent × State) :=
  match s.inbox with
  | [] => none
  | e :: rest => some (e, { s with inbox := rest })

/-- The host's list of moves with one more at its head. -/
def pushEvent (e : HostEvent) (s : State) : State := { s with inbox := e :: s.inbox }

end Sys2Proof.Machine
end

