-- ==== Sys2Proof/Machine/Flags.lean ====
section
/-! DEFINITION. The block's only flags, the `STATUS` register (10_state.md R29), the small CSRs packed into words
(R25, R31), and the number codes of the mode (R28). No arithmetic sets a flag (R29). -/

namespace Sys2Proof.Machine

/-- The number of a mode (R28). -/
def Mode.code : Mode → BitVec 2
  | .bypass => 0
  | .lowPass => 1
  | .highPass => 2
  | .bandPass => 3

/-- One bit of a register at its place. -/
def flagAt (b : Bool) (place : Nat) : Nat := if b then 2 ^ place else 0

/-- `STATUS` (R29): `DELAY_VALID` bit 0, `RESP_VALID` bit 1, `ERR` bit 2, bits 7:3 zero, `ERRCODE` bits 15:8. -/
def statusWord (s : State) : Word :=
  BitVec.ofNat 64 (flagAt s.delayValid 0 + flagAt s.respValid 1 + flagAt s.err 2 + s.errCode.toNat * 2 ^ 8)

/-- `ENABLES` (R25): `LPEN` bit 0, `HPEN` bit 1. -/
def enablesWord (c : FilterConfig) : Word := BitVec.ofNat 64 (flagAt c.lpen 0 + flagAt c.hpen 1)

/-- `ID` (R31). -/
def idWord : Word := 0x0000000142514641

/-- `CAP` (R31): `SMAX` bits 7:0, `LOG2_NFFT_MAX` bits 15:8, `LOG2_NFFT_DEFAULT` bits 23:16. -/
def capWord (p : Config) : Word := BitVec.ofNat 64 (p.smax + p.log2NfftMax * 2 ^ 8 + p.log2NfftDefault * 2 ^ 16)

/-- The CSR of a number, as the 64-bit word it reads as (R25); the numbers from `0x0D` on do not exist. -/
def csrWord (num : Nat) (s : State) : Word :=
  match num with
  | 0x00 => idWord
  | 0x01 => capWord s.par
  | 0x02 => enablesWord s.cfg
  | 0x03 => s.cfg.flc
  | 0x04 => s.cfg.fhc
  | 0x05 => s.cfg.fs
  | 0x06 => s.cfg.order.zeroExtend 64
  | 0x07 => s.design.mode.code.zeroExtend 64
  | 0x08 => s.design.numStages.zeroExtend 64
  | 0x09 => s.design.numCoef.zeroExtend 64
  | 0x0A => statusWord s
  | 0x0B => s.delay.zeroExtend 64
  | 0x0C => s.respLen.zeroExtend 64
  | _ => 0

end Sys2Proof.Machine
end

