-- ==== Sys2Proof/Machine/Twiddle.lean ====
section
/-! DEFINITION. The twiddle ROM `TWROM` (10_state.md R36), a constant fixed by `LOG2_NFFT_MAX`. The angles of every legal ROM
are multiples of `2π/2^24`. One quarter wave of the ROM this hardware takes is stored as a table, `cos(2π·t/4096)` for `t` in
0..1024, each the exact real value rounded once to nearest even; the ROMs of shorter buffers are every second, fourth, ...
entry of it. The entries that only longer buffers have are computed in fixed point and rounded once. The other quadrants are
mirror images, which rounding to nearest keeps. Log entry 13. -/

namespace Sys2Proof.Machine

/-- Quarter wave, entries 0 to 255, sixteen a row. -/
def quarterWave0 : List (List Word) :=
  [[0x3FF0000000000000, 0x3FEFFFFD88586EE6, 0x3FEFFFF621621D02, 0x3FEFFFE9CB1E2E8D,
    0x3FEFFFD8858E8A92, 0x3FEFFFC250B5DAEF, 0x3FEFFFA72C978C4F, 0x3FEFFF871937CE2F,
    0x3FEFFF62169B92DB, 0x3FEFFF3824C88F6F, 0x3FEFFF0943C53BD1, 0x3FEFFED57398D2B7,
    0x3FEFFE9CB44B51A1, 0x3FEFFE5F05E578DB, 0x3FEFFE1C6870CB77, 0x3FEFFDD4DBF78F52],
   [0x3FEFFD886084CD0D, 0x3FEFFD36F624500C, 0x3FEFFCE09CE2A679, 0x3FEFFC8554CD213A,
    0x3FEFFC251DF1D3F8, 0x3FEFFBBFF85F9515, 0x3FEFFB55E425FDAE, 0x3FEFFAE6E1556998,
    0x3FEFFA72EFFEF75D, 0x3FEFF9FA10348837, 0x3FEFF97C4208C014, 0x3FEFF8F9858F058B,
    0x3FEFF871DADB81DF, 0x3FEFF7E5420320F9, 0x3FEFF753BB1B9164, 0x3FEFF6BD463B444D],
   [0x3FEFF621E3796D7E, 0x3FEFF58192EE0358, 0x3FEFF4DC54B1BED3, 0x3FEFF43228DE1B77,
    0x3FEFF3830F8D575C, 0x3FEFF2CF08DA7321, 0x3FEFF21614E131ED, 0x3FEFF15833BE1965,
    0x3FEFF095658E71AD, 0x3FEFEFCDAA704562, 0x3FEFEF0102826191, 0x3FEFEE2F6DE455BA,
    0x3FEFED58ECB673C4, 0x3FEFEC7D7F19CFFC, 0x3FEFEB9D2530410F, 0x3FEFEAB7DF1C6005],
   [0x3FEFE9CDAD01883A, 0x3FEFE8DE8F03D75C, 0x3FEFE7EA85482D60, 0x3FEFE6F18FF42C84,
    0x3FEFE5F3AF2E3940, 0x3FEFE4F0E31D7A4A, 0x3FEFE3E92BE9D886, 0x3FEFE2DC89BBFF08,
    0x3FEFE1CAFCBD5B09, 0x3FEFE0B485181BE3, 0x3FEFDF9922F73307, 0x3FEFDE78D68653FD,
    0x3FEFDD539FF1F456, 0x3FEFDC297F674BA9, 0x3FEFDAFA7514538C, 0x3FEFD9C68127C78C],
   [0x3FEFD88DA3D12526, 0x3FEFD74FDD40ABBF, 0x3FEFD60D2DA75C9E, 0x3FEFD4C59536FAE4,
    0x3FEFD37914220B84, 0x3FEFD227AA9BD53B, 0x3FEFD0D158D86087, 0x3FEFCF761F0C77A3,
    0x3FEFCE15FD6DA67B, 0x3FEFCCB0F4323AA3, 0x3FEFCB4703914354, 0x3FEFC9D82BC2915E,
    0x3FEFC8646CFEB721, 0x3FEFC6EBC77F0887, 0x3FEFC56E3B7D9AF6, 0x3FEFC3EBC935454C],
   [0x3FEFC26470E19FD3, 0x3FEFC0D832BF043A, 0x3FEFBF470F0A8D88, 0x3FEFBDB106021816,
    0x3FEFBC1617E44186, 0x3FEFBA7644F068B5, 0x3FEFB8D18D66ADB7, 0x3FEFB727F187F1C7,
    0x3FEFB5797195D741, 0x3FEFB3C60DD2C199, 0x3FEFB20DC681D54D, 0x3FEFB0509BE6F7DB,
    0x3FEFAE8E8E46CFBB, 0x3FEFACC79DE6C44F, 0x3FEFAAFBCB0CFDDC, 0x3FEFA92B1600657C],
   [0x3FEFA7557F08A517, 0x3FEFA57B066E2754, 0x3FEFA39BAC7A1791, 0x3FEFA1B7717661D5,
    0x3FEF9FCE55ADB2C8, 0x3FEF9DE0596B77A3, 0x3FEF9BED7CFBDE29, 0x3FEF99F5C0ABD496,
    0x3FEF97F924C9099B, 0x3FEF95F7A9A1EC47, 0x3FEF93F14F85AC08, 0x3FEF91E616C43891,
    0x3FEF8FD5FFAE41DB, 0x3FEF8DC10A95380D, 0x3FEF8BA737CB4B78, 0x3FEF898887A36C84],
   [0x3FEF8764FA714BA9, 0x3FEF853C9089595E, 0x3FEF830F4A40C60C, 0x3FEF80DD27ED8204,
    0x3FEF7EA629E63D6E, 0x3FEF7C6A50826840, 0x3FEF7A299C1A322A, 0x3FEF77E40D068A90,
    0x3FEF7599A3A12077, 0x3FEF734A60446279, 0x3FEF70F6434B7EB7, 0x3FEF6E9D4D1262CA,
    0x3FEF6C3F7DF5BBB7, 0x3FEF69DCD652F5DE, 0x3FEF677556883CEE, 0x3FEF6508FEF47BD5],
   [0x3FEF6297CFF75CB0, 0x3FEF6021C9F148C2, 0x3FEF5DA6ED43685D, 0x3FEF5B273A4FA2D9,
    0x3FEF58A2B1789E84, 0x3FEF56195321C090, 0x3FEF538B1FAF2D07, 0x3FEF50F81785C6B9,
    0x3FEF4E603B0B2F2D, 0x3FEF4BC38AA5C694, 0x3FEF492206BCABB4, 0x3FEF467BAFB7BBDF,
    0x3FEF43D085FF92DD, 0x3FEF412089FD8ADC, 0x3FEF3E6BBC1BBC65, 0x3FEF3BB21CC4FE47],
   [0x3FEF38F3AC64E589, 0x3FEF36306B67C556, 0x3FEF33685A3AAEF0, 0x3FEF309B794B719F,
    0x3FEF2DC9C9089A9D, 0x3FEF2AF349E17507, 0x3FEF2817FC4609CE, 0x3FEF2537E0A71F9F,
    0x3FEF2252F7763ADA, 0x3FEF1F6941259D7A, 0x3FEF1C7ABE284708, 0x3FEF19876EF1F486,
    0x3FEF168F53F7205D, 0x3FEF13926DAD024E, 0x3FEF1090BC898F5F, 0x3FEF0D8A410379C5],
   [0x3FEF0A7EFB9230D7, 0x3FEF076EECADE0FA, 0x3FEF045A14CF738C, 0x3FEF014074708ED3,
    0x3FEEFE220C0B95EC, 0x3FEEFAFEDC1BA8B7, 0x3FEEF7D6E51CA3C0, 0x3FEEF4AA278B2032,
    0x3FEEF178A3E473C2, 0x3FEEEE425AA6B09A, 0x3FEEEB074C50A544, 0x3FEEE7C77961DC9E,
    0x3FEEE482E25A9DBC, 0x3FEEE13987BBEBDC, 0x3FEEDDEB6A078651, 0x3FEEDA9889BFE86A],
   [0x3FEED740E7684963, 0x3FEED3E483849C51, 0x3FEED0835E999009, 0x3FEECD1D792C8F10,
    0x3FEEC9B2D3C3BF84, 0x3FEEC6436EE60309, 0x3FEEC2CF4B1AF6B2, 0x3FEEBF5668EAF2EF,
    0x3FEEBBD8C8DF0B74, 0x3FEEB8566B810F29, 0x3FEEB4CF515B8811, 0x3FEEB1437AF9BB34,
    0x3FEEADB2E8E7A88E, 0x3FEEAA1D9BB20AF3, 0x3FEEA68393E65800, 0x3FEEA2E4D212C000],
   [0x3FEE9F4156C62DDA, 0x3FEE9B99229046F8, 0x3FEE97EC36016B30, 0x3FEE943A91AAB4B4,
    0x3FEE9084361DF7F2, 0x3FEE8CC923EDC388, 0x3FEE89095BAD6025, 0x3FEE8544DDF0D075,
    0x3FEE817BAB4CD10D, 0x3FEE7DADC456D850, 0x3FEE79DB29A5165A, 0x3FEE7603DBCE74E9,
    0x3FEE7227DB6A9744, 0x3FEE6E472911DA27, 0x3FEE6A61C55D53A7, 0x3FEE6677B0E6D31E],
   [0x3FEE6288EC48E112, 0x3FEE5E95781EBF1C, 0x3FEE5A9D550467D3, 0x3FEE56A083968EB1,
    0x3FEE529F04729FFC, 0x3FEE4E98D836C0AF, 0x3FEE4A8DFF81CE5E, 0x3FEE467E7AF35F23,
    0x3FEE426A4B2BC17E, 0x3FEE3E5170CBFC46, 0x3FEE3A33EC75CE85, 0x3FEE3611BECBAF69,
    0x3FEE31EAE870CE25, 0x3FEE2DBF6A0911D9, 0x3FEE298F4439197A, 0x3FEE255A77A63BB8],
   [0x3FEE212104F686E5, 0x3FEE1CE2ECD0C0D8, 0x3FEE18A02FDC66D9, 0x3FEE1458CEC1AD83,
    0x3FEE100CCA2980AC, 0x3FEE0BBC22BD8348, 0x3FEE0766D9280F54, 0x3FEE030CEE1435B8,
    0x3FEDFEAE622DBE2B, 0x3FEDFA4B3621271D, 0x3FEDF5E36A9BA59C, 0x3FEDF177004B2534,
    0x3FEDED05F7DE47DA, 0x3FEDE890520465CE, 0x3FEDE4160F6D8D81, 0x3FEDDF9730CA837B],
   [0x3FEDDB13B6CCC23C, 0x3FEDD68BA2267A25, 0x3FEDD1FEF38A915A, 0x3FEDCD6DABACA3A5,
    0x3FEDC8D7CB410260, 0x3FEDC43D52FCB453, 0x3FEDBF9E4395759A, 0x3FEDBAFA9DC1B78C,
    0x3FEDB6526238A09B, 0x3FEDB1A591B20C38, 0x3FEDACF42CE68AB9, 0x3FEDA83E348F613B,
    0x3FEDA383A9668988, 0x3FED9EC48C26B1F3, 0x3FED9A00DD8B3D46, 0x3FED95389E50429B]]

/-- Quarter wave, entries 256 to 511, sixteen a row. -/
def quarterWave1 : List (List Word) :=
  [[0x3FED906BCF328D46, 0x3FED8B9A70EF9CB4, 0x3FED86C48445A44F, 0x3FED81EA09F38B62,
    0x3FED7D0B02B8ECF9, 0x3FED78276F5617C5, 0x3FED733F508C0DFF, 0x3FED6E52A71C8547,
    0x3FED696173C9E68B, 0x3FED646BB7574DE5, 0x3FED5F7172888A7F, 0x3FED5A72A6221E73,
    0x3FED556F52E93EB1, 0x3FED506779A3D2D9, 0x3FED4B5B1B187524, 0x3FED464A380E7242],
   [0x3FED4134D14DC93A, 0x3FED3C1AE79F2B4E, 0x3FED36FC7BCBFBDC, 0x3FED31D98E9E503A,
    0x3FED2CB220E0EF9F, 0x3FED2786335F52FC, 0x3FED2255C6E5A4E1, 0x3FED1D20DC40C15C,
    0x3FED17E7743E35DC, 0x3FED12A98FAC410C, 0x3FED0D672F59D2B9, 0x3FED082054168BAC,
    0x3FED02D4FEB2BD92, 0x3FECFD852FFF6AD4, 0x3FECF830E8CE467B, 0x3FECF2D829F1B40E],
   [0x3FECED7AF43CC773, 0x3FECE819488344CE, 0x3FECE2B32799A060, 0x3FECDD489254FE65,
    0x3FECD7D9898B32F6, 0x3FECD2660E12C1E5, 0x3FECCCEE20C2DEA0, 0x3FECC771C2736C09,
    0x3FECC1F0F3FCFC5C, 0x3FECBC6BB638D10B, 0x3FECB6E20A00DA99, 0x3FECB153F02FB87D,
    0x3FECABC169A0B900, 0x3FECA62A772FD918, 0x3FECA08F19B9C449, 0x3FEC9AEF521BD480],
   [0x3FEC954B213411F5, 0x3FEC8FA287E13305, 0x3FEC89F587029C13, 0x3FEC84441F785F61,
    0x3FEC7E8E52233CF3, 0x3FEC78D41FE4A267, 0x3FEC7315899EAAD7, 0x3FEC6D5290341EB2,
    0x3FEC678B3488739B, 0x3FEC61BF777FCC48, 0x3FEC5BEF59FEF85A, 0x3FEC561ADCEB743E,
    0x3FEC5042012B6907, 0x3FEC4A64C7A5AC4C, 0x3FEC44833141C004, 0x3FEC3E9D3EE7D262],
   [0x3FEC38B2F180BDB1, 0x3FEC32C449F60830, 0x3FEC2CD14931E3F1, 0x3FEC26D9F01F2EAF,
    0x3FEC20DE3FA971B0, 0x3FEC1ADE38BCE19A, 0x3FEC14D9DC465E57, 0x3FEC0ED12B3372E9,
    0x3FEC08C426725549, 0x3FEC02B2CEF1E641, 0x3FEBFC9D25A1B147, 0x3FEBF6832B71EC5B,
    0x3FEBF064E15377DD, 0x3FEBEA424837DE6D, 0x3FEBE41B611154C1, 0x3FEBDDF02CD2B982],
   [0x3FEBD7C0AC6F952A, 0x3FEBD18CE0DC19D5, 0x3FEBCB54CB0D2327, 0x3FEBC5186BF8361C,
    0x3FEBBED7C49380EA, 0x3FEBB892D5D5DAD5, 0x3FEBB249A0B6C40D, 0x3FEBABFC262E6586,
    0x3FEBA5AA673590D2, 0x3FEB9F5464C5BFFC, 0x3FEB98FA1FD9155E, 0x3FEB929B996A5B7F,
    0x3FEB8C38D27504E9, 0x3FEB85D1CBF52C02, 0x3FEB7F6686E792E9, 0x3FEB78F70449A34B],
   [0x3FEB728345196E3E, 0x3FEB6C0B4A55AC17, 0x3FEB658F14FDBC47, 0x3FEB5F0EA611A532,
    0x3FEB5889FE921405, 0x3FEB52011F805C92, 0x3FEB4B7409DE7925, 0x3FEB44E2BEAF0A61,
    0x3FEB3E4D3EF55712, 0x3FEB37B38BB54C09, 0x3FEB3115A5F37BF3, 0x3FEB2A738EB51F33,
    0x3FEB23CD470013B4, 0x3FEB1D22CFDADCC7, 0x3FEB16742A4CA2F5, 0x3FEB0FC1575D33DB],
   [0x3FEB090A58150200, 0x3FEB024F2D7D24A9, 0x3FEAFB8FD89F57B6, 0x3FEAF4CC5A85FB73,
    0x3FEAEE04B43C1474, 0x3FEAE738E6CD4B67, 0x3FEAE068F345ECEF, 0x3FEAD994DAB2E979,
    0x3FEAD2BC9E21D511, 0x3FEACBE03EA0E73B, 0x3FEAC4FFBD3EFAC8, 0x3FEABE1B1B0B8DAC,
    0x3FEAB7325916C0D4, 0x3FEAB045787157FF, 0x3FEAA9547A2CB98E, 0x3FEAA25F5F5AEE60],
   [0x3FEA9B66290EA1A3, 0x3FEA9468D85B20AE, 0x3FEA8D676E545AD2, 0x3FEA8661EC0EE133,
    0x3FEA7F58529FE69D, 0x3FEA784AA31D3F55, 0x3FEA7138DE9D60F5, 0x3FEA6A230637623B,
    0x3FEA63091B02FAE2, 0x3FEA5BEB1E188375, 0x3FEA54C91090F523, 0x3FEA4DA2F385E997,
    0x3FEA4678C8119AC8, 0x3FEA3F4A8F4EE2D2, 0x3FEA38184A593BC6, 0x3FEA30E1FA4CBF81],
   [0x3FEA29A7A0462782, 0x3FEA22693D62CCB9, 0x3FEA1B26D2C0A75E, 0x3FEA13E0617E4EC7,
    0x3FEA0C95EABAF937, 0x3FEA05476F967BB4, 0x3FE9FDF4F13149DE, 0x3FE9F69E70AC75BC,
    0x3FE9EF43EF29AF94, 0x3FE9E7E56DCB45BD, 0x3FE9E082EDB42472, 0x3FE9D91C7007D5A6,
    0x3FE9D1B1F5EA80D5, 0x3FE9CA438080EADB, 0x3FE9C2D110F075C2, 0x3FE9BB5AA85F2098],
   [0x3FE9B3E047F38741, 0x3FE9AC61F0D4E247, 0x3FE9A4DFA42B06B2, 0x3FE99D59631E65D5,
    0x3FE995CF2ED80D22, 0x3FE98E410881A5FF, 0x3FE986AEF1457594, 0x3FE97F18EA4E5C9D,
    0x3FE9777EF4C7D742, 0x3FE96FE111DDFCE0, 0x3FE9683F42BD7FE1, 0x3FE960998893AD8C,
    0x3FE958EFE48E6DD7, 0x3FE9514257DC4335, 0x3FE94990E3AC4A6C, 0x3FE941DB892E3A65],
   [0x3FE93A22499263FB, 0x3FE932652609B1CF, 0x3FE92AA41FC5A815, 0x3FE922DF37F8646A,
    0x3FE91B166FD49DA2, 0x3FE91349C88DA397, 0x3FE90B7943575EFE, 0x3FE903A4E1665133,
    0x3FE8FBCCA3EF940D, 0x3FE8F3F08C28D9AB, 0x3FE8EC109B486C49, 0x3FE8E42CD2852E09,
    0x3FE8DC45331698CC, 0x3FE8D459BE34BDF9, 0x3FE8CC6A75184655, 0x3FE8C47758FA71CA],
   [0x3FE8BC806B151741, 0x3FE8B485ACA2A468, 0x3FE8AC871EDE1D88, 0x3FE8A484C3031D51,
    0x3FE89C7E9A4DD4AA, 0x3FE89474A5FB0A84, 0x3FE88C66E7481BA1, 0x3FE884555F72FA6B,
    0x3FE87C400FBA2EBF, 0x3FE87426F95CD5BC, 0x3FE86C0A1D9AA195, 0x3FE863E97DB3D95A,
    0x3FE85BC51AE958CC, 0x3FE8539CF67C9029, 0x3FE84B7111AF83FA, 0x3FE843416DC4CCE2],
   [0x3FE83B0E0BFF976E, 0x3FE832D6EDA3A3E0, 0x3FE82A9C13F545FF, 0x3FE8225D803964E5,
    0x3FE81A1B33B57ACC, 0x3FE811D52FAF94DC, 0x3FE8098B756E52FA, 0x3FE8013E0638E795,
    0x3FE7F8ECE3571771, 0x3FE7F0980E113978, 0x3FE7E83F87B03686, 0x3FE7DFE3517D8937,
    0x3FE7D7836CC33DB2, 0x3FE7CF1FDACBF179, 0x3FE7C6B89CE2D333, 0x3FE7BE4DB453A27C],
   [0x3FE7B5DF226AAFAF, 0x3FE7AD6CE874DBB6, 0x3FE7A4F707BF97D2, 0x3FE79C7D8198E56E,
    0x3FE79400574F55E5, 0x3FE78B7F8A320A51, 0x3FE782FB1B90B35B, 0x3FE77A730CBB90FF,
    0x3FE771E75F037261, 0x3FE7695813B9B593, 0x3FE760C52C304764, 0x3FE7582EA9B9A329,
    0x3FE74F948DA8D28D, 0x3FE746F6D9516D59, 0x3FE73E558E079942, 0x3FE735B0AD2009B2],
   [0x3FE72D0837EFFF96, 0x3FE7245C2FCD492A, 0x3FE71BAC960E41BF, 0x3FE712F96C09D18D,
    0x3FE70A42B3176D7A, 0x3FE701886C8F16E6, 0x3FE6F8CA99C95B75, 0x3FE6F0093C1F54DE,
    0x3FE6E74454EAA8AF, 0x3FE6DE7BE585881D, 0x3FE6D5AFEF4AAFCD, 0x3FE6CCE07395679E,
    0x3FE6C40D73C18275, 0x3FE6BB36F12B5E05, 0x3FE6B25CED2FE29C, 0x3FE6A97F692C82E9]]

/-- Quarter wave, entries 512 to 767, sixteen a row. -/
def quarterWave2 : List (List Word) :=
  [[0x3FE6A09E667F3BCD, 0x3FE697B9E686941C, 0x3FE68ED1EAA19C71, 0x3FE685E6742FEEEF,
    0x3FE67CF78491AF10, 0x3FE674051D27896C, 0x3FE66B0F3F52B386, 0x3FE66215EC74EB91,
    0x3FE6591925F0783D, 0x3FE65018ED28287F, 0x3FE64715437F535B, 0x3FE63E0E2A59D7AA,
    0x3FE63503A31C1BE9, 0x3FE62BF5AF2B0DFD, 0x3FE622E44FEC22FF, 0x3FE619CF86C55702],
   [0x3FE610B7551D2CDF, 0x3FE6079BBC5AADFA, 0x3FE5FE7CBDE56A10, 0x3FE5F55A5B2576F8,
    0x3FE5EC3495837074, 0x3FE5E30B6E6877F3, 0x3FE5D9DEE73E345C, 0x3FE5D0AF016ED1D5,
    0x3FE5C77BBE65018C, 0x3FE5BE451F8BF981, 0x3FE5B50B264F7448, 0x3FE5ABCDD41BB0D9,
    0x3FE5A28D2A5D7250, 0x3FE599492A81FFBC, 0x3FE59001D5F723DF, 0x3FE586B72E2B2CFE],
   [0x3FE57D69348CECA0, 0x3FE57417EA8BB75C, 0x3FE56AC35197649F, 0x3FE5616B6B204E6F,
    0x3FE5581038975137, 0x3FE54EB1BB6DCB8F, 0x3FE5454FF5159DFC, 0x3FE53BEAE7012ABE,
    0x3FE5328292A35596, 0x3FE52916F96F8388, 0x3FE51FA81CD99AA6, 0x3FE51635FE5601D7,
    0x3FE50CC09F59A09B, 0x3FE503480159DED3, 0x3FE4F9CC25CCA486, 0x3FE4F04D0E2859AB],
   [0x3FE4E6CABBE3E5E9, 0x3FE4DD453076B064, 0x3FE4D3BC6D589F7F, 0x3FE4CA30740218A3,
    0x3FE4C0A145EC0004, 0x3FE4B70EE48FB869, 0x3FE4AD79516722F1, 0x3FE4A3E08DEC9ED6,
    0x3FE49A449B9B0939, 0x3FE490A57BEDBCDF, 0x3FE48703306091FF, 0x3FE47D5DBA6FDE01,
    0x3FE473B51B987347, 0x3FE46A095557A0F1, 0x3FE4605A692B32A2, 0x3FE456A858917046],
   [0x3FE44CF325091DD6, 0x3FE4433AD0117B1E, 0x3FE4397F5B2A4380, 0x3FE42FC0C7D3ADBC,
    0x3FE425FF178E6BB1, 0x3FE41C3A4BDBAA27, 0x3FE41272663D108C, 0x3FE408A76834C0C0,
    0x3FE3FED9534556D4, 0x3FE3F50828F1E8D2, 0x3FE3EB33EABE0680, 0x3FE3E15C9A2DB923,
    0x3FE3D78238C58344, 0x3FE3CDA4C80A6076, 0x3FE3C3C44981C518, 0x3FE3B9E0BEB19E18],
   [0x3FE3AFFA292050B9, 0x3FE3A6108A54BA57, 0x3FE39C23E3D63029, 0x3FE39234372C7F04,
    0x3FE3884185DFEB22, 0x3FE37E4BD1792FE2, 0x3FE374531B817F8D, 0x3FE36A576582831B,
    0x3FE36058B10659F3, 0x3FE35656FF9799AF, 0x3FE34C5252C14DE1, 0x3FE3424AAC0EF7D6,
    0x3FE338400D0C8E57, 0x3FE32E3277467D6B, 0x3FE32421EC49A61F, 0x3FE31A0E6DA35E45],
   [0x3FE30FF7FCE17035, 0x3FE305DE9B921A94, 0x3FE2FBC24B441015, 0x3FE2F1A30D86773A,
    0x3FE2E780E3E8EA17, 0x3FE2DD5BCFFB7616, 0x3FE2D333D34E9BB8, 0x3FE2C908EF734E57,
    0x3FE2BEDB25FAF3EA, 0x3FE2B4AA787764C4, 0x3FE2AA76E87AEB58, 0x3FE2A040779843FC,
    0x3FE2960727629CA8, 0x3FE28BCAF96D94BB, 0x3FE2818BEF4D3CBA, 0x3FE2774A0A961613],
   [0x3FE26D054CDD12DF, 0x3FE262BDB7B795A2, 0x3FE258734CBB7110, 0x3FE24E260D7EE7C9,
    0x3FE243D5FB98AC1F, 0x3FE23983189FDFD5, 0x3FE22F2D662C13E2, 0x3FE224D4E5D5482E,
    0x3FE21A799933EB59, 0x3FE2101B81E0DA78, 0x3FE205BAA17560D6, 0x3FE1FB56F98B37B9,
    0x3FE1F0F08BBC861B, 0x3FE1E68759A3E073, 0x3FE1DC1B64DC4872, 0x3FE1D1ACAF012CC2],
   [0x3FE1C73B39AE68C8, 0x3FE1BCC706804468, 0x3FE1B250171373BF, 0x3FE1A7D66D0516E7,
    0x3FE19D5A09F2B9B8, 0x3FE192DAEF7A5387, 0x3FE188591F3A46E5, 0x3FE17DD49AD16161,
    0x3FE1734D63DEDB49, 0x3FE168C37C025765, 0x3FE15E36E4DBE2BC, 0x3FE153A7A00BF453,
    0x3FE14915AF336CEB, 0x3FE13E8113F396C1, 0x3FE133E9CFEE254F, 0x3FE1294FE4C5350A],
   [0x3FE11EB3541B4B23, 0x3FE114141F935545, 0x3FE1097248D0A957, 0x3FE0FECDD1770537,
    0x3FE0F426BB2A8E7E, 0x3FE0E97D078FD23B, 0x3FE0DED0B84BC4B6, 0x3FE0D421CF03C12B,
    0x3FE0C9704D5D898F, 0x3FE0BEBC34FF4646, 0x3FE0B405878F85EC, 0x3FE0A94C46B53D0B,
    0x3FE09E907417C5E1, 0x3FE093D2115EE018, 0x3FE089112032B08C, 0x3FE07E4DA23BC103],
   [0x3FE073879922FFEE, 0x3FE068BF0691C029, 0x3FE05DF3EC31B8B7, 0x3FE053264BAD0483,
    0x3FE0485626AE221A, 0x3FE03D837EDFF370, 0x3FE032AE55EDBD96, 0x3FE027D6AD83287E,
    0x3FE01CFC874C3EB7, 0x3FE0121FE4F56D2C, 0x3FE00740C82B82E1, 0x3FDFF8BE6537615F,
    0x3FDFE2F64BE71210, 0x3FDFCD2947C1FF58, 0x3FDFB7575C24D2DE, 0x3FDFA1808C6CF7E1],
   [0x3FDF8BA4DBF89ABA, 0x3FDF75C44E26A853, 0x3FDF5FDEE656CDA3, 0x3FDF49F4A7E97729,
    0x3FDF3405963FD067, 0x3FDF1E11B4BBC35C, 0x3FDF081906BFF7FE, 0x3FDEF21B8FAFD3B5,
    0x3FDEDC1952EF78D6, 0x3FDEC61253E3C61B, 0x3FDEB00695F25620, 0x3FDE99F61C817EDB,
    0x3FDE83E0EAF85114, 0x3FDE6DC704BE97E2, 0x3FDE57A86D3CD825, 0x3FDE418527DC4FFA],
   [0x3FDE2B5D3806F63B, 0x3FDE1530A12779F4, 0x3FDDFEFF66A941DE, 0x3FDDE8C98BF86BD5,
    0x3FDDD28F1481CC58, 0x3FDDBC5003B2EDF8, 0x3FDDA60C5CFA10D9, 0x3FDD8FC423C62A25,
    0x3FDD79775B86E389, 0x3FDD632607AC9AAA, 0x3FDD4CD02BA8609D, 0x3FDD3675CAEBF962,
    0x3FDD2016E8E9DB5B, 0x3FDD09B389152EC1, 0x3FDCF34BAEE1CD21, 0x3FDCDCDF5DC440CE],
   [0x3FDCC66E9931C45E, 0x3FDCAFF964A0421E, 0x3FDC997FC3865389, 0x3FDC8301B95B40C2,
    0x3FDC6C7F4997000B, 0x3FDC55F877B23537, 0x3FDC3F6D47263129, 0x3FDC28DDBB6CF145,
    0x3FDC1249D8011EE7, 0x3FDBFBB1A05E0EDC, 0x3FDBE51517FFC0D9, 0x3FDBCE744262DEEF,
    0x3FDBB7CF2304BD01, 0x3FDBA125BD63583E, 0x3FDB8A7814FD5693, 0x3FDB73C62D520624],
   [0x3FDB5D1009E15CC0, 0x3FDB4655AE2BF758, 0x3FDB2F971DB31972, 0x3FDB18D45BF8ACA6,
    0x3FDB020D6C7F4009, 0x3FDAEB4252CA07AB, 0x3FDAD473125CDC09, 0x3FDABD9FAEBC3981,
    0x3FDAA6C82B6D3FCA, 0x3FDA8FEC8BF5B166, 0x3FDA790CD3DBF31B, 0x3FDA622906A70B63,
    0x3FDA4B4127DEA1E5, 0x3FDA34553B0AFEE5, 0x3FDA1D6543B50AC0, 0x3FDA067145664D57],
   [0x3FD9EF7943A8ED8A, 0x3FD9D87D4207B0AC, 0x3FD9C17D440DF9F2, 0x3FD9AA794D47C9EE,
    0x3FD993716141BDFF, 0x3FD97C6583890FC3, 0x3FD96555B7AB948F, 0x3FD94E420137BCE3,
    0x3FD9372A63BC93D7, 0x3FD9200EE2C9BE97, 0x3FD908EF81EF7BD1, 0x3FD8F1CC44BEA32A,
    0x3FD8DAA52EC8A4B0, 0x3FD8C37A439F884F, 0x3FD8AC4B86D5ED44, 0x3FD89518FBFF098E]]

/-- Quarter wave, entries 768 to 1023, sixteen a row. -/
def quarterWave3 : List (List Word) :=
  [[0x3FD87DE2A6AEA963, 0x3FD866A88A792EA0, 0x3FD84F6AAAF3903F, 0x3FD838290BB359C8,
    0x3FD820E3B04EAAC4, 0x3FD8099A9C5C362D, 0x3FD7F24DD37341E4, 0x3FD7DAFD592BA622,
    0x3FD7C3A9311DCCE7, 0x3FD7AC515EE2B172, 0x3FD794F5E613DFAE, 0x3FD77D96CA4B73A6,
    0x3FD766340F2418F6, 0x3FD74ECDB8390A3E, 0x3FD73763C9261092, 0x3FD71FF6458782EC],
   [0x3FD7088530FA459F, 0x3FD6F1108F1BC9C5, 0x3FD6D998638A0CB6, 0x3FD6C21CB1E39772,
    0x3FD6AA9D7DC77E17, 0x3FD6931ACAD55F51, 0x3FD67B949CAD63CB, 0x3FD6640AF6F03D9E,
    0x3FD64C7DDD3F27C6, 0x3FD634ED533BE58E, 0x3FD61D595C88C202, 0x3FD605C1FCC88F64,
    0x3FD5EE27379EA693, 0x3FD5D68910AEE687, 0x3FD5BEE78B9DB3B6, 0x3FD5A742AC0FF78E],
   [0x3FD58F9A75AB1FDD, 0x3FD577EEEC151E48, 0x3FD5604012F467B4, 0x3FD5488DEDEFF3BE,
    0x3FD530D880AF3C24, 0x3FD5191FCEDA3C35, 0x3FD50163DC197048, 0x3FD4E9A4AC15D521,
    0x3FD4D1E24278E76A, 0x3FD4BA1CA2ECA31D, 0x3FD4A253D11B82F3, 0x3FD48A87D0B07FD7,
    0x3FD472B8A5571054, 0x3FD45AE652BB2800, 0x3FD44310DC8936F0, 0x3FD42B38466E2927],
   [0x3FD4135C94176601, 0x3FD3FB7DC932CFA5, 0x3FD3E39BE96EC271, 0x3FD3CBB6F87A146E,
    0x3FD3B3CEFA0414B7, 0x3FD39BE3F1BC8AF0, 0x3FD383F5E353B6AB, 0x3FD36C04D27A4EDF,
    0x3FD35410C2E18152, 0x3FD33C19B83AF207, 0x3FD3241FB638BAAF, 0x3FD30C22C08D6A13,
    0x3FD2F422DAEC0387, 0x3FD2DC200907FE51, 0x3FD2C41A4E954520, 0x3FD2AC11AF483572],
   [0x3FD294062ED59F06, 0x3FD27BF7D0F2C346, 0x3FD263E6995554BA, 0x3FD24BD28BB37672,
    0x3FD233BBABC3BB71, 0x3FD21BA1FD3D2622, 0x3FD2038583D727BE, 0x3FD1EB6643499FBB,
    0x3FD1D3443F4CDB3E, 0x3FD1BB1F7B999480, 0x3FD1A2F7FBE8F243, 0x3FD18ACDC3F4873A,
    0x3FD172A0D7765177, 0x3FD15A713A28B9D9, 0x3FD1423EEFC69378, 0x3FD12A09FC0B1B12],
   [0x3FD111D262B1F677, 0x3FD0F998277733F7, 0x3FD0E15B4E1749CE, 0x3FD0C91BDA4F158E,
    0x3FD0B0D9CFDBDB90, 0x3FD09895327B465E, 0x3FD0804E05EB661E, 0x3FD068044DEAB002,
    0x3FD04FB80E37FDAE, 0x3FD037694A928CAC, 0x3FD01F1806B9FDD2, 0x3FD006C4466E54B0,
    0x3FCFDCDC1ADFEDF9, 0x3FCFAC2ABEFF5800, 0x3FCF7B7480BD3802, 0x3FCF4AB9679C9F5D],
   [0x3FCF19F97B215F1B, 0x3FCEE934C2D006C7, 0x3FCEB86B462DE348, 0x3FCE879D0CC0FDB0,
    0x3FCE56CA1E101A1B, 0x3FCE25F281A2B685, 0x3FCDF5163F01099A, 0x3FCDC4355DB40195,
    0x3FCD934FE5454311, 0x3FCD6265DD3F27E4, 0x3FCD31774D2CBDEE, 0x3FCD00843C99C5F9,
    0x3FCCCF8CB312B286, 0x3FCC9E90B824A6A9, 0x3FCC6D90535D74DD, 0x3FCC3C8B8C4B9DD8],
   [0x3FCC0B826A7E4F63, 0x3FCBDA74F5856330, 0x3FCBA96334F15DAD, 0x3FCB784D30536CDA,
    0x3FCB4732EF3D6722, 0x3FCB16147941CA2B, 0x3FCAE4F1D5F3B9AB, 0x3FCAB3CB0CE6FE44,
    0x3FCA82A025B00451, 0x3FCA517127E3DABD, 0x3FCA203E1B1831DA, 0x3FC9EF0706E35A35,
    0x3FC9BDCBF2DC4366, 0x3FC98C8CE69A7AEC, 0x3FC95B49E9B62AFA, 0x3FC92A0303C8194F],
   [0x3FC8F8B83C69A60B, 0x3FC8C7699B34CA7F, 0x3FC8961727C41804, 0x3FC864C0E9B2B6D0,
    0x3FC83366E89C64C6, 0x3FC802092C1D744B, 0x3FC7D0A7BBD2CB1C, 0x3FC79F429F59E11D,
    0x3FC76DD9DE50BF31, 0x3FC73C6D8055FE0B, 0x3FC70AFD8D08C4FF, 0x3FC6D98A0C08C8DB,
    0x3FC6A81304F64AB2, 0x3FC676987F7216B8, 0x3FC6451A831D830D, 0x3FC61399179A6E95],
   [0x3FC5E214448B3FC6, 0x3FC5B08C1192E381, 0x3FC57F008654CBDE, 0x3FC54D71AA74EF03,
    0x3FC51BDF8597C5F2, 0x3FC4EA4A1F624B61, 0x3FC4B8B17F79FA88, 0x3FC48715AD84CDF4,
    0x3FC45576B1293E5A, 0x3FC423D4920E4166, 0x3FC3F22F57DB4893, 0x3FC3C0870A383FF6,
    0x3FC38EDBB0CD8D14, 0x3FC35D2D53440DB2, 0x3FC32B7BF94516A7, 0x3FC2F9C7AA7A72AF],
   [0x3FC2C8106E8E613A, 0x3FC296564D2B953E, 0x3FC264994DFD3409, 0x3FC232D978AED414,
    0x3FC20116D4EC7BCF, 0x3FC1CF516A62A077, 0x3FC19D8940BE24E7, 0x3FC16BBE5FAC5865,
    0x3FC139F0CEDAF577, 0x3FC1082095F820B0, 0x3FC0D64DBCB26786, 0x3FC0A4784AB8BF1D,
    0x3FC072A047BA831D, 0x3FC040C5BB67747E, 0x3FC00EE8AD6FB85B, 0x3FBFBA124B07AD86],
   [0x3FBF564E56A9730E, 0x3FBEF2858D27561B, 0x3FBE8EB7FDE4AA3F, 0x3FBE2AE5B8457F77,
    0x3FBDC70ECBAE9FC9, 0x3FBD633347858CE4, 0x3FBCFF533B307DC1, 0x3FBC9B6EB6165C43,
    0x3FBC3785C79EC2D5, 0x3FBBD3987F31FA0E, 0x3FBB6FA6EC38F64C, 0x3FBB0BB11E1D5559,
    0x3FBAA7B724495C03, 0x3FBA43B90E27F3C5, 0x3FB9DFB6EB24A85C, 0x3FB97BB0CAABA570],
   [0x3FB917A6BC29B42C, 0x3FB8B398CF0C38E0, 0x3FB84F8712C130A1, 0x3FB7EB7196B72EE4,
    0x3FB787586A5D5B21, 0x3FB7233B9D236E71, 0x3FB6BF1B3E79B129, 0x3FB65AF75DD0F87C,
    0x3FB5F6D00A9AA419, 0x3FB592A554489BC8, 0x3FB52E774A4D4D0A, 0x3FB4CA45FC1BA8B6,
    0x3FB4661179272096, 0x3FB401D9D0E3A508, 0x3FB39D9F12C5A299, 0x3FB339614E41FFA6],
   [0x3FB2D52092CE19F6, 0x3FB270DCEFDFC45A, 0x3FB20C9674ED444D, 0x3FB1A84D316D4F8A,
    0x3FB1440134D709B3, 0x3FB0DFB28EA201E7, 0x3FB07B614E463064, 0x3FB0170D833BF422,
    0x3FAF656E79F820E0, 0x3FAE9CBD15FF5528, 0x3FADD406F9808EC9, 0x3FAD0B4C436F91D0,
    0x3FAC428D12C0D7E3, 0x3FAB79C986698B79, 0x3FAAB101BD5F8317, 0x3FA9E835D6993C87],
   [0x3FA91F65F10DD814, 0x3FA856922BB513C1, 0x3FA78DBAA5874686, 0x3FA6C4DF7D7D5B84,
    0x3FA5FC00D290CD43, 0x3FA5331EC3BBA0EB, 0x3FA46A396FF86179, 0x3FA3A150F6421AFC,
    0x3FA2D865759455CD, 0x3FA20F770CEB11C7, 0x3FA14685DB42C17F, 0x3FA07D91FF984580,
    0x3F9F693731D1CF01, 0x3F9DD7458C64AB3A, 0x3F9C454F4CE53B1D, 0x3F9AB354B1504FCA],
   [0x3F992155F7A3667E, 0x3F978F535DDC9F04, 0x3F95FD4D21FAB226, 0x3F946B4381FCE81B,
    0x3F92D936BBE30EFD, 0x3F9147270DAD7133, 0x3F8F6A296AB997CB, 0x3F8C45FFE1E48AD9,
    0x3F8921D1FCDEC784, 0x3F85FDA037AC05E1, 0x3F82D96B0E509703, 0x3F7F6A65F9A2A3C6,
    0x3F7921F0FE670071, 0x3F72D97822F996BC, 0x3F6921F8BECCA4BA, 0x3F5921FAAEE6472E]]

/-- The quarter wave by rows of sixteen; the last row is the single entry `cos(π/2) = +0.0`. -/
def quarterWave : List (List Word) := quarterWave0 ++ quarterWave1 ++ quarterWave2 ++ quarterWave3 ++ [[0x0000000000000000]]

/-- `cos(2π·t/4096)` rounded once, for `t` in 0..1024. -/
def quarterCos (t : Nat) : Word := (quarterWave.getD (t / 16) []).getD (t % 16) 0

/-- 1.0 in the fixed point of 192 fraction bits. -/
def fixedOne : Nat := 2 ^ 192

/-- π in that fixed point, rounded down. -/
def fixedPi : Nat := 0x3243F6A8885A308D313198A2E03707344A4093822299F31D0

/-- `n` factors of the cosine series from the `k`-th on, `1 - x²/((2k+1)(2k+2))·(1 - ...)`, of the fixed-point square `x2`
of the angle. -/
def cosSeries (x2 : Nat) : Nat → Nat → Nat
  | 0, _ => fixedOne
  | n + 1, k => fixedOne - x2 * cosSeries x2 n (k + 1) / (fixedOne * ((2 * k + 1) * (2 * k + 2)))

/-- `cos(2π·a/2^24)` in fixed point, for `a` in the first quadrant, with an error below `2^-186`. -/
def fixedCos (a : Nat) : Nat :=
  let x := a * fixedPi / 2 ^ 23
  cosSeries (x * x / fixedOne) 30 0

/-- `cos(2π·a/2^24)` rounded once, for `a` in 0..2^22: from the table where it has the angle. -/
def cosEntry (a : Nat) : Word :=
  if a % 2 ^ 12 = 0 then quarterCos (a / 2 ^ 12)
  else ofSignMag false (roundMag (fixedCos a * unitScale) fixedOne)

/-- The negated entry, `+0.0` where the entry is zero (R36: an exact zero is `+0.0`). -/
def negEntry (w : Word) : Word := if w = 0 then 0 else fneg w

/-- The angle of entry `t`, in units of `2π/2^24`; `LOG2_NFFT_MAX` is at most 24 (00_scope.md R8). -/
def twAngle (p : Config) (t : Nat) : Nat := t * 2 ^ (24 - p.log2NfftMax)

/-- The real part at an angle below half a turn: `cos θ = -cos(π - θ)` (R36). -/
def twReAt (a : Nat) : Word := if a ≤ 2 ^ 22 then cosEntry a else negEntry (cosEntry (2 ^ 23 - a))

/-- The imaginary part at an angle below half a turn: `-sin θ = -cos(π/2 - θ)` (R36). -/
def twImAt (a : Nat) : Word := negEntry (if a ≤ 2 ^ 22 then cosEntry (2 ^ 22 - a) else cosEntry (a - 2 ^ 22))

/-- `TWROM[t].re = cos(2π·t/NFFT_MAX)`, `t` in 0..NFFT_MAX/2-1 (R36). -/
def twRe (p : Config) (t : Nat) : Word := twReAt (twAngle p t)

/-- `TWROM[t].im = -sin(2π·t/NFFT_MAX)`, `t` in 0..NFFT_MAX/2-1 (R36). -/
def twIm (p : Config) (t : Nat) : Word := twImAt (twAngle p t)

end Sys2Proof.Machine
end

