-- ==== Sys2Proof/Machine/Operands.lean ====
section
/-! DEFINITION. The one operand form that reaches state: an absolute word index into one of the address spaces
(20_memory.md R50, 43_access.md), with the valid indices of each space and what a read returns. -/

namespace Sys2Proof.Machine

/-- The address spaces (R50); the FFT space has one index range for each half. -/
inductive Space where
  | csr
  | coef
  | state
  | resp
  | ir
  | fftRe
  | fftIm
  | tw
  deriving DecidableEq, Repr

/-- The stage of a COEF index, `IDX[23:3]` (R74, R183). -/
def coefStage (idx : Nat) : Nat := idx / 8

/-- The selector of a COEF index, `IDX[2:0]` (R74, R183): 0 is the gain, 1 to 4 the coefficients. -/
def coefSel (idx : Nat) : Nat := idx % 8

/-- `GAIN[k]`. -/
def Design.gainAt (d : Design) (k : Nat) : Word := d.gain.read k

/-- `COEF[k][j]`. -/
def Design.coefAt (d : Design) (k j : Nat) : Word := d.coef.read (4 * k + j)

/-- `STATE[k][j]` of a delay-line file (R50: word `4k+j`). -/
def tapAt (line : WordMem) (k j : Nat) : Word := line.read (4 * k + j)

/-- The valid indices of a space (R50). -/
def Space.valid (sp : Space) (idx : Nat) (s : State) : Bool :=
  match sp with
  | .csr => decide (idx ≤ 0x0C)
  | .coef => decide (coefStage idx < s.par.smax) && decide (coefSel idx ≤ 4)
  | .state => decide (idx < 4 * s.par.smax)
  | .resp => s.respValid && decide (idx < s.respLen.toNat)
  | .ir => decide (idx < s.par.nfftMax)
  | .fftRe => decide (idx < s.par.nfftMax)
  | .fftIm => decide (idx < s.par.nfftMax)
  | .tw => decide (idx < s.par.nfftMax)

/-- `MemRead(space, idx)` (00_scope.md R10), at a valid index. -/
def memRead (sp : Space) (idx : Nat) (s : State) : Word :=
  match sp with
  | .csr => csrWord idx s
  | .coef =>
    if coefSel idx = 0 then s.design.gainAt (coefStage idx) else s.design.coefAt (coefStage idx) (coefSel idx - 1)
  | .state => tapAt s.delayLine (idx / 4) (idx % 4)
  | .resp => s.resp.read idx
  | .ir => s.ir.read idx
  | .fftRe => s.re.read idx
  | .fftIm => s.im.read idx
  | .tw => if idx % 2 = 0 then twRe s.par (idx / 2) else twIm s.par (idx / 2)

/-- A read command (43_access.md): the word, or `ERR_RANGE` at an index outside the space (R52). -/
def readSpace (sp : Space) (idx : Nat) (s : State) : State :=
  if sp.valid idx s then respondOk (memRead sp idx s) s else raiseErr .range s

end Sys2Proof.Machine
end

