-- ==== Sys2Proof/Machine/Access.lean ====
section
/-! DEFINITION. The meanings of the access and housekeeping commands (43_access.md R180 to R191). -/

namespace Sys2Proof.Machine

/-- NOP (R180). -/
def execNop (s : State) : Host.Outcome State Fault Refusal := .next (respondOk 0 s)

/-- GETORD (R181): the configured order, whatever the mode. -/
def execGetord (s : State) : Host.Outcome State Fault Refusal := .next (respondOk (s.cfg.order.zeroExtend 64) s)

/-- RDCSR (R182). -/
def execRdcsr (num : Nat) (s : State) : Host.Outcome State Fault Refusal := .next (readSpace .csr num s)

/-- RDCOEF (R183). -/
def execRdcoef (idx : Nat) (s : State) : Host.Outcome State Fault Refusal := .next (readSpace .coef idx s)

/-- RDSTATE (R184). -/
def execRdstate (idx : Nat) (s : State) : Host.Outcome State Fault Refusal := .next (readSpace .state idx s)

/-- RDRESP (R185): the stale test comes first (R203). -/
def execRdresp (idx : Nat) (s : State) : Host.Outcome State Fault Refusal :=
  .next (if s.respValid then readSpace .resp idx s else raiseErr .stale s)

/-- RDIR (R186). -/
def execRdir (idx : Nat) (s : State) : Host.Outcome State Fault Refusal := .next (readSpace .ir idx s)

/-- RDRE (R187). -/
def execRdre (idx : Nat) (s : State) : Host.Outcome State Fault Refusal := .next (readSpace .fftRe idx s)

/-- RDIM (R188). -/
def execRdim (idx : Nat) (s : State) : Host.Outcome State Fault Refusal := .next (readSpace .fftIm idx s)

/-- RDTW (R189). -/
def execRdtw (idx : Nat) (s : State) : Host.Outcome State Fault Refusal := .next (readSpace .tw idx s)

/-- WRIR (R190): the one host write. -/
def execWrir (idx : Nat) (d : Word) (s : State) : Host.Outcome State Fault Refusal :=
  .next (if idx < s.par.nfftMax then respondOk 0 { s with ir := s.ir.write idx d } else raiseErr .range s)

/-- CLRERR (R191). -/
def execClrerr (s : State) : Host.Outcome State Fault Refusal := .next (respondOk 0 (clearErr s))

end Sys2Proof.Machine
end

