-- ==== Sys2Proof/Machine/Engine.lean ====
section
/-! DEFINITION. The cascade engine, one input sample at a time (41_engine.md R121 to R128). APPLY and the analyzer call
the same function (R144). -/

namespace Sys2Proof.Machine

/-- The feedback accumulator `w0 = x + Σ_j COEF[k][j]·STATE[k][j]`, seeded with `x`, ascending `j`, every product and sum
rounded (R124). -/
def accumulate (d : Design) (line : WordMem) (k : Nat) (x : Word) : Draw Word :=
  (List.range d.numCoef.toNat).foldlM (fun w j => do
    let p ← fmul (d.coefAt k j) (tapAt line k j)
    fadd w p) x

/-- The mode's combination of `w0` and the taps before the shift, the gain applied last (R125). -/
def stageOutput (d : Design) (line : WordMem) (k : Nat) (w0 : Word) : Draw Word :=
  match d.mode with
  | .bypass => pure w0
  | .lowPass => do
    let t ← fmul f2 (tapAt line k 0)
    let u ← fadd w0 t
    let v ← fadd u (tapAt line k 1)
    fmul (d.gainAt k) v
  | .highPass => do
    let t ← fmul f2 (tapAt line k 0)
    let u ← fsub w0 t
    let v ← fadd u (tapAt line k 1)
    fmul (d.gainAt k) v
  | .bandPass => do
    let t ← fmul f2 (tapAt line k 1)
    let u ← fsub w0 t
    let v ← fadd u (tapAt line k 3)
    fmul (d.gainAt k) v

/-- The delay-line update (R126): entries `nc-1` down to 1 take their left neighbour, then entry 0 takes `w0`. -/
def shiftIn (line : WordMem) (k nc : Nat) (w0 : Word) : WordMem :=
  ((List.range (nc - 1)).reverse.foldl (fun m j => m.write (4 * k + (j + 1)) (tapAt m k j)) line).write (4 * k) w0

/-- One stage: its output and the delay lines after it (R121). -/
def engineStage (d : Design) (k : Nat) (xl : Word × WordMem) : Draw (Word × WordMem) := do
  let w0 ← accumulate d xl.2 k xl.1
  let y ← stageOutput d xl.2 k w0
  pure (y, shiftIn xl.2 k d.numCoef.toNat w0)

/-- `ENGINE_APPLY(x)` (R121): the identity in Bypass (R122); otherwise stage 0 first, each output the next stage's
input (R123). The result is the output and the delay lines after the sample. -/
def engineApply (d : Design) (line : WordMem) (x : Word) : Draw (Word × WordMem) :=
  if d.mode = .bypass then pure (x, line)
  else (List.range d.numStages.toNat).foldlM (fun xl k => engineStage d k xl) (x, line)

end Sys2Proof.Machine
end

