-- ==== Sys2Proof/Machine/Analyzer.lean ====
section
/-! DEFINITION. The response analyzer: impulse capture, peak search, radix-2 FFT, dB magnitudes and normalization
(42_analysis.md R141 to R155). -/

namespace Sys2Proof.Machine

/-! ## Impulse capture and peak (R144, R146) -/

/-- The impulse sequence: 1.0 at sample 0, `+0.0` after it (R144). -/
def impulse (n : Nat) : Word := if n = 0 then f1 else f0

/-- Drive the engine from zeroed delay lines with `nfft` samples of the impulse; output `n` goes to `IR[n]` (R143,
R144). The delay lines it leaves and the capture. -/
def driveImpulse (d : Design) (nfft : Nat) (ir : WordMem) : Draw (WordMem × WordMem) :=
  (List.range nfft).foldlM (fun (li : WordMem × WordMem) n => do
    let r ← engineApply d li.1 (impulse n)
    pure (r.2, li.2.write n r.1)) (WordMem.zeros, ir)

/-- One candidate of the peak search: it wins only by a strict IEEE `>` (R146). -/
def peakStep (ir : WordMem) (best : Word × Nat) (n : Nat) : Word × Nat :=
  if fgt (fabs (ir.read n)) best.1 then (fabs (ir.read n), n) else best

/-- `PEAK(Nfft)`: the index of the sample of largest magnitude, the first on a tie (R146). -/
def peak (ir : WordMem) (nfft : Nat) : Nat :=
  ((List.range nfft).foldl (fun b n => if n = 0 then b else peakStep ir b n) (fabs (ir.read 0), 0)).2

/-! ## The FFT (R147 to R151) -/

/-- `BITREV(n, l)`: the `l` low bits of `n` in reverse order (R148). -/
def bitrev : Nat → Nat → Nat
  | _, 0 => 0
  | n, l + 1 => n % 2 * 2 ^ l + bitrev (n / 2) l

/-- The bit-reversed load: `RE[BITREV(n, l)] <- IR[n]`, `IM[n] <- +0.0` (R147, R148). -/
def fftLoad (ir : WordMem) (l : Nat) (z : WordMem × WordMem) : WordMem × WordMem :=
  ((List.range (2 ^ l)).foldl (fun re n => re.write (bitrev n l) (ir.read n)) z.1,
   (List.range (2 ^ l)).foldl (fun im n => im.write n f0) z.2)

/-- `BUTTERFLY(p, q, wr, wi)` on `(RE, IM)` (R151). -/
def butterfly (p q : Nat) (wr wi : Word) (z : WordMem × WordMem) : Draw (WordMem × WordMem) := do
  let xr := z.1.read q
  let xi := z.2.read q
  let a ← fmul wr xr
  let b ← fmul wi xi
  let tr ← fsub a b
  let c ← fmul wr xi
  let e ← fmul wi xr
  let ti ← fadd c e
  let ur := z.1.read p
  let ui := z.2.read p
  let rq ← fsub ur tr
  let iq ← fsub ui ti
  let rp ← fadd ur tr
  let ip ← fadd ui ti
  pure ((z.1.write q rq).write p rp, (z.2.write q iq).write p ip)

/-- The butterflies of one twiddle: group bases `j, j+m, j+2m, ...` below `2^l`, with the twiddle
`TW(j, m) = TWROM[j·(NFFT_MAX/m)]` (R147, R150). -/
def fftTwiddle (p : Config) (l m j : Nat) (z : WordMem × WordMem) : Draw (WordMem × WordMem) :=
  let t := j * (p.nfftMax / m)
  (List.range (2 ^ l / m)).foldlM (fun z g => butterfly (j + g * m) (j + g * m + m / 2) (twRe p t) (twIm p t) z) z

/-- Stage `s` of the FFT: groups of `m = 2^s`, pair distance `m/2`, twiddles `j` in `0..m/2-1` (R149). -/
def fftStage (p : Config) (l s : Nat) (z : WordMem × WordMem) : Draw (WordMem × WordMem) :=
  let m := 2 ^ s
  (List.range (m / 2)).foldlM (fun z j => fftTwiddle p l m j z) z

/-- `FFT_CORE(l)`: from `IR` into `(RE, IM)`, stages 1 to `l` in order (R147). -/
def fftCore (p : Config) (ir : WordMem) (l : Nat) (z : WordMem × WordMem) : Draw (WordMem × WordMem) :=
  (List.range l).foldlM (fun z s => fftStage p l (s + 1) z) (fftLoad ir l z)

/-- Run the FFT on the state's own buffers (R157). -/
def runFft (l : Nat) (s : State) : State :=
  let r := runDraw (fftCore s.par s.ir l (s.re, s.im)) s.draws
  { s with re := r.1.1, im := r.1.2, draws := r.2 }

/-! ## Magnitude and normalization (R153, R154) -/

/-- One bin of `DB`: `10·LOG10(re² + im²)`, `-250.0` where the computed sum of squares is zero (R153). -/
def dbBin (re im : Word) : Draw Word := do
  let a ← fmul re re
  let b ← fmul im im
  let p ← fadd a b
  if feq p f0 then pure fFloor
  else do
    let g ← flog10 p
    fmul f10 g

/-- `DB(h)` (R153). -/
def dbStep (re im : WordMem) (h : Nat) (resp : WordMem) : Draw WordMem :=
  (List.range h).foldlM (fun r j => do
    let v ← dbBin (re.read j) (im.read j)
    pure (r.write j v)) resp

/-- The maximum of the first `h` bins by strict IEEE `>` from bin 0 (R154). -/
def respMax (resp : WordMem) (h : Nat) : Word :=
  (List.range h).foldl (fun mx j => if j = 0 then mx else if fgt (resp.read j) mx then resp.read j else mx) (resp.read 0)

/-- `NORMALIZE(h)`: the maximum is subtracted from every bin (R154). -/
def normalizeResp (h : Nat) (resp : WordMem) : Draw WordMem :=
  let mx := respMax resp h
  (List.range h).foldlM (fun r j => do
    let v ← fsub (r.read j) mx
    pure (r.write j v)) resp

/-- The dB curve of the FFT buffer: `DB` then `NORMALIZE` (R153, R154). -/
def dbCurve (re im : WordMem) (h : Nat) (resp : WordMem) : Draw WordMem := do
  let r ← dbStep re im h resp
  normalizeResp h r

/-! ## The procedure (R141) -/

/-- The result registers of a spectrum: `RESPLEN <- h`, `RESP_VALID <- 1` (R155). -/
def setResp (h : Nat) (resp : WordMem) (s : State) : State :=
  { s with resp := resp, respLen := BitVec.ofNat 32 h, respValid := true }

/-- `DELAY <- d`, `DELAY_VALID <- 1` (R155). -/
def setDelay (d : Nat) (s : State) : State := { s with delay := BitVec.ofNat 32 d, delayValid := true }

/-- Steps 1 to 3 of the procedure: the delay lines are saved, the engine is driven with the impulse from zeroed delay
lines, and the saved words are put back (R143 to R145). `SNAP` is the local `snap` (10_state.md R35, log entry 6). -/
def capture (nfft : Nat) (s : State) : State :=
  let snap := s.delayLine
  let r := runDraw (driveImpulse s.design nfft s.ir) s.draws
  let driven : State := { s with delayLine := r.1.1, ir := r.1.2, draws := r.2 }
  { driven with delayLine := snap }

/-- Step 5: FFT, magnitudes, normalization and the result registers (R141, R147 to R155). -/
def addSpectrum (l : Nat) (s : State) : State :=
  let h := 2 ^ l / 2
  let t := runFft l s
  let r := runDraw (dbCurve t.re t.im h t.resp) t.draws
  setResp h r.1 { t with draws := r.2 }

/-- `ANALYZE_CORE(l, cs)` (R141, Bypass R142); the filterDelay it returns is the value it leaves in `DELAY`. -/
def analyzeCore (l : Nat) (cs : Bool) (s : State) : State :=
  let nfft := 2 ^ l
  let h := nfft / 2
  if s.design.mode = .bypass then
    let t := setDelay 0 s
    if cs then setResp h (t.resp.fill h fun _ => f0) t else t
  else
    let t := capture nfft s
    let u := setDelay (peak t.ir nfft) t
    if cs then addSpectrum l u else u

/-- The filterDelay as a result word (R72, R140). -/
def delayWord (s : State) : Word := s.delay.zeroExtend 64

/-- The lengths the buffers hold: `1 ≤ l ≤ LOG2_NFFT_MAX` (R140, R157). -/
def lengthInRange (p : Config) (l : Nat) : Bool := decide (1 ≤ l) && decide (l ≤ p.log2NfftMax)

/-- The exponent of `nextpow2(n)`: the least `e` with `n ≤ 2^e` (00_scope.md R19). -/
def ceilLog2 (n : Nat) : Nat := if n ≤ 1 then 0 else Nat.log2 (n - 1) + 1

/-- `nextpow2(n)` (00_scope.md R19). -/
def nextPow2 (n : Nat) : Nat := 2 ^ ceilLog2 n

end Sys2Proof.Machine
end

