-- ==== Sys2Proof/Machine/Analysis.lean ====
section
/-! DEFINITION. The meanings of the analysis commands ANALYZE, GETDELAY, FREQRESP, FFTRUN (42_analysis.md R140, R156 to
R158). -/

namespace Sys2Proof.Machine

/-- The state after ANALYZE_CORE answered with the delay it found. -/
def respondDelay (s : State) : State := respondOk (delayWord s) s

/-- ANALYZE (R140): it always recomputes. -/
def execAnalyze (l : Nat) (cs : Bool) (s : State) : Host.Outcome State Fault Refusal :=
  .next (if lengthInRange s.par l then respondDelay (analyzeCore l cs s) else raiseErr .range s)

/-- GETDELAY (R156): the cached delay if it is valid, else a delay-only analysis of the default length. -/
def execGetdelay (s : State) : Host.Outcome State Fault Refusal :=
  .next (respondDelay (if s.delayValid then s else analyzeCore s.par.log2NfftDefault false s))

/-- FREQRESP (R158): `numPoints` rounded up to a power of two `P` (0 counts as 1), a spectrum of `2·P` samples; the
result is `P`. -/
def execFreqresp (np : Nat) (s : State) : Host.Outcome State Fault Refusal :=
  let e := ceilLog2 (max np 1)
  let l := e + 1
  .next (if s.par.log2NfftMax < l then raiseErr .range s
    else respondOk (BitVec.ofNat 64 (2 ^ e)) (analyzeCore l true s))

/-- FFTRUN (R157): the FFT alone on whatever `IR` holds. -/
def execFftrun (l : Nat) (s : State) : Host.Outcome State Fault Refusal :=
  .next (if lengthInRange s.par l then respondOk 0 (runFft l s) else raiseErr .range s)

end Sys2Proof.Machine
end

