-- ==== Sys2Proof/Machine/Designer.lean ====
section
/-! DEFINITION. The designer: mode derivation, stage count and the Butterworth coefficient generator
(40_config_design.md R97 to R106). A function of the six configuration registers and the parameter
`SMAX` alone (R97, R100). -/

namespace Sys2Proof.Machine

/-- `STAGES(mode, N)` (R99). -/
def stagesOf (m : Mode) (n : Nat) : Nat :=
  match m with
  | .bypass => 0
  | .lowPass => (n + 1) / 2
  | .highPass => (n + 1) / 2
  | .bandPass => (n + 3) / 4

/-- `NUMCOEF_OF` (R101). -/
def numCoefOf : Mode → BitVec 3
  | .bypass => 0
  | .lowPass => 2
  | .highPass => 2
  | .bandPass => 4

/-- The mode the enables ask for, if its inequality holds, given `half = FS/2` (R98). A violation is Bypass, never
another mode. -/
def modeOf (c : FilterConfig) (half : Word) : Mode :=
  if c.lpen && c.hpen then
    (if flt f0 c.fhc && flt c.fhc c.flc && flt c.flc half then .bandPass else .bypass)
  else if c.lpen then (if flt f0 c.flc && fle c.flc half then .lowPass else .bypass)
  else if c.hpen then (if flt f0 c.fhc && fle c.fhc half then .highPass else .bypass)
  else .bypass

/-- The mode and stage count within the capacity (R99, R100): past `SMAX` stages the mode is Bypass. -/
def withCapacity (p : Config) (m : Mode) (n : Nat) : Mode × Nat :=
  if p.smax < stagesOf m n then (.bypass, 0) else (m, stagesOf m n)

/-- `DERIVE_MODE()` (R98 to R100). -/
def deriveMode (p : Config) (c : FilterConfig) : Draw (Mode × Nat) :=
  let n := c.order.toNat
  if n < 1 then pure (.bypass, 0)
  else do
    let half ← fmul c.fs fHalf
    pure (withCapacity p (modeOf c half) n)

/-- `RK(k, S)`, the pole-angle sine (R102). -/
def poleSine (k stages : Nat) : Draw Word := do
  let p ← fmul fPi (int2f (2 * k + 1))
  let q ← fdiv p (int2f (4 * stages))
  fsin q

/-- Write one stage's gain and coefficients: `g[k]` and `c[k][0..]`. -/
def writeStage (gc : WordMem × WordMem) (k : Nat) (g : Word) (cs : List Word) : WordMem × WordMem :=
  (gc.1.write k g, (List.range cs.length).foldl (fun c j => c.write (4 * k + j) (cs.getD j f0)) gc.2)

/-- `a2 + 2·a·r + 1` with `ta = 2·a`, in the order R103 and R104 write it. -/
def stageDenominator (a2 ta r : Word) : Draw Word := do
  let t ← fmul ta r
  let u ← fadd a2 t
  fadd u f1

/-- `-(a2 - 2·a·r + 1)/s` with `ta = 2·a` (R103, R104). -/
def stageLastCoef (a2 ta r s : Word) : Draw Word := do
  let t ← fmul ta r
  let u ← fsub a2 t
  let v ← fadd u f1
  let w ← fdiv v s
  pure (fneg w)

/-- Stage `k` of the low-pass and high-pass designs: gain and two coefficients (R103). -/
def lpHpStage (lowPass : Bool) (a2 ta : Word) (stages k : Nat) : Draw (Word × List Word) := do
  let r ← poleSine k stages
  let s ← stageDenominator a2 ta r
  let g ← if lowPass then fdiv a2 s else fdiv f1 s
  let d ← fsub f1 a2
  let e ← fmul f2 d
  let c0 ← fdiv e s
  let c1 ← stageLastCoef a2 ta r s
  pure (g, [c0, c1])

/-- `DESIGN_LPHP` (R103): `F1` is `FLC` for the low-pass and `FHC` for the high-pass. -/
def designLpHp (lowPass : Bool) (c : FilterConfig) (stages : Nat) : Draw (WordMem × WordMem) := do
  let p ← fmul fPi (if lowPass then c.flc else c.fhc)
  let q ← fdiv p c.fs
  let a ← ftan q
  let a2 ← fmul a a
  let ta ← fmul f2 a
  (List.range stages).foldlM (fun gc k => do
    let st ← lpHpStage lowPass a2 ta stages k
    pure (writeStage gc k st.1 st.2)) (WordMem.zeros, WordMem.zeros)

/-- Stage `k` of the band-pass design: gain and four coefficients (R104). -/
def bpStage (fs a2 fa b b2 tb : Word) (stages k : Nat) : Draw (Word × List Word) := do
  let r ← poleSine k stages
  let s ← stageDenominator b2 tb r
  let g ← fdiv b2 fs
  let br ← fmul b r
  let u0 ← fadd f1 br
  let v0 ← fmul fa u0
  let c0 ← fdiv v0 s
  let t1 ← fmul f2 a2
  let u1 ← fsub b2 t1
  let v1 ← fsub u1 f1
  let w1 ← fmul f2 v1
  let c1 ← fdiv w1 s
  let u2 ← fsub f1 br
  let v2 ← fmul fa u2
  let c2 ← fdiv v2 s
  let c3 ← stageLastCoef b2 tb r s
  pure (g, [c0, c1, c2, c3])

/-- `DESIGN_BP` (R104): `F1 = FHC` is the lower band edge, `F2 = FLC` the upper. -/
def designBp (c : FilterConfig) (stages : Nat) : Draw (WordMem × WordMem) := do
  let sum ← fadd c.fhc c.flc
  let psum ← fmul fPi sum
  let tp ← fdiv psum c.fs
  let dif ← fsub c.flc c.fhc
  let pdif ← fmul fPi dif
  let tm ← fdiv pdif c.fs
  let ctp ← fcos tp
  let ctm ← fcos tm
  let a ← fdiv ctp ctm
  let a2 ← fmul a a
  let b ← ftan tm
  let b2 ← fmul b b
  let tb ← fmul f2 b
  let fa ← fmul f4 a
  (List.range stages).foldlM (fun gc k => do
    let st ← bpStage c.fs a2 fa b b2 tb stages k
    pure (writeStage gc k st.1 st.2)) (WordMem.zeros, WordMem.zeros)

/-- The gains and coefficients of a mode (R97); everything not assigned is `+0.0` (R105). -/
def designCoefs (m : Mode) (c : FilterConfig) (stages : Nat) : Draw (WordMem × WordMem) :=
  match m with
  | .bypass => pure (WordMem.zeros, WordMem.zeros)
  | .lowPass => designLpHp true c stages
  | .highPass => designLpHp false c stages
  | .bandPass => designBp c stages

/-- The design of a configuration, in a block with parameters `p` (R97). -/
def designOf (p : Config) (c : FilterConfig) : Draw Design := do
  let ms ← deriveMode p c
  let gc ← designCoefs ms.1 c ms.2
  pure ⟨ms.1, BitVec.ofNat 8 ms.2, numCoefOf ms.1, gc.1, gc.2⟩

/-- `REDESIGN()` (R97, R106): the new design replaces the old whole, `STATE` is zeroed and both cached results are
invalidated; nothing else is touched. -/
def redesign (s : State) : State :=
  let r := runDraw (designOf s.par s.cfg) s.draws
  { s with
    design := r.1
    delayLine := WordMem.zeros
    delayValid := false
    respValid := false
    draws := r.2 }

/-- `SETTER(REG, v)` (R90): when the register already holds the value nothing changes; otherwise it is stored and the
filter redesigned. -/
def setter (same : Bool) (cfg' : FilterConfig) (s : State) : State :=
  if same then s else redesign { s with cfg := cfg' }

end Sys2Proof.Machine
end

