-- ==== Sys2Proof/Machine/Configuration.lean ====
section
/-! DEFINITION. The meanings of the configuration commands SETLP, SETHP, SETFLC, SETFHC, SETFS, SETORD
(40_config_design.md R91 to R96): each is SETTER on its own register and answers `R = 0`. -/

namespace Sys2Proof.Machine

/-- SETLP (R91). -/
def execSetlp (en : Bool) (s : State) : Host.Outcome State Fault Refusal :=
  .next (respondOk 0 (setter (s.cfg.lpen == en) { s.cfg with lpen := en } s))

/-- SETHP (R92). -/
def execSethp (en : Bool) (s : State) : Host.Outcome State Fault Refusal :=
  .next (respondOk 0 (setter (s.cfg.hpen == en) { s.cfg with hpen := en } s))

/-- SETFLC (R93): any 64-bit pattern is stored. -/
def execSetflc (d : Word) (s : State) : Host.Outcome State Fault Refusal :=
  .next (respondOk 0 (setter (fbitsEq s.cfg.flc d) { s.cfg with flc := d } s))

/-- SETFHC (R94). -/
def execSetfhc (d : Word) (s : State) : Host.Outcome State Fault Refusal :=
  .next (respondOk 0 (setter (fbitsEq s.cfg.fhc d) { s.cfg with fhc := d } s))

/-- SETFS (R95). -/
def execSetfs (d : Word) (s : State) : Host.Outcome State Fault Refusal :=
  .next (respondOk 0 (setter (fbitsEq s.cfg.fs d) { s.cfg with fs := d } s))

/-- SETORD (R96): any 16-bit value is stored. -/
def execSetord (n : Nat) (s : State) : Host.Outcome State Fault Refusal :=
  let v := BitVec.ofNat 16 n
  .next (respondOk 0 (setter (s.cfg.order == v) { s.cfg with order := v } s))

end Sys2Proof.Machine
end

