-- ==== Sys2Proof/Machine/Streaming.lean ====
section
/-! DEFINITION. The meanings of the streaming commands APPLY and RESET (41_engine.md R120, R127). -/

namespace Sys2Proof.Machine

/-- APPLY (R120): ENGINE_APPLY on the live delay lines; the result word is the output sample. -/
def execApply (x : Word) (s : State) : Host.Outcome State Fault Refusal :=
  let r := runDraw (engineApply s.design s.delayLine x) s.draws
  .next (respondOk r.1.1 { s with delayLine := r.1.2, draws := r.2 })

/-- RESET (R127): every delay line zeroed, nothing else touched. -/
def execReset (s : State) : Host.Outcome State Fault Refusal :=
  .next (respondOk 0 { s with delayLine := WordMem.zeros })

end Sys2Proof.Machine
end

