-- ==== Sys2Proof/Machine/Dispatch.lean ====
section
/-! DEFINITION. One arm per instruction, each one call of its meaning. -/

namespace Sys2Proof.Machine

def exec (i : Instr) (s : State) : Host.Outcome State Fault Refusal :=
  match i with
  | .nop => Sys2Proof.Machine.execNop s
  | .setlp en => Sys2Proof.Machine.execSetlp en s
  | .sethp en => Sys2Proof.Machine.execSethp en s
  | .setflc d => Sys2Proof.Machine.execSetflc d s
  | .setfhc d => Sys2Proof.Machine.execSetfhc d s
  | .setfs d => Sys2Proof.Machine.execSetfs d s
  | .setord n => Sys2Proof.Machine.execSetord n s
  | .apply x => Sys2Proof.Machine.execApply x s
  | .reset => Sys2Proof.Machine.execReset s
  | .analyze l cs => Sys2Proof.Machine.execAnalyze l cs s
  | .getdelay => Sys2Proof.Machine.execGetdelay s
  | .freqresp np => Sys2Proof.Machine.execFreqresp np s
  | .fftrun l => Sys2Proof.Machine.execFftrun l s
  | .getord => Sys2Proof.Machine.execGetord s
  | .rdcsr num => Sys2Proof.Machine.execRdcsr num s
  | .rdcoef idx => Sys2Proof.Machine.execRdcoef idx s
  | .rdstate idx => Sys2Proof.Machine.execRdstate idx s
  | .rdresp idx => Sys2Proof.Machine.execRdresp idx s
  | .rdir idx => Sys2Proof.Machine.execRdir idx s
  | .rdre idx => Sys2Proof.Machine.execRdre idx s
  | .rdim idx => Sys2Proof.Machine.execRdim idx s
  | .rdtw idx => Sys2Proof.Machine.execRdtw idx s
  | .wrir idx d => Sys2Proof.Machine.execWrir idx d s
  | .clrerr => Sys2Proof.Machine.execClrerr s

end Sys2Proof.Machine
end

