-- ==== Sys2Proof/Machine/Step.lean ====
section
/-! DEFINITION. One step: the host's next move. A command is accepted once the response before it has been transferred
(30_encoding.md R73), decoded and executed to its own response (R72, 20_memory.md R55); a word that is no command ends
with its error status (R77, R78); `rst` resets (R220); with no move the block is idle and keeps all state
(60_exceptions.md R209). Log entry 4. -/

namespace Sys2Proof.Machine

def step (s : State) : Host.Outcome State Fault Refusal :=
  match nextEvent s with
  | none => .next s
  | some (.reset, t) => .next (hardReset t)
  | some (.takeResponse, t) => .next (takeResponse t)
  | some (.command c, t) =>
    match decode c with
    | .ok i => exec i (takeResponse t)
    | .error e => .next (raiseErr (decodeErrKind e) (takeResponse t))

/-- `s` with the command numbered as the opcode table numbers it presented next on the command port. Log entries 5, 9. -/
def State.withFetchWord (s : State) (nbits w : Nat) : State :=
  pushEvent (.command (commandOfTableWord nbits w)) s

end Sys2Proof.Machine
end

