-- ==== Sys2Proof/Safety.lean ====
section
/-! DEFINITION. The terms claims are stated in: the invariants the spec says hold outside a command (10_state.md R28,
R37), the possible results of a computation that may draw NaNs, rounding to nearest even (00_scope.md R12), and the
properties of the elementary functions the spec offers by name (R14). Nothing here is assumed by the machine. -/

namespace Sys2Proof.Machine

/-! ## The invariant (R28, R37) -/

/-- The relations between `MODE`, `NUMSTAGES` and `NUMCOEF`, in a block with `smax` stages (R28). -/
structure Design.Shape (smax : Nat) (d : Design) : Prop where
  stages_zero_iff : d.mode = .bypass ↔ d.numStages = 0
  coef_zero_iff : d.mode = .bypass ↔ d.numCoef = 0
  coef_two_iff : d.numCoef = 2 ↔ d.mode = .lowPass ∨ d.mode = .highPass
  coef_four_iff : d.numCoef = 4 ↔ d.mode = .bandPass
  stages_le : d.numStages.toNat ≤ smax

/-- A word file is canonical and lists nothing outside its space (20_memory.md R50, log entry 7). -/
def FileOk (size : Nat) (m : WordMem) : Prop := m.wf = true ∧ m.below size = true

/-- A tap position outside the active shape: stage `k` or position `j` (R21, R37). -/
def InactiveTap (d : Design) (k j : Nat) : Prop := j < 4 ∧ (d.numStages.toNat ≤ k ∨ d.numCoef.toNat ≤ j)

/-- What holds outside a command (R37), the canonical form of every word file, and parameters in their legal ranges
(00_scope.md R8). -/
structure Inv (s : State) : Prop where
  taps_zero : ∀ k j, InactiveTap s.design k j → tapAt s.delayLine k j = f0
  gain_zero : ∀ k, s.design.numStages.toNat ≤ k → s.design.gainAt k = f0
  coef_zero : ∀ k j, InactiveTap s.design k j → s.design.coefAt k j = f0
  shape : s.design.Shape s.par.smax
  respLen_ok : s.respValid = true →
    1 ≤ s.respLen.toNat ∧ s.respLen.toNat ≤ s.par.nfftMax / 2 ∧ ∃ e, s.respLen.toNat = 2 ^ e
  delay_lt : s.delayValid = true → s.delay.toNat < s.par.nfftMax
  errCode_zero : s.err = false → s.errCode = 0
  delayLine_ok : FileOk (4 * s.par.smax) s.delayLine
  gain_ok : FileOk s.par.smax s.design.gain
  coef_ok : FileOk (4 * s.par.smax) s.design.coef
  ir_ok : FileOk s.par.nfftMax s.ir
  re_ok : FileOk s.par.nfftMax s.re
  im_ok : FileOk s.par.nfftMax s.im
  resp_ok : FileOk (s.par.nfftMax / 2) s.resp
  par_legal : s.par.legal = true

/-- The design in force is one REDESIGN gives for the configuration in force, for some draws (40_config_design.md R97,
R108). -/
def DesignCurrent (s : State) : Prop := ∃ n, (runDraw (designOf s.par s.cfg) n).1 = s.design

/-- The six setter commands, the only ones that redesign (10_state.md R23). -/
def isSetter : Instr → Bool
  | .nop => false
  | .setlp _ => true
  | .sethp _ => true
  | .setflc _ => true
  | .setfhc _ => true
  | .setfs _ => true
  | .setord _ => true
  | .apply _ => false
  | .reset => false
  | .analyze _ _ => false
  | .getdelay => false
  | .freqresp _ => false
  | .fftrun _ => false
  | .getord => false
  | .rdcsr _ => false
  | .rdcoef _ => false
  | .rdstate _ => false
  | .rdresp _ => false
  | .rdir _ => false
  | .rdre _ => false
  | .rdim _ => false
  | .rdtw _ => false
  | .wrir _ _ => false
  | .clrerr => false

/-! ## Results of computations that may draw (R13) -/

/-- `w` is a result the computation may give: its only one where no NaN is produced, and at a NaN any that a draw
gives. -/
def Yields {α : Type} (x : Draw α) (w : α) : Prop := ∃ n, (runDraw x n).1 = w

/-- The computation gives `w` and draws nothing, whatever the counter. -/
def Gives {α : Type} (x : Draw α) (w : α) : Prop := ∀ n, runDraw x n = (w, n)

/-! ## The design formulas as relations (40_config_design.md R102 to R104) -/

/-- `r` is `RK(k, S)` (R102). -/
def IsPoleSine (k stages : Nat) (r : Word) : Prop :=
  ∃ p q, Yields (fmul fPi (int2f (2 * k + 1))) p ∧ Yields (fdiv p (int2f (4 * stages))) q ∧ Yields (fsin q) r

/-- `s` is `(x2 + tx·r) + 1` (R103, R104). -/
def IsDenominator (x2 tx r s : Word) : Prop :=
  ∃ t u, Yields (fmul tx r) t ∧ Yields (fadd x2 t) u ∧ Yields (fadd u f1) s

/-- `c` is `-(((x2 - tx·r) + 1)/s)`, the last coefficient of a stage (R103, R104). -/
def IsLastCoef (x2 tx r s c : Word) : Prop :=
  ∃ t u v w, Yields (fmul tx r) t ∧ Yields (fsub x2 t) u ∧ Yields (fadd u f1) v ∧ Yields (fdiv v s) w ∧ c = fneg w

/-- `a = tan(π·F1/Fs)`, `a2 = a·a`, `ta = 2·a` of the low-pass and high-pass designs (R103). -/
def IsPrewarp (f fs a a2 ta : Word) : Prop :=
  ∃ p q, Yields (fmul fPi f) p ∧ Yields (fdiv p fs) q ∧ Yields (ftan q) a ∧ Yields (fmul a a) a2 ∧
    Yields (fmul f2 a) ta

/-- The quantities all stages of the band-pass design share (R104). -/
def IsBandPrewarp (c : FilterConfig) (a a2 fa b b2 tb : Word) : Prop :=
  ∃ sum psum tp dif pdif tm ctp ctm,
    Yields (fadd c.fhc c.flc) sum ∧ Yields (fmul fPi sum) psum ∧ Yields (fdiv psum c.fs) tp ∧
    Yields (fsub c.flc c.fhc) dif ∧ Yields (fmul fPi dif) pdif ∧ Yields (fdiv pdif c.fs) tm ∧
    Yields (fcos tp) ctp ∧ Yields (fcos tm) ctm ∧ Yields (fdiv ctp ctm) a ∧ Yields (fmul a a) a2 ∧
    Yields (ftan tm) b ∧ Yields (fmul b b) b2 ∧ Yields (fmul f2 b) tb ∧ Yields (fmul f4 a) fa

/-! ## Rounding (R12) -/

/-- The word is the binary64 number nearest to `num / den` units of `2^-1074`, and on a tie the even one. -/
structure NearestEven (num : Int) (den : Nat) (w : Word) : Prop where
  finite : isFinite w = true
  nearest : ∀ v, isFinite v = true → |num - signedUnits w * den| ≤ |num - signedUnits v * den|
  tie_even : ∀ v, isFinite v = true → |num - signedUnits v * den| = |num - signedUnits w * den| →
    signedUnits v ≠ signedUnits w → w.toNat % 2 = 0

/-- Halfway between the largest finite magnitude and the next power of two, in units of `2^-1074`: from there on a
result overflows to infinity. -/
def overflowUnits : Nat := (2 ^ 54 - 1) * 2 ^ 2044

/-- `w` is `num / den` units rounded as R12 says: to nearest even, or to the infinity of its sign on overflow. -/
def RoundsTo (num : Int) (den : Nat) (w : Word) : Prop :=
  if num.natAbs < overflowUnits * den then NearestEven num den w
  else w = ofSignMag (decide (num < 0)) infBits

/-! ## The named properties of the elementary functions (R14) -/

/-- `f` returns the correctly rounded value of the real function `g` at every finite operand where `ok` holds of its
units: the property P1 offers of each function. -/
def CorrectlyRounded (f : Word → Word) (g : ℝ → ℝ) (ok : Int → Prop) : Prop :=
  ∀ x, isFinite x = true → ok (signedUnits x) →
    isFinite (f x) = true ∧
    (∀ v, isFinite v = true →
      |g (signedUnits x / 2 ^ 1074) - signedUnits (f x) / 2 ^ 1074| ≤
        |g (signedUnits x / 2 ^ 1074) - signedUnits v / 2 ^ 1074|) ∧
    (∀ v, isFinite v = true →
      |g (signedUnits x / 2 ^ 1074) - signedUnits v / 2 ^ 1074| =
        |g (signedUnits x / 2 ^ 1074) - signedUnits (f x) / 2 ^ 1074| →
      signedUnits v ≠ signedUnits (f x) → (f x).toNat % 2 = 0)

/-- P1 (R14): each of the four functions is correctly rounded. -/
def ElementaryP1 : Prop :=
  CorrectlyRounded Config.tan Real.tan (fun _ => True) ∧
  CorrectlyRounded Config.sin Real.sin (fun _ => True) ∧
  CorrectlyRounded Config.cos Real.cos (fun _ => True) ∧
  CorrectlyRounded Config.log10 (fun x => Real.logb 10 x) (fun u => 0 < u)

/-- P2 (R14): `SIN`, `COS` lie in [-1, 1]; a NaN comes only from a NaN or infinite operand (`TAN`, `SIN`, `COS`), or a
NaN or negative operand (`LOG10`); `LOG10(+inf) = +inf`. -/
def ElementaryP2 : Prop :=
  (∀ x, isFinite x = true → isNaN (Config.tan x) = false) ∧
  (∀ x, isFinite x = true → fle (fabs (Config.sin x)) f1 = true) ∧
  (∀ x, isFinite x = true → fle (fabs (Config.cos x)) f1 = true) ∧
  (∀ x, isNaN x = false → flt x f0 = false → isNaN (Config.log10 x) = false) ∧
  Config.log10 (ofSignMag false infBits) = ofSignMag false infBits

end Sys2Proof.Machine
end

