-- ==== Sys2Proof/Certificates/Slice0/Obligations.lean ====
section
/-! DEFINITION. The statements for the provers. Each says which rules of the spec it formalises. Words written `Yields x w`
are the possible results of an operation: its one result, or at a NaN any that a draw gives (00_scope.md R13). Statements over a
state hold for every value of its parameters `par` (00_scope.md R8), legal ones where a hypothesis says so. -/

open Sys2Proof Sys2Proof.Machine

/-! ## Encoding and decoding (30_encoding.md) -/

/-- Words written out from the formats of R74, R75 and the opcode map of R76, one or more of each opcode group. -/
def Obligations.DecodeSampleWords : Prop :=
  decode ⟨0x00000000, 0⟩ = .ok .nop ∧
  decode ⟨0x01000001, 0⟩ = .ok (.setlp true) ∧
  decode ⟨0x03000000, 0x3FD0000000000000⟩ = .ok (.setflc 0x3FD0000000000000) ∧
  decode ⟨0x06000004, 0⟩ = .ok (.setord 4) ∧
  decode ⟨0x10000000, 0x3FF0000000000000⟩ = .ok (.apply 0x3FF0000000000000) ∧
  decode ⟨0x20000008, 0⟩ = .ok (.analyze 8 false) ∧
  decode ⟨0x20000108, 0⟩ = .ok (.analyze 8 true) ∧
  decode ⟨0x22000064, 0⟩ = .ok (.freqresp 100) ∧
  decode ⟨0x3200000A, 0⟩ = .ok (.rdcoef 10) ∧
  decode ⟨0x39000003, 0xC000000000000000⟩ = .ok (.wrir 3 0xC000000000000000)

/-- Decoding the words of a well-formed instruction gives it back, every field at every value it may hold (R74 to
R76). -/
def Obligations.DecodeOfEncode : Prop :=
  ∀ i : Instr, i.wellFormed = true → decode (encode i) = .ok i

/-- The other direction: what decodes is well formed and encodes to the very word, whose operand decides nothing else
(R75, R76, R79). -/
def Obligations.EncodeOfDecode : Prop :=
  ∀ (c : Command) (i : Instr), decode c = .ok i →
    i.wellFormed = true ∧ (encode i).word = c.word ∧ decode ⟨c.word, (encode i).data⟩ = .ok i

/-- The decoder against the match and mask columns of the opcode map (R76 to R78): it accepts exactly the words that are
instances of a row, of the row of the instruction it answers, and names the reason of every other word. -/
def Obligations.DecoderMatchesOpcodeMap : Prop :=
  ∀ c : Command,
    (∀ i, decode c = .ok i → i.row.accepts c.word = true) ∧
    ((∃ i, decode c = .ok i) ↔ wellFormedWord c.word = true) ∧
    (decode c = .error .illegalOpcode ↔ knownOpcode c.word = false) ∧
    (decode c = .error .reservedBit ↔ knownOpcode c.word = true ∧ wellFormedWord c.word = false)

/-! ## The step -/

/-- A command word that decodes is executed, and all the step does beside is to take it from the host, the response
before it having been transferred (R71 to R73; log entry 4). -/
def Obligations.StepRunsDecodedInstruction : Prop :=
  ∀ (s : State) (c : Command) (rest : List HostEvent) (i : Instr),
    s.inbox = .command c :: rest → decode c = .ok i → step s = exec i { s with inbox := rest, rsp := none }

/-- R77: an opcode that is not in the map changes nothing of the block but `ERR` and `ERRCODE` (R202) and answers `ERR_OPC`,
code `0x01` (R201), with `R = 0`. That the step takes the command from the head of `inbox`, and that its response replaces
one still standing, are the model's form of the ports (log entry 4). -/
def Obligations.UnknownOpcodeAnswersErrOpc : Prop :=
  ∀ (s : State) (c : Command) (rest : List HostEvent),
    s.inbox = .command c :: rest → knownOpcode c.word = false →
    step s = .next { s with
      inbox := rest
      err := true
      errCode := if s.err then s.errCode else 0x01
      rsp := some ⟨.err .opc, 0⟩ }

/-- R78: a known opcode with a reserved bit set changes nothing of the block but `ERR` and `ERRCODE` (R202) and answers
`ERR_RSV`, code `0x02` (R201), with `R = 0`. That the step takes the command from the head of `inbox`, and that its response
replaces one still standing, are the model's form of the ports (log entry 4). -/
def Obligations.ReservedBitAnswersErrRsv : Prop :=
  ∀ (s : State) (c : Command) (rest : List HostEvent),
    s.inbox = .command c :: rest → knownOpcode c.word = true → wellFormedWord c.word = false →
    step s = .next { s with
      inbox := rest
      err := true
      errCode := if s.err then s.errCode else 0x02
      rsp := some ⟨.err .rsv, 0⟩ }

/-- R79: only SETFLC, SETFHC, SETFS, APPLY and WRIR look at `D`. -/
def Obligations.IgnoredOperandHasNoEffect : Prop :=
  ∀ (s : State) (w : BitVec 32) (d d' : Word) (rest : List HostEvent),
    opcField w ∉ [0x03, 0x04, 0x05, 0x10, 0x39] →
    step { s with inbox := .command ⟨w, d⟩ :: rest } = step { s with inbox := .command ⟨w, d'⟩ :: rest }

/-- The host's other moves: with none the block keeps all state (R209); taking the response lowers `rsp_valid` and
changes nothing else (R71, R228); `rst` gives the reset state (R220, R221) of the block with its parameters (log entry 3). The model's own fields
`inbox` and `draws` (log entries 4, 11) are carried over. -/
def Obligations.HostMovesBesideCommands : Prop :=
  ∀ (s : State) (rest : List HostEvent),
    (s.inbox = [] → step s = .next s) ∧
    (s.inbox = .takeResponse :: rest → step s = .next { s with inbox := rest, rsp := none }) ∧
    (s.inbox = .reset :: rest → step s = .next { State.reset with par := s.par, inbox := rest, draws := s.draws })

/-- R38: the state after hardware reset, of the block with the parameters this hardware takes (R8). -/
def Obligations.ResetValues : Prop :=
  State.reset.par = Config.hardware ∧ (∀ k j, tapAt State.reset.delayLine k j = f0) ∧
  State.reset.cfg.lpen = false ∧ State.reset.cfg.hpen = false ∧
  State.reset.cfg.flc = f0 ∧ State.reset.cfg.fhc = f0 ∧ State.reset.cfg.fs = f0 ∧ State.reset.cfg.order = 1 ∧
  State.reset.design.mode = .bypass ∧ State.reset.design.numStages = 0 ∧ State.reset.design.numCoef = 0 ∧
  (∀ k, State.reset.design.gainAt k = f0) ∧ (∀ k j, State.reset.design.coefAt k j = f0) ∧
  State.reset.delayValid = false ∧ State.reset.respValid = false ∧
  State.reset.err = false ∧ State.reset.errCode = 0 ∧ State.reset.delay = 0 ∧ State.reset.respLen = 0 ∧
  (∀ n, State.reset.ir.read n = f0) ∧ (∀ n, State.reset.re.read n = f0) ∧ (∀ n, State.reset.im.read n = f0) ∧
  (∀ j, State.reset.resp.read j = f0) ∧ csrWord 0x00 State.reset = 0x0000000142514641 ∧
  csrWord 0x01 State.reset = 0x0000000000080C08 ∧ State.reset.rsp = none ∧ cmdReady State.reset = true

/-! ## Rules over all commands -/

/-- Every command ends and answers exactly once, `R = 0` with an error status, `cmd_ready` low while the answer stands,
and takes nothing more from the host (R72, R73). -/
def Obligations.EveryCommandAnswersOnce : Prop :=
  ∀ (i : Instr) (s : State), ∃ t r, exec i s = .next t ∧ t.rsp = some r ∧ (r.status ≠ .ok → r.data = 0) ∧
    cmdReady t = false ∧ t.inbox = s.inbox

/-- A failed command has done nothing but record its error (60_exceptions.md R201, R205). -/
def Obligations.FailedCommandChangesOnlyErrorRecord : Prop :=
  ∀ (i : Instr) (s t : State) (e : ErrKind) (r : Word),
    exec i s = .next t → t.rsp = some ⟨.err e, r⟩ →
    t = { s with
      err := true
      errCode := if s.err then s.errCode else e.code
      rsp := some ⟨.err e, 0⟩ }

/-- R202: the first error since the last clear is kept, whether a command or a word that is none ends with it; a success
leaves the record; only CLRERR and hardware reset clear it; it has no effect on any command (RDCSR of `STATUS`, which
reads it, aside). -/
def Obligations.ErrorRecordIsSticky : Prop :=
  let records (s t : State) (e : ErrKind) : Prop :=
    t.err = true ∧ (s.err = false → t.errCode = e.code) ∧ (s.err = true → t.errCode = s.errCode)
  (∀ (i : Instr) (s t : State) (e : ErrKind) (r : Word), exec i s = .next t → t.rsp = some ⟨.err e, r⟩ →
    records s t e) ∧
  (∀ (s : State) (c : Command) (rest : List HostEvent) (e : DecodeError),
    s.inbox = .command c :: rest → decode c = .error e → ∃ t, step s = .next t ∧ records s t (decodeErrKind e)) ∧
  (∀ (i : Instr) (s t : State) (r : Word), i ≠ .clrerr → exec i s = .next t → t.rsp = some ⟨.ok, r⟩ →
    t.err = s.err ∧ t.errCode = s.errCode) ∧
  (∀ s : State, exec .clrerr s = .next { s with err := false, errCode := 0, rsp := some ⟨.ok, 0⟩ }) ∧
  (∀ (s : State) (rest : List HostEvent), s.inbox = .reset :: rest →
    ∃ t, step s = .next t ∧ t.err = false ∧ t.errCode = 0) ∧
  (∀ s t : State, s.err = true → step s = .next t → t.err = false →
    ∃ rest, s.inbox = .reset :: rest ∨ ∃ c, s.inbox = .command c :: rest ∧ decode c = .ok .clrerr) ∧
  (∀ (i : Instr) (s t : State) (b : Bool) (c : BitVec 8), i ≠ .rdcsr 0x0A → exec i s = .next t →
    ∃ t', exec i { s with err := b, errCode := c } = .next t' ∧ t'.rsp = t.rsp ∧
      { t' with err := t.err, errCode := t.errCode } = t)

/-- Who writes what (10_state.md R23, R29): only setters change the configuration and the design and clear the valid
flags; of the others only APPLY and RESET change the delay lines. -/
def Obligations.OnlySettersChangeTheDesign : Prop :=
  ∀ (i : Instr) (s t : State), isSetter i = false → exec i s = .next t →
    t.cfg = s.cfg ∧ t.design = s.design ∧ (s.delayValid = true → t.delayValid = true) ∧
    (s.respValid = true → t.respValid = true) ∧
    ((∀ x, i ≠ .apply x) → i ≠ .reset → t.delayLine = s.delayLine)

/-! ## Invariants -/

/-- The invariants hold after hardware reset (R28, R37, R97). -/
def Obligations.ResetMeetsTheInvariants : Prop := Inv State.reset ∧ DesignCurrent State.reset

/-- R37: every step, from every state that meets it, keeps the invariant, and with it the canonical form of every
word file (log entry 7); and no step changes the parameters (R8, log entry 3). -/
def Obligations.StepKeepsInv : Prop := ∀ s t : State, Inv s → step s = .next t → Inv t ∧ t.par = s.par

/-- The design in force always is one REDESIGN gives for the six registers in force (R97, R108), so it does not depend
on the setters' order or on the designs passed through. -/
def Obligations.StepKeepsDesignCurrent : Prop :=
  ∀ s t : State, DesignCurrent s → step s = .next t → DesignCurrent t

/-! ## The setters and the designer (40_config_design.md) -/

/-- R90, R106: each setter leaves everything as it is when its register already holds the value, and otherwise stores
it, replaces the design by that of the new configuration, zeroes `STATE` and clears the valid flags, and touches
nothing else of the block; both answer OK with `R = 0` (R91 to R96). The counter of draws, the model's own, advances by the
NaNs the design drew (log entry 1). -/
def Obligations.SettersStoreAndRedesign : Prop :=
  ∀ s : State,
    let redesigned (c : FilterConfig) : State := { s with
      cfg := c
      design := (runDraw (designOf s.par c) s.draws).1
      delayLine := WordMem.zeros
      delayValid := false
      respValid := false
      draws := (runDraw (designOf s.par c) s.draws).2
      rsp := some ⟨.ok, 0⟩ }
    let unchanged : State := { s with rsp := some ⟨.ok, 0⟩ }
    (∀ en, exec (.setlp en) s = .next (if s.cfg.lpen = en then unchanged else redesigned { s.cfg with lpen := en })) ∧
    (∀ en, exec (.sethp en) s = .next (if s.cfg.hpen = en then unchanged else redesigned { s.cfg with hpen := en })) ∧
    (∀ d, exec (.setflc d) s = .next (if s.cfg.flc = d then unchanged else redesigned { s.cfg with flc := d })) ∧
    (∀ d, exec (.setfhc d) s = .next (if s.cfg.fhc = d then unchanged else redesigned { s.cfg with fhc := d })) ∧
    (∀ d, exec (.setfs d) s = .next (if s.cfg.fs = d then unchanged else redesigned { s.cfg with fs := d })) ∧
    (∀ n, n < 2 ^ 16 → exec (.setord n) s = .next (if s.cfg.order.toNat = n then unchanged
      else redesigned { s.cfg with order := BitVec.ofNat 16 n }))

/-- R98 to R101: when each mode results, and the stage and coefficient counts it comes with. -/
def Obligations.ModeDerivation : Prop :=
  ∀ (p : Config) (c : FilterConfig) (n : Nat), p.legal = true →
    let half := (runDraw (fmul c.fs fHalf) n).1
    let d := (runDraw (designOf p c) n).1
    let order := c.order.toNat
    (d.mode = .bandPass ↔ 1 ≤ order ∧ c.lpen = true ∧ c.hpen = true ∧ flt f0 c.fhc = true ∧ flt c.fhc c.flc = true ∧
      flt c.flc half = true ∧ (order + 3) / 4 ≤ p.smax) ∧
    (d.mode = .lowPass ↔ 1 ≤ order ∧ c.lpen = true ∧ c.hpen = false ∧ flt f0 c.flc = true ∧ fle c.flc half = true ∧
      (order + 1) / 2 ≤ p.smax) ∧
    (d.mode = .highPass ↔ 1 ≤ order ∧ c.lpen = false ∧ c.hpen = true ∧ flt f0 c.fhc = true ∧ fle c.fhc half = true ∧
      (order + 1) / 2 ≤ p.smax) ∧
    (d.mode = .bypass → d.numStages.toNat = 0 ∧ d.numCoef.toNat = 0) ∧
    (d.mode = .lowPass ∨ d.mode = .highPass → d.numStages.toNat = (order + 1) / 2 ∧ d.numCoef.toNat = 2) ∧
    (d.mode = .bandPass → d.numStages.toNat = (order + 3) / 4 ∧ d.numCoef.toNat = 4)

/-- The mode, the stage count and the coefficient count are a function of the configuration (and `SMAX`) alone, whatever NaNs are
drawn (R97). -/
def Obligations.ModeDoesNotDependOnDraws : Prop :=
  ∀ (p : Config) (c : FilterConfig) (m n : Nat),
    (runDraw (designOf p c) m).1.mode = (runDraw (designOf p c) n).1.mode ∧
    (runDraw (designOf p c) m).1.numStages = (runDraw (designOf p c) n).1.numStages ∧
    (runDraw (designOf p c) m).1.numCoef = (runDraw (designOf p c) n).1.numCoef

/-- R105: every gain and coefficient the formulas do not assign is `+0.0` in the new design. -/
def Obligations.UnassignedCoefficientsAreZero : Prop :=
  ∀ (p : Config) (c : FilterConfig) (n : Nat), p.legal = true →
    let d := (runDraw (designOf p c) n).1
    (∀ k, d.numStages.toNat ≤ k → d.gainAt k = f0) ∧
    (∀ k j, j < 4 → d.numStages.toNat ≤ k ∨ d.numCoef.toNat ≤ j → d.coefAt k j = f0)

/-- R102, R103: the gain and the two coefficients of every stage of a low-pass or high-pass design. -/
def Obligations.LowPassHighPassCoefficients : Prop :=
  ∀ (p : Config) (c : FilterConfig) (n : Nat), p.legal = true →
    let d := (runDraw (designOf p c) n).1
    d.mode = .lowPass ∨ d.mode = .highPass →
    ∃ a a2 ta, IsPrewarp (if d.mode = .lowPass then c.flc else c.fhc) c.fs a a2 ta ∧
      ∀ k, k < d.numStages.toNat →
        ∃ r s u v, IsPoleSine k d.numStages.toNat r ∧ IsDenominator a2 ta r s ∧
          Yields (if d.mode = .lowPass then fdiv a2 s else fdiv f1 s) (d.gainAt k) ∧
          Yields (fsub f1 a2) u ∧ Yields (fmul f2 u) v ∧ Yields (fdiv v s) (d.coefAt k 0) ∧
          IsLastCoef a2 ta r s (d.coefAt k 1)

/-- R102, R104: the gain and the four coefficients of every stage of a band-pass design. -/
def Obligations.BandPassCoefficients : Prop :=
  ∀ (p : Config) (c : FilterConfig) (n : Nat), p.legal = true →
    let d := (runDraw (designOf p c) n).1
    d.mode = .bandPass →
    ∃ a a2 fa b b2 tb, IsBandPrewarp c a a2 fa b b2 tb ∧
      ∀ k, k < d.numStages.toNat →
        ∃ r s br u0 v0 t1 u1 v1 w1 u2 v2, IsPoleSine k d.numStages.toNat r ∧ IsDenominator b2 tb r s ∧
          Yields (fdiv b2 c.fs) (d.gainAt k) ∧ Yields (fmul b r) br ∧
          Yields (fadd f1 br) u0 ∧ Yields (fmul fa u0) v0 ∧ Yields (fdiv v0 s) (d.coefAt k 0) ∧
          Yields (fmul f2 a2) t1 ∧ Yields (fsub b2 t1) u1 ∧ Yields (fsub u1 f1) v1 ∧ Yields (fmul f2 v1) w1 ∧
          Yields (fdiv w1 s) (d.coefAt k 1) ∧
          Yields (fsub f1 br) u2 ∧ Yields (fmul fa u2) v2 ∧ Yields (fdiv v2 s) (d.coefAt k 2) ∧
          IsLastCoef b2 tb r s (d.coefAt k 3)

/-! ## The engine (41_engine.md) -/

/-- R122: in Bypass APPLY answers the operand's bits and changes nothing. -/
def Obligations.ApplyInBypassIsIdentity : Prop :=
  ∀ (s : State) (x : Word), s.design.mode = .bypass → exec (.apply x) s = .next { s with rsp := some ⟨.ok, x⟩ }

/-- APPLY completes with the engine's output and writes nothing but the taps of the active shape (R120, R126). -/
def Obligations.ApplyCompletesAndWritesActiveTaps : Prop :=
  ∀ (s : State) (x : Word), s.design.Shape s.par.smax →
    ∃ y line n, runDraw (engineApply s.design s.delayLine x) s.draws = ((y, line), n) ∧
      exec (.apply x) s = .next { s with delayLine := line, draws := n, rsp := some ⟨.ok, y⟩ } ∧
      ∀ k j, InactiveTap s.design k j → tapAt line k j = tapAt s.delayLine k j

/-- R123: the cascade of `S + 1` stages is the cascade of `S` stages and then stage `S` on its output. -/
def Obligations.CascadeRunsStagesInOrder : Prop :=
  ∀ (d : Design) (line : WordMem) (x : Word) (stages n : Nat), d.mode ≠ .bypass → stages + 1 < 2 ^ 8 →
    runDraw (engineApply { d with numStages := 0 } line x) n = ((x, line), n) ∧
    runDraw (engineApply { d with numStages := BitVec.ofNat 8 (stages + 1) } line x) n =
      let r := runDraw (engineApply { d with numStages := BitVec.ofNat 8 stages } line x) n
      runDraw (engineStage d stages r.1) r.2

/-- R124 to R126 for two taps: accumulator, output and shift of one low-pass or high-pass stage, and every other tap
left alone. -/
def Obligations.LowPassHighPassStage : Prop :=
  ∀ (d : Design) (line : WordMem) (k : Nat) (x : Word) (n : Nat),
    d.mode = .lowPass ∨ d.mode = .highPass → d.numCoef = 2 → line.wf = true →
    let r := (runDraw (engineStage d k (x, line)) n).1
    ∃ p0 a p1 w0 t u v,
      Yields (fmul (d.coefAt k 0) (tapAt line k 0)) p0 ∧ Yields (fadd x p0) a ∧
      Yields (fmul (d.coefAt k 1) (tapAt line k 1)) p1 ∧ Yields (fadd a p1) w0 ∧
      Yields (fmul f2 (tapAt line k 0)) t ∧
      Yields (if d.mode = .lowPass then fadd w0 t else fsub w0 t) u ∧
      Yields (fadd u (tapAt line k 1)) v ∧ Yields (fmul (d.gainAt k) v) r.1 ∧
      tapAt r.2 k 0 = w0 ∧ tapAt r.2 k 1 = tapAt line k 0 ∧
      ∀ i, i ≠ 4 * k → i ≠ 4 * k + 1 → r.2.read i = line.read i

/-- R124 to R126 for four taps: one band-pass stage. -/
def Obligations.BandPassStage : Prop :=
  ∀ (d : Design) (line : WordMem) (k : Nat) (x : Word) (n : Nat),
    d.mode = .bandPass → d.numCoef = 4 → line.wf = true →
    let r := (runDraw (engineStage d k (x, line)) n).1
    ∃ p0 a0 p1 a1 p2 a2 p3 w0 t u v,
      Yields (fmul (d.coefAt k 0) (tapAt line k 0)) p0 ∧ Yields (fadd x p0) a0 ∧
      Yields (fmul (d.coefAt k 1) (tapAt line k 1)) p1 ∧ Yields (fadd a0 p1) a1 ∧
      Yields (fmul (d.coefAt k 2) (tapAt line k 2)) p2 ∧ Yields (fadd a1 p2) a2 ∧
      Yields (fmul (d.coefAt k 3) (tapAt line k 3)) p3 ∧ Yields (fadd a2 p3) w0 ∧
      Yields (fmul f2 (tapAt line k 1)) t ∧ Yields (fsub w0 t) u ∧ Yields (fadd u (tapAt line k 3)) v ∧
      Yields (fmul (d.gainAt k) v) r.1 ∧
      tapAt r.2 k 0 = w0 ∧ tapAt r.2 k 1 = tapAt line k 0 ∧ tapAt r.2 k 2 = tapAt line k 1 ∧
      tapAt r.2 k 3 = tapAt line k 2 ∧
      ∀ i, i / 4 ≠ k → r.2.read i = line.read i

/-- R127: RESET zeroes every delay line and touches nothing else; a second RESET changes nothing. -/
def Obligations.ResetZeroesDelayLines : Prop :=
  ∀ s : State, ∃ t, exec .reset s = .next t ∧ (∀ k j, tapAt t.delayLine k j = f0) ∧
    t = { s with delayLine := t.delayLine, rsp := some ⟨.ok, 0⟩ } ∧ exec .reset t = .next t

/-! ## The analyzer (42_analysis.md) -/

/-- A length the buffers do not hold is refused and nothing is written (R140, R157). -/
def Obligations.AnalysisLengthOutOfRange : Prop :=
  ∀ (l : Nat) (cs : Bool) (s : State), l < 1 ∨ s.par.log2NfftMax < l →
    let refused : State := { s with
      err := true
      errCode := if s.err then s.errCode else 0x03
      rsp := some ⟨.err .range, 0⟩ }
    exec (.analyze l cs) s = .next refused ∧ exec (.fftrun l) s = .next refused

/-- R142: in Bypass the delay is 0, the response zeros, and no other buffer is touched. -/
def Obligations.AnalyzeInBypass : Prop :=
  ∀ (l : Nat) (cs : Bool) (s : State), s.design.mode = .bypass → 1 ≤ l → l ≤ s.par.log2NfftMax → s.resp.wf = true →
    ∃ resp, exec (.analyze l cs) s = .next { s with
        delay := 0
        delayValid := true
        resp := resp
        respLen := if cs then BitVec.ofNat 32 (2 ^ l / 2) else s.respLen
        respValid := cs || s.respValid
        rsp := some ⟨.ok, 0⟩ } ∧
      (cs = false → resp = s.resp) ∧
      (cs = true → ∀ j, resp.read j = if j < 2 ^ l / 2 then f0 else s.resp.read j)

/-- The frame of ANALYZE (R140, R155): configuration, design, delay lines and error record stay, every buffer word
past the analysed length reads as before, and without a spectrum `RE`, `IM`, `RESP`, `RESPLEN`, `RESP_VALID` stay. -/
def Obligations.AnalyzeFrame : Prop :=
  ∀ (l : Nat) (cs : Bool) (s t : State), 1 ≤ l → l ≤ s.par.log2NfftMax → exec (.analyze l cs) s = .next t →
    t.par = s.par ∧ t.cfg = s.cfg ∧ t.design = s.design ∧ t.delayLine = s.delayLine ∧ t.err = s.err ∧ t.errCode = s.errCode ∧
    t.inbox = s.inbox ∧
    (∀ n, 2 ^ l ≤ n → t.ir.read n = s.ir.read n ∧ t.re.read n = s.re.read n ∧ t.im.read n = s.im.read n) ∧
    (∀ j, 2 ^ l / 2 ≤ j → t.resp.read j = s.resp.read j) ∧
    (cs = false → t.re = s.re ∧ t.im = s.im ∧ t.resp = s.resp ∧ t.respLen = s.respLen ∧ t.respValid = s.respValid)

/-- R145: an analysis disturbs no later APPLY: the delay lines and the design are the same, bit for bit, so the next
sample runs the same computation. -/
def Obligations.AnalysisLeavesTheFilterUndisturbed : Prop :=
  ∀ (i : Instr) (s : State), (∃ l cs, i = .analyze l cs) ∨ i = .getdelay ∨ (∃ np, i = .freqresp np) →
    ∃ t, exec i s = .next t ∧ t.delayLine = s.delayLine ∧
      ∀ x, engineApply t.design t.delayLine x = engineApply s.design s.delayLine x

/-- What ANALYZE computes outside Bypass (R141, R144, R155): `IR[n]` is the engine's answer to sample `n` of the impulse,
each sample's delay lines being those the one before left and the first's all zero; `DELAY` is the peak; with a
spectrum `RE`, `IM` hold the FFT of `IR` and `RESP` what NORMALIZE makes of the dB step on them (R147, R153, R154). -/
def Obligations.AnalyzeResult : Prop :=
  ∀ (l : Nat) (cs : Bool) (s : State), s.design.mode ≠ .bypass → 1 ≤ l → l ≤ s.par.log2NfftMax → s.ir.wf = true →
    ∃ t, exec (.analyze l cs) s = .next t ∧
      (∃ line : Nat → WordMem, line 0 = WordMem.zeros ∧ ∀ n, n < 2 ^ l →
        Yields (engineApply s.design (line n) (if n = 0 then f1 else f0)) (t.ir.read n, line (n + 1))) ∧
      t.delay = BitVec.ofNat 32 (peak t.ir (2 ^ l)) ∧ t.delayValid = true ∧
      t.rsp = some ⟨.ok, t.delay.zeroExtend 64⟩ ∧
      (cs = true → Yields (fftCore s.par t.ir l (s.re, s.im)) (t.re, t.im) ∧
        (∃ r, Yields (dbStep t.re t.im (2 ^ l / 2) s.resp) r ∧ Yields (normalizeResp (2 ^ l / 2) r) t.resp) ∧
        t.respLen = BitVec.ofNat 32 (2 ^ l / 2) ∧ t.respValid = true)

/-- R146: the peak is the first sample no other exceeds in magnitude; a NaN never wins, and a NaN at index 0 is never
beaten. -/
def Obligations.PeakIsFirstMaximum : Prop :=
  ∀ (ir : WordMem) (nfft : Nat), 1 ≤ nfft →
    peak ir nfft < nfft ∧
    (isNaN (ir.read 0) = true → peak ir nfft = 0) ∧
    (isNaN (ir.read 0) = false →
      isNaN (ir.read (peak ir nfft)) = false ∧
      (∀ n, n < nfft → fgt (fabs (ir.read n)) (fabs (ir.read (peak ir nfft))) = false) ∧
      (∀ n, n < peak ir nfft → isNaN (ir.read n) = false →
        flt (fabs (ir.read n)) (fabs (ir.read (peak ir nfft))) = true))

/-- R156: a valid `DELAY` is answered and nothing changes; otherwise GETDELAY is the delay-only analysis of the default
length, which is 256 in the hardware's own parameters. -/
def Obligations.GetdelayReusesTheCachedDelay : Prop :=
  ∀ s : State,
    (s.delayValid = true → exec .getdelay s = .next { s with rsp := some ⟨.ok, s.delay.zeroExtend 64⟩ }) ∧
    (s.delayValid = false →
      ∃ t, exec .getdelay s = .next t ∧ t.delayValid = true ∧ t.rsp = some ⟨.ok, t.delay.zeroExtend 64⟩) ∧
    (s.delayValid = false → s.par.legal = true → exec .getdelay s = exec (.analyze s.par.log2NfftDefault false) s) ∧
    (s.par = Config.hardware → 2 ^ s.par.log2NfftDefault = 256)

/-- R158: FREQRESP is the spectrum analysis of twice the rounded-up number `2^e` of points, answering that number; past the
buffers, that is above 2048 points in the hardware's own parameters, it is refused. -/
def Obligations.FreqrespRoundsUp : Prop :=
  ∀ (np : Nat) (s : State), ∃ e, max np 1 ≤ 2 ^ e ∧ 2 ^ e < 2 * max np 1 ∧
    (e + 1 ≤ s.par.log2NfftMax → ∃ t, exec (.analyze (e + 1) true) s = .next t ∧
      t.rsp = some ⟨.ok, t.delay.zeroExtend 64⟩ ∧
      exec (.freqresp np) s = .next { t with rsp := some ⟨.ok, BitVec.ofNat 64 (2 ^ e)⟩ }) ∧
    (s.par.log2NfftMax < e + 1 → exec (.freqresp np) s = .next { s with
      err := true
      errCode := if s.err then s.errCode else 0x03
      rsp := some ⟨.err .range, 0⟩ }) ∧
    (s.par = Config.hardware → (s.par.log2NfftMax < e + 1 ↔ 2048 < np))

/-- R19: `nextpow2(n)` is the smallest power of two that is at least `n`, and `log2` of a power of two its exponent. -/
def Obligations.NextPow2IsLeast : Prop :=
  (∀ n, 1 ≤ n → (∃ e, nextPow2 n = 2 ^ e) ∧ n ≤ nextPow2 n ∧ ∀ e, n ≤ 2 ^ e → nextPow2 n ≤ 2 ^ e) ∧
  ∀ e, ceilLog2 (2 ^ e) = e

/-- R148: bit reversal, its own inverse, and the load it directs: `RE[q] = IR[BITREV(q, L)]`, `IM[q] = +0.0`, the rest of
the buffers untouched. -/
def Obligations.BitReversedLoad : Prop :=
  (∀ n l, n < 2 ^ l → bitrev n l < 2 ^ l ∧ bitrev (bitrev n l) l = n ∧
    ∀ i, i < l → (bitrev n l).testBit i = n.testBit (l - 1 - i)) ∧
  (∀ (ir : WordMem) (l : Nat) (z : WordMem × WordMem), z.1.wf = true → z.2.wf = true →
    ∀ q, (q < 2 ^ l → (fftLoad ir l z).1.read q = ir.read (bitrev q l) ∧ (fftLoad ir l z).2.read q = f0) ∧
      (2 ^ l ≤ q → (fftLoad ir l z).1.read q = z.1.read q ∧ (fftLoad ir l z).2.read q = z.2.read q))

/-- R151: the butterfly's ten operations, and every other entry left alone. -/
def Obligations.ButterflyResult : Prop :=
  ∀ (p q : Nat) (wr wi : Word) (z : WordMem × WordMem) (n : Nat), p ≠ q → z.1.wf = true → z.2.wf = true →
    let r := (runDraw (butterfly p q wr wi z) n).1
    ∃ a b tr c e ti,
      Yields (fmul wr (z.1.read q)) a ∧ Yields (fmul wi (z.2.read q)) b ∧ Yields (fsub a b) tr ∧
      Yields (fmul wr (z.2.read q)) c ∧ Yields (fmul wi (z.1.read q)) e ∧ Yields (fadd c e) ti ∧
      Yields (fsub (z.1.read p) tr) (r.1.read q) ∧ Yields (fsub (z.2.read p) ti) (r.2.read q) ∧
      Yields (fadd (z.1.read p) tr) (r.1.read p) ∧ Yields (fadd (z.2.read p) ti) (r.2.read p) ∧
      ∀ i, i ≠ p → i ≠ q → r.1.read i = z.1.read i ∧ r.2.read i = z.2.read i

/-- R149, R150, R152: a stage gives every pair `(i, i + m/2)` of a group its butterfly on the values before the stage,
with the twiddle of `i mod m`, as if all its butterflies were done at once. -/
def Obligations.FftStageIsSimultaneousButterflies : Prop :=
  ∀ (p : Config) (l s : Nat) (z : WordMem × WordMem) (n i : Nat), 1 ≤ s → s ≤ l → l ≤ p.log2NfftMax →
    z.1.wf = true → z.2.wf = true → i < 2 ^ l → i % 2 ^ s < 2 ^ s / 2 →
    let t := i % 2 ^ s * (p.nfftMax / 2 ^ s)
    let q := i + 2 ^ s / 2
    let r := (runDraw (fftStage p l s z) n).1
    ∃ b, Yields (butterfly i q (twRe p t) (twIm p t) z) b ∧
      r.1.read i = b.1.read i ∧ r.2.read i = b.2.read i ∧ r.1.read q = b.1.read q ∧ r.2.read q = b.2.read q

/-- FFTRUN runs the FFT alone (R157): it completes with `R = 0`, writes `RE`, `IM` below `2^L` and nothing else, and the
result is the stages of R147 in order on the bit-reversed load. -/
def Obligations.FftrunRunsTheFftAlone : Prop :=
  ∀ (l : Nat) (s : State), 1 ≤ l → l ≤ s.par.log2NfftMax →
    ∃ re im n, exec (.fftrun l) s = .next { s with re := re, im := im, draws := n, rsp := some ⟨.ok, 0⟩ } ∧
      (∃ z : Nat → WordMem × WordMem, z 0 = fftLoad s.ir l (s.re, s.im) ∧
        (∀ st, st < l → Yields (fftStage s.par l (st + 1) (z st)) (z (st + 1))) ∧ z l = (re, im)) ∧
      ∀ q, 2 ^ l ≤ q → re.read q = s.re.read q ∧ im.read q = s.im.read q

/-- R153: each bin of the dB step, with the floor where the computed sum of squares is zero; other entries left
alone. -/
def Obligations.DecibelBins : Prop :=
  ∀ (re im : WordMem) (h : Nat) (resp : WordMem) (n : Nat), resp.wf = true →
    let r := (runDraw (dbStep re im h resp) n).1
    (∀ j, j < h → ∃ a b p, Yields (fmul (re.read j) (re.read j)) a ∧ Yields (fmul (im.read j) (im.read j)) b ∧
      Yields (fadd a b) p ∧
      (feq p f0 = true → r.read j = fFloor) ∧
      (feq p f0 = false → ∃ g, Yields (flog10 p) g ∧ Yields (fmul f10 g) (r.read j))) ∧
    (∀ j, h ≤ j → r.read j = resp.read j)

/-- NORMALIZE (R154): the maximum by strict `>` from bin 0, a NaN there never beaten and one elsewhere never winning; its
subtraction from every bin, and nothing else written; and, where every bin is finite, the maximum bin exactly `+0.0` and
every bin at most 0. -/
def Obligations.NormalizedMaximumIsZero : Prop :=
  ∀ (h : Nat) (resp : WordMem) (n : Nat), 1 ≤ h → resp.wf = true →
    let mx := respMax resp h
    let r := (runDraw (normalizeResp h resp) n).1
    (isNaN (resp.read 0) = true → mx = resp.read 0) ∧
    (isNaN (resp.read 0) = false → ∃ k, k < h ∧ mx = resp.read k ∧ isNaN mx = false ∧
      (∀ j, j < h → fgt (resp.read j) mx = false) ∧
      (∀ j, j < k → isNaN (resp.read j) = false → flt (resp.read j) mx = true)) ∧
    (∀ j, j < h → Yields (fsub (resp.read j) mx) (r.read j)) ∧
    (∀ j, h ≤ j → r.read j = resp.read j) ∧
    ((∀ j, j < h → isFinite (resp.read j) = true) →
      (∃ j, j < h ∧ r.read j = f0) ∧ ∀ j, j < h → fle (r.read j) f0 = true)

/-- Noninterference of the analysis (R161): under one design, one set of parameters and one sequence of draws its results do not depend on the
configuration registers, the delay lines, the old buffers or the error record. -/
def Obligations.AnalysisDependsOnTheDesignOnly : Prop :=
  ∀ (l : Nat) (cs : Bool) (s₁ s₂ t₁ t₂ : State),
    s₁.par = s₂.par → s₁.design = s₂.design → s₁.draws = s₂.draws → 1 ≤ l → l ≤ s₁.par.log2NfftMax →
    s₁.ir.wf = true → s₂.ir.wf = true → s₁.re.wf = true → s₂.re.wf = true → s₁.im.wf = true → s₂.im.wf = true →
    s₁.resp.wf = true → s₂.resp.wf = true →
    exec (.analyze l cs) s₁ = .next t₁ → exec (.analyze l cs) s₂ = .next t₂ →
    t₁.delay = t₂.delay ∧ t₁.rsp = t₂.rsp ∧
    (s₁.design.mode ≠ .bypass → ∀ n, n < 2 ^ l → t₁.ir.read n = t₂.ir.read n ∧
      (cs = true → t₁.re.read n = t₂.re.read n ∧ t₁.im.read n = t₂.im.read n)) ∧
    (cs = true → t₁.respLen = t₂.respLen ∧ ∀ j, j < 2 ^ l / 2 → t₁.resp.read j = t₂.resp.read j)

/-! ## Access and housekeeping (43_access.md) -/

/-- RDCSR (R182, R25, R29, R31): every CSR as the word it reads as, and the refusal of every other number. -/
def Obligations.RdcsrReadsTheCsrs : Prop :=
  ∀ s : State,
    let answers (num : Nat) (w : Word) : Prop := exec (.rdcsr num) s = .next { s with rsp := some ⟨.ok, w⟩ }
    answers 0x00 0x0000000142514641 ∧ (s.par = Config.hardware → answers 0x01 0x0000000000080C08) ∧
    (s.par.legal = true → answers 0x01 ((BitVec.ofNat 8 s.par.log2NfftDefault ++ BitVec.ofNat 8 s.par.log2NfftMax ++
      BitVec.ofNat 8 s.par.smax).zeroExtend 64)) ∧ answers 0x01 (capWord s.par) ∧
    answers 0x02 ((BitVec.ofBool s.cfg.hpen ++ BitVec.ofBool s.cfg.lpen).zeroExtend 64) ∧
    answers 0x03 s.cfg.flc ∧ answers 0x04 s.cfg.fhc ∧ answers 0x05 s.cfg.fs ∧
    answers 0x06 (s.cfg.order.zeroExtend 64) ∧
    answers 0x07 (match s.design.mode with | .bypass => 0 | .lowPass => 1 | .highPass => 2 | .bandPass => 3) ∧
    answers 0x08 (s.design.numStages.zeroExtend 64) ∧ answers 0x09 (s.design.numCoef.zeroExtend 64) ∧
    answers 0x0A ((s.errCode ++ (0 : BitVec 5) ++ BitVec.ofBool s.err ++ BitVec.ofBool s.respValid ++
      BitVec.ofBool s.delayValid).zeroExtend 64) ∧
    answers 0x0B (s.delay.zeroExtend 64) ∧ answers 0x0C (s.respLen.zeroExtend 64) ∧
    ∀ num, 0x0C < num → exec (.rdcsr num) s = .next { s with
      err := true
      errCode := if s.err then s.errCode else 0x03
      rsp := some ⟨.err .range, 0⟩ }

/-- RDCOEF (R183, R50): index `8k` is the gain of stage `k`, `8k+1+j` its coefficient `j`; other indices are refused. -/
def Obligations.RdcoefReadsTheCoefficients : Prop :=
  ∀ s : State,
    (∀ k, k < s.par.smax → exec (.rdcoef (8 * k)) s = .next { s with rsp := some ⟨.ok, s.design.gainAt k⟩ }) ∧
    (∀ k j, k < s.par.smax → j < 4 →
      exec (.rdcoef (8 * k + 1 + j)) s = .next { s with rsp := some ⟨.ok, s.design.coefAt k j⟩ }) ∧
    (∀ idx, s.par.smax ≤ idx / 8 ∨ 4 < idx % 8 → exec (.rdcoef idx) s = .next { s with
      err := true
      errCode := if s.err then s.errCode else 0x03
      rsp := some ⟨.err .range, 0⟩ })

/-- RDSTATE (R184, R50): index `4k+j` is `STATE[k][j]`; an index past the file is refused. -/
def Obligations.RdstateReadsTheDelayLines : Prop :=
  ∀ s : State,
    (∀ k j, k < s.par.smax → j < 4 →
      exec (.rdstate (4 * k + j)) s = .next { s with rsp := some ⟨.ok, tapAt s.delayLine k j⟩ }) ∧
    (∀ idx, 4 * s.par.smax ≤ idx → exec (.rdstate idx) s = .next { s with
      err := true
      errCode := if s.err then s.errCode else 0x03
      rsp := some ⟨.err .range, 0⟩ })

/-- RDRESP (R185, R203): stale first, then the range, then the bin. -/
def Obligations.RdrespRefusesStaleResponses : Prop :=
  ∀ (s : State) (idx : Nat),
    (s.respValid = false → exec (.rdresp idx) s = .next { s with
      err := true
      errCode := if s.err then s.errCode else 0x04
      rsp := some ⟨.err .stale, 0⟩ }) ∧
    (s.respValid = true → s.respLen.toNat ≤ idx → exec (.rdresp idx) s = .next { s with
      err := true
      errCode := if s.err then s.errCode else 0x03
      rsp := some ⟨.err .range, 0⟩ }) ∧
    (s.respValid = true → idx < s.respLen.toNat →
      exec (.rdresp idx) s = .next { s with rsp := some ⟨.ok, s.resp.read idx⟩ })

/-- RDIR, RDRE, RDIM (R186 to R188): the buffer's word, or the refusal past `NFFT_MAX`. -/
def Obligations.BufferReads : Prop :=
  ∀ (s : State) (idx : Nat),
    (idx < s.par.nfftMax →
      exec (.rdir idx) s = .next { s with rsp := some ⟨.ok, s.ir.read idx⟩ } ∧
      exec (.rdre idx) s = .next { s with rsp := some ⟨.ok, s.re.read idx⟩ } ∧
      exec (.rdim idx) s = .next { s with rsp := some ⟨.ok, s.im.read idx⟩ }) ∧
    (s.par.nfftMax ≤ idx →
      let refused : State := { s with
        err := true
        errCode := if s.err then s.errCode else 0x03
        rsp := some ⟨.err .range, 0⟩ }
      exec (.rdir idx) s = .next refused ∧ exec (.rdre idx) s = .next refused ∧ exec (.rdim idx) s = .next refused)

/-- RDTW (R189): index `2t` is the real, `2t+1` the imaginary part of `TWROM[t]`; and the entries R36 gives exactly. -/
def Obligations.RdtwReadsTheTwiddleRom : Prop :=
  ∀ s : State,
    let answers (idx : Nat) (w : Word) : Prop := exec (.rdtw idx) s = .next { s with rsp := some ⟨.ok, w⟩ }
    let entry (t : Nat) (re im : Word) : Prop := answers (2 * t) re ∧ answers (2 * t + 1) im
    let full := s.par.nfftMax
    (∀ t, 2 * t + 1 < full → entry t (twRe s.par t) (twIm s.par t)) ∧
    (s.par.legal = true →
      entry 0 0x3FF0000000000000 0x0000000000000000 ∧
      entry (full / 8) 0x3FE6A09E667F3BCD 0xBFE6A09E667F3BCD ∧
      entry (full / 4) 0x0000000000000000 0xBFF0000000000000 ∧
      entry (3 * full / 8) 0xBFE6A09E667F3BCD 0xBFE6A09E667F3BCD) ∧
    ∀ idx, full ≤ idx → exec (.rdtw idx) s = .next { s with
      err := true
      errCode := if s.err then s.errCode else 0x03
      rsp := some ⟨.err .range, 0⟩ }

/-- Checks of the twiddle ROM against R36 (log entry 13): in the ROM this hardware takes each entry is the one before it
turned by one step of the circle, to within `2^-52` in each part; and the ROM of any other legal length holds the same
entry at the same angle. -/
def Obligations.TwiddleRomTurnsStepByStep : Prop :=
  (∀ t, t + 1 < Config.hardware.nfftMax / 2 →
    let r (t : Nat) : Int := signedUnits (twRe Config.hardware t)
    let i (t : Nat) : Int := signedUnits (twIm Config.hardware t)
    |r (t + 1) * unitScale - (r t * r 1 - i t * i 1)| * 2 ^ 52 ≤ (unitScale : Int) ^ 2 ∧
    |i (t + 1) * unitScale - (r t * i 1 + i t * r 1)| * 2 ^ 52 ≤ (unitScale : Int) ^ 2) ∧
  (∀ (p q : Config) (t k : Nat), p.legal = true → q.legal = true → q.log2NfftMax = p.log2NfftMax + k →
    twRe q (t * 2 ^ k) = twRe p t ∧ twIm q (t * 2 ^ k) = twIm p t)

/-- WRIR (R190): one word of `IR` is written and nothing else; past the buffer it is refused. -/
def Obligations.WrirWritesOneWord : Prop :=
  ∀ (s : State) (idx : Nat) (d : Word), s.ir.wf = true →
    (idx < s.par.nfftMax → ∃ ir, exec (.wrir idx d) s = .next { s with ir := ir, rsp := some ⟨.ok, 0⟩ } ∧
      ∀ n, ir.read n = if n = idx then d else s.ir.read n) ∧
    (s.par.nfftMax ≤ idx → exec (.wrir idx d) s = .next { s with
      err := true
      errCode := if s.err then s.errCode else 0x03
      rsp := some ⟨.err .range, 0⟩ })

/-- NOP, GETORD and CLRERR (R180, R181, R191). -/
def Obligations.NopGetordClrerr : Prop :=
  ∀ s : State,
    exec .nop s = .next { s with rsp := some ⟨.ok, 0⟩ } ∧
    exec .getord s = .next { s with rsp := some ⟨.ok, s.cfg.order.zeroExtend 64⟩ } ∧
    exec .clrerr s = .next { s with err := false, errCode := 0, rsp := some ⟨.ok, 0⟩ }

/-! ## Arithmetic (00_scope.md) -/

/-- The four operations on finite operands (R12): the exact result rounded once, to nearest with ties to even, subnormals
kept, overflow to infinity; no NaN is drawn. -/
def Obligations.OperationsRoundToNearestEven : Prop :=
  ∀ a b : Word, isFinite a = true → isFinite b = true →
    (∃ w, Gives (fadd a b) w ∧ RoundsTo (signedUnits a + signedUnits b) 1 w) ∧
    (∃ w, Gives (fsub a b) w ∧ RoundsTo (signedUnits a - signedUnits b) 1 w) ∧
    (∃ w, Gives (fmul a b) w ∧ RoundsTo (signedUnits a * signedUnits b) unitScale w) ∧
    (isZero b = false → ∃ w, Gives (fdiv a b) w ∧
      RoundsTo (signedUnits a * unitScale * (signedUnits b).sign) (units b) w)

/-- R12, R13: exactly the invalid operations give a NaN, it is quiet and a fresh draw (log entry 1), the draw leaves no quiet
NaN pattern out, and a non-zero divided by zero is an infinity, of the sign IEEE 754 gives it (log entry 14). -/
def Obligations.InvalidOperationsDrawQuietNaNs : Prop :=
  (∀ (a b : Word) (n : Nat),
    (isNaN (runDraw (fadd a b) n).1 = true ↔
      isNaN a = true ∨ isNaN b = true ∨ (isInf a = true ∧ isInf b = true ∧ isNeg a ≠ isNeg b)) ∧
    (isNaN (runDraw (fsub a b) n).1 = true ↔
      isNaN a = true ∨ isNaN b = true ∨ (isInf a = true ∧ isInf b = true ∧ isNeg a = isNeg b)) ∧
    (isNaN (runDraw (fmul a b) n).1 = true ↔
      isNaN a = true ∨ isNaN b = true ∨ (isInf a = true ∧ isZero b = true) ∨ (isZero a = true ∧ isInf b = true)) ∧
    (isNaN (runDraw (fdiv a b) n).1 = true ↔
      isNaN a = true ∨ isNaN b = true ∨ (isInf a = true ∧ isInf b = true) ∨ (isZero a = true ∧ isZero b = true)) ∧
    (∀ f ∈ [fadd a b, fsub a b, fmul a b, fdiv a b], isNaN (runDraw f n).1 = true →
      runDraw f n = (quietNaN (Config.nanBits n), n + 1)) ∧
    (isFinite a = true → isZero a = false → isZero b = true →
      Gives (fdiv a b) (ofSignMag (isNeg a != isNeg b) infBits))) ∧
  (∀ w : Word, (∃ b, quietNaN b = w) ↔ isNaN w = true ∧ w.getLsbD 51 = true)

/-- R16: the comparisons are those of the values, `-0` equals `+0`, the infinities lie outside, and every comparison with
a NaN is false; `fbits_eq` is equality of patterns. `feq`, the IEEE equality test of R153, is neither below nor above. -/
def Obligations.ComparisonsFollowTheValues : Prop :=
  (∀ a b : Word, isFinite a = true → isFinite b = true → flt a b = decide (signedUnits a < signedUnits b)) ∧
  (∀ a b : Word, isInf a = true → isFinite b = true → flt a b = isNeg a ∧ flt b a = !isNeg a) ∧
  (∀ a b : Word, isInf a = true → isInf b = true → flt a b = (isNeg a && !isNeg b)) ∧
  (∀ a b : Word, isNaN a = false → isNaN b = false → fle a b = !flt b a) ∧
  (∀ a b : Word, isNaN a = true ∨ isNaN b = true → flt a b = false ∧ fle a b = false) ∧
  (∀ a b : Word, fgt a b = flt b a) ∧
  (∀ a b : Word, feq a b = (fle a b && fle b a)) ∧
  (∀ a b : Word, isFinite a = true → isFinite b = true → feq a b = decide (signedUnits a = signedUnits b)) ∧
  (∀ a b : Word, fbitsEq a b = true ↔ a = b)

/-- R17: `int2f` is exact below `2^53`. -/
def Obligations.IntegerConversionIsExact : Prop :=
  ∀ n, n < 2 ^ 53 → isFinite (int2f n) = true ∧ signedUnits (int2f n) = n * unitScale

/-- Results with an infinite operand that are no NaN, and the signs of zeros: the IEEE 754 details that R12 takes with "the
IEEE 754 binary64 operation" and does not spell out (log entry 14). -/
def Obligations.InfiniteOperandsAndZeroSigns : Prop :=
  (∀ a b : Word, isInf a = true → isFinite b = true ∨ (isInf b = true ∧ isNeg a = isNeg b) →
    Gives (fadd a b) a ∧ Gives (fadd b a) a) ∧
  (∀ a b : Word, isInf a = true → isFinite b = true ∨ (isInf b = true ∧ isNeg a ≠ isNeg b) →
    Gives (fsub a b) a ∧ Gives (fsub b a) (fneg a)) ∧
  (∀ a b : Word, isInf a = true → isNaN b = false → isZero b = false →
    Gives (fmul a b) (ofSignMag (isNeg a != isNeg b) infBits) ∧
    Gives (fmul b a) (ofSignMag (isNeg a != isNeg b) infBits)) ∧
  (∀ a b : Word, isInf a = true → isFinite b = true →
    Gives (fdiv a b) (ofSignMag (isNeg a != isNeg b) infBits) ∧ Gives (fdiv b a) (ofSignMag (isNeg a != isNeg b) 0)) ∧
  (∀ a b : Word, isFinite a = true → isFinite b = true →
    (signedUnits a + signedUnits b = 0 → Gives (fadd a b) (ofSignMag (isNeg a && isNeg b) 0)) ∧
    (signedUnits a - signedUnits b = 0 → Gives (fsub a b) (ofSignMag (isNeg a && !isNeg b) 0)) ∧
    (∃ m, m ≤ infBits ∧ Gives (fmul a b) (ofSignMag (isNeg a != isNeg b) m)) ∧
    (isZero b = false → ∃ m, m ≤ infBits ∧ Gives (fdiv a b) (ofSignMag (isNeg a != isNeg b) m)))

/-- The constants of R15, as words and as values; `fneg` and `fabs` (R12), which touch bit 63 alone; and the elementary
functions, which answer the word Config gives, or where it is a NaN a fresh draw (R13, R14; log entries 1, 2). -/
def Obligations.ConstantsSignBitAndElementaryFunctions : Prop :=
  (fPi = 0x400921FB54442D18 ∧ f0 = 0x0000000000000000 ∧ fHalf = 0x3FE0000000000000 ∧ f1 = 0x3FF0000000000000 ∧
    f2 = 0x4000000000000000 ∧ f4 = 0x4010000000000000 ∧ f10 = 0x4024000000000000 ∧ fFloor = 0xC06F400000000000) ∧
  (signedUnits f0 = 0 ∧ 2 * signedUnits fHalf = unitScale ∧ signedUnits f1 = unitScale ∧ signedUnits f2 = 2 * unitScale ∧
    signedUnits f4 = 4 * unitScale ∧ signedUnits f10 = 10 * unitScale ∧ signedUnits fFloor = -250 * unitScale) ∧
  (∀ (a : Word) (i : Nat), i < 64 →
    (fneg a).getLsbD i = (if i = 63 then !a.getLsbD i else a.getLsbD i) ∧
    (fabs a).getLsbD i = (if i = 63 then false else a.getLsbD i)) ∧
  ∀ (x : Word) (n : Nat),
    let answers (f : Draw Word) (w : Word) : Prop :=
      runDraw f n = if isNaN w then (quietNaN (Config.nanBits n), n + 1) else (w, n)
    answers (ftan x) (Config.tan x) ∧ answers (fsin x) (Config.sin x) ∧ answers (fcos x) (Config.cos x) ∧
    answers (flog10 x) (Config.log10 x)
end

