-- ==== Sys2Proof/Laws/Draw.lean ====
section
/-! SUPPORT. Running computations that may draw NaNs: one equation per construction (kept from being used as definitional
unfoldings, which the kernel would have to replay), and the induction over a loop packaged once. -/

namespace Sys2Proof.Machine

@[simp] theorem runDraw_pure {α : Type} (a : α) (n : Nat) : runDraw (pure a) n = (a, n) := (rfl)

@[simp] theorem runDraw_bind {α β : Type} (x : Draw α) (f : α → Draw β) (n : Nat) :
    runDraw (x >>= f) n = runDraw (f (runDraw x n).1) (runDraw x n).2 := (rfl)

@[simp] theorem runDraw_drawNaN (n : Nat) : runDraw drawNaN n = (quietNaN (Config.nanBits n), n + 1) := (rfl)

theorem runDraw_ite {α : Type} (c : Prop) [Decidable c] (x y : Draw α) (n : Nat) :
    runDraw (if c then x else y) n = if c then runDraw x n else runDraw y n := by
  split <;> rfl

/-- A loop keeps what each of its rounds keeps. -/
theorem runDraw_foldlM_keeps {α β : Type} (P : β → Prop) (f : β → α → Draw β) (l : List α)
    (hf : ∀ b a n, a ∈ l → P b → P (runDraw (f b a) n).1) (b : β) (n : Nat) (hb : P b) :
    P (runDraw (l.foldlM f b) n).1 := by
  induction l generalizing b n with
  | nil => exact hb
  | cons a l ih =>
    rw [List.foldlM_cons, runDraw_bind]
    exact ih (fun b a' n ha hb => hf b a' n (List.mem_cons_of_mem _ ha) hb) _ _ (hf b a n List.mem_cons_self hb)

/-- The last round of a loop over `0..m`. -/
theorem runDraw_foldlM_range_succ {β : Type} (f : β → Nat → Draw β) (m : Nat) (b : β) (n : Nat) :
    runDraw ((List.range (m + 1)).foldlM f b) n =
      runDraw (f (runDraw ((List.range m).foldlM f b) n).1 m) (runDraw ((List.range m).foldlM f b) n).2 := by
  rw [List.range_succ, List.foldlM_append]
  rfl

/-- Two loops over the same rounds stay related when each round keeps the relation, whatever the counters. -/
theorem runDraw_foldlM_rel {α β γ : Type} (R : β × Nat → γ × Nat → Prop) (f : β → α → Draw β) (g : γ → α → Draw γ)
    (l : List α) (hfg : ∀ b c m n a, a ∈ l → R (b, m) (c, n) → R (runDraw (f b a) m) (runDraw (g c a) n))
    (b : β) (c : γ) (m n : Nat) (h : R (b, m) (c, n)) :
    R (runDraw (l.foldlM f b) m) (runDraw (l.foldlM g c) n) := by
  induction l generalizing b c m n with
  | nil => exact h
  | cons a l ih =>
    rw [List.foldlM_cons, List.foldlM_cons, runDraw_bind, runDraw_bind]
    exact ih (fun b c m n a' ha => hfg b c m n a' (List.mem_cons_of_mem _ ha)) _ _ _ _
      (hfg b c m n a List.mem_cons_self h)

end Sys2Proof.Machine
end

