-- ==== Sys2Proof/Laws/WordMem.lean ====
section
/-! SUPPORT. The laws of the word files: read after write, and that every operation keeps the canonical form. -/

namespace Sys2Proof.Machine

@[simp] theorem WordMem.read_zeros (i : Nat) : WordMem.read WordMem.zeros i = f0 := rfl

theorem WordMem.read_write_same (m : WordMem) (i : Nat) (v : Word) (lo : Nat) (h : WordMem.wfFrom lo m = true) :
    (WordMem.write m i v).read i = v := by
  induction m generalizing lo with
  | nil => by_cases hv : v = f0 <;> simp [WordMem.write, WordMem.read, hv]
  | cons e m ih =>
    obtain ⟨j, w⟩ := e
    simp only [WordMem.wfFrom, Bool.and_eq_true, decide_eq_true_eq] at h
    obtain ⟨⟨_, hw⟩, hm⟩ := h
    have unlisted : ∀ (m : WordMem) (lo : Nat), WordMem.wfFrom lo m = true → ∀ i, i < lo → m.read i = f0 := by
      intro m
      induction m with
      | nil => intros; rfl
      | cons e m ih' =>
        obtain ⟨j, w⟩ := e
        intro lo h i hi
        simp only [WordMem.wfFrom, Bool.and_eq_true, decide_eq_true_eq] at h
        have : j ≠ i := by omega
        simp only [WordMem.read, this, if_false]
        exact ih' _ h.2 i (by omega)
    unfold WordMem.write
    by_cases h1 : i < j
    · by_cases hv : v = f0
      · have hne : j ≠ i := by omega
        simp only [h1, hv, if_true, WordMem.read, hne, if_false]
        exact unlisted m (j + 1) hm i (by omega)
      · simp [h1, hv, WordMem.read]
    · by_cases h2 : i = j
      · subst h2
        by_cases hv : v = f0
        · simp only [h1, hv, if_true, if_false]
          exact unlisted m (i + 1) hm i (by omega)
        · simp [hv, WordMem.read]
      · have hne : j ≠ i := fun h => h2 h.symm
        simp only [h1, h2, if_false, WordMem.read, hne]
        exact ih _ hm

theorem WordMem.read_write_ne (m : WordMem) (i j : Nat) (v : Word) (h : i ≠ j) :
    (WordMem.write m i v).read j = m.read j := by
  induction m with
  | nil => by_cases hv : v = f0 <;> simp [WordMem.write, WordMem.read, hv, h]
  | cons e m ih =>
    obtain ⟨k, w⟩ := e
    unfold WordMem.write
    by_cases h1 : i < k
    · by_cases hv : v = f0 <;> simp [h1, hv, WordMem.read, h]
    · by_cases h2 : i = k
      · subst h2
        by_cases hv : v = f0 <;> simp [hv, WordMem.read, h]
      · simp only [h1, h2, if_false, WordMem.read, ih]

/-- Below the first listed index everything reads `+0.0`. -/
theorem WordMem.read_of_lt_lo (m : WordMem) (lo i : Nat) (h : WordMem.wfFrom lo m = true) (hi : i < lo) :
    m.read i = f0 := by
  induction m generalizing lo with
  | nil => rfl
  | cons e m ih =>
    obtain ⟨j, w⟩ := e
    simp only [WordMem.wfFrom, Bool.and_eq_true, decide_eq_true_eq] at h
    have : j ≠ i := by omega
    simp only [WordMem.read, this, if_false]
    exact ih _ h.2 (by omega)

theorem WordMem.wfFrom_mono (m : WordMem) (lo lo' : Nat) (h : WordMem.wfFrom lo m = true) (hle : lo' ≤ lo) :
    WordMem.wfFrom lo' m = true := by
  cases m with
  | nil => rfl
  | cons e m =>
    obtain ⟨j, w⟩ := e
    simp only [WordMem.wfFrom, Bool.and_eq_true, decide_eq_true_eq] at h ⊢
    exact ⟨⟨by omega, h.1.2⟩, h.2⟩

theorem WordMem.wfFrom_write (m : WordMem) (lo i : Nat) (v : Word) (h : WordMem.wfFrom lo m = true) (hi : lo ≤ i) :
    WordMem.wfFrom lo (WordMem.write m i v) = true := by
  induction m generalizing lo with
  | nil => by_cases hv : v = f0 <;> simp [WordMem.write, WordMem.wfFrom, hv, hi]
  | cons e m ih =>
    obtain ⟨j, w⟩ := e
    have h' := h
    simp only [WordMem.wfFrom, Bool.and_eq_true, decide_eq_true_eq] at h
    obtain ⟨⟨hj, hw⟩, hm⟩ := h
    unfold WordMem.write
    by_cases h1 : i < j
    · by_cases hv : v = f0
      · simpa [h1, hv] using h'
      · simp only [h1, hv, if_true, if_false, WordMem.wfFrom, Bool.and_eq_true, decide_eq_true_eq, bne_iff_ne, ne_eq,
          not_false_iff]
        exact ⟨⟨hi, trivial⟩, ⟨by omega, by simpa using hw⟩, hm⟩
    · by_cases h2 : i = j
      · subst h2
        by_cases hv : v = f0
        · simp only [h1, hv, if_true, if_false]
          exact WordMem.wfFrom_mono m _ _ hm (by omega)
        · simp only [h1, hv, if_true, if_false, WordMem.wfFrom, Bool.and_eq_true, decide_eq_true_eq, bne_iff_ne, ne_eq,
            not_false_iff]
          exact ⟨⟨hi, trivial⟩, hm⟩
      · simp only [h1, h2, if_false, WordMem.wfFrom, Bool.and_eq_true, decide_eq_true_eq]
        exact ⟨⟨hj, hw⟩, ih _ hm (by omega)⟩

@[simp] theorem WordMem.wf_zeros : WordMem.wf WordMem.zeros = true := rfl

/-- Writing keeps the canonical form. -/
theorem WordMem.wf_write (m : WordMem) (i : Nat) (v : Word) (h : WordMem.wf m = true) :
    WordMem.wf (m.write i v) = true :=
  WordMem.wfFrom_write m 0 i v h (Nat.zero_le i)

/-- Read after write, in a canonical file. -/
theorem WordMem.read_write (m : WordMem) (i j : Nat) (v : Word) (h : WordMem.wf m = true) :
    (m.write i v).read j = if i = j then v else m.read j := by
  by_cases hij : i = j
  · subst hij
    simpa using WordMem.read_write_same m i v 0 h
  · simpa [hij] using WordMem.read_write_ne m i j v hij

/-- Two canonical files that read alike are the same list. -/
theorem WordMem.ext_of_wfFrom (m m' : WordMem) (lo : Nat) (h : WordMem.wfFrom lo m = true)
    (h' : WordMem.wfFrom lo m' = true) (hr : ∀ i, m.read i = m'.read i) : m = m' := by
  induction m generalizing m' lo with
  | nil =>
    cases m' with
    | nil => rfl
    | cons e m' =>
      obtain ⟨j, w⟩ := e
      simp only [WordMem.wfFrom, Bool.and_eq_true, bne_iff_ne] at h'
      have := hr j
      simp only [WordMem.read, if_true] at this
      exact absurd this.symm h'.1.2
  | cons e m ih =>
    obtain ⟨j, w⟩ := e
    simp only [WordMem.wfFrom, Bool.and_eq_true, decide_eq_true_eq, bne_iff_ne] at h
    cases m' with
    | nil =>
      have := hr j
      simp only [WordMem.read, if_true] at this
      exact absurd this h.1.2
    | cons e' m' =>
      obtain ⟨j', w'⟩ := e'
      simp only [WordMem.wfFrom, Bool.and_eq_true, decide_eq_true_eq, bne_iff_ne] at h'
      have hjj : j = j' := by
        rcases Nat.lt_trichotomy j j' with hlt | heq | hgt
        · exfalso
          have := hr j
          have hne : j' ≠ j := by omega
          simp only [WordMem.read, if_true, hne, if_false] at this
          exact h.1.2 (this.trans (WordMem.read_of_lt_lo m' (j' + 1) j h'.2 (by omega)))
        · exact heq
        · exfalso
          have := hr j'
          have hne : j ≠ j' := by omega
          simp only [WordMem.read, if_true, hne, if_false] at this
          exact h'.1.2 (this.symm.trans (WordMem.read_of_lt_lo m (j + 1) j' h.2 (by omega)))
      subst hjj
      have hw : w = w' := by simpa [WordMem.read] using hr j
      subst hw
      congr 1
      refine ih m' (j + 1) h.2 h'.2 fun i => ?_
      by_cases hi : j = i
      · subst hi
        rw [WordMem.read_of_lt_lo m (j + 1) j h.2 (by omega), WordMem.read_of_lt_lo m' (j + 1) j h'.2 (by omega)]
      · simpa [WordMem.read, hi] using hr i

/-- Equal memories are equal data. -/
theorem WordMem.ext (m m' : WordMem) (h : m.wf = true) (h' : m'.wf = true) (hr : ∀ i, m.read i = m'.read i) : m = m' :=
  WordMem.ext_of_wfFrom m m' 0 h h' hr

/-! ## Bounds -/

@[simp] theorem WordMem.below_zeros (size : Nat) : WordMem.below size WordMem.zeros = true := rfl

theorem WordMem.below_write (size : Nat) (m : WordMem) (i : Nat) (v : Word) (h : m.below size = true) (hi : i < size) :
    (m.write i v).below size = true := by
  induction m with
  | nil => by_cases hv : v = f0 <;> simp [WordMem.write, WordMem.below, hv, hi]
  | cons e m ih =>
    obtain ⟨j, w⟩ := e
    simp only [WordMem.below, List.all_cons, Bool.and_eq_true, decide_eq_true_eq] at h ih ⊢
    unfold WordMem.write
    by_cases h1 : i < j
    · by_cases hv : v = f0 <;> simp [h1, hv, hi, h.1] <;> simpa using h.2
    · by_cases h2 : i = j
      · by_cases hv : v = f0
        · simp only [h2, hv, if_true, lt_irrefl, if_false]
          exact h.2
        · simp only [h2, hv, if_true, lt_irrefl, if_false, List.all_cons, Bool.and_eq_true, decide_eq_true_eq]
          exact h
      · simp only [h1, h2, if_false, List.all_cons, Bool.and_eq_true, decide_eq_true_eq]
        exact ⟨h.1, ih h.2⟩

/-- Outside its bound a file reads `+0.0`. -/
theorem WordMem.read_of_below (size : Nat) (m : WordMem) (i : Nat) (h : m.below size = true) (hi : size ≤ i) :
    m.read i = f0 := by
  induction m with
  | nil => rfl
  | cons e m ih =>
    obtain ⟨j, w⟩ := e
    simp only [WordMem.below, List.all_cons, Bool.and_eq_true, decide_eq_true_eq] at h ih
    have : j ≠ i := by omega
    simp only [WordMem.read, this, if_false]
    exact ih h.2

/-! ## Filling a block -/

theorem WordMem.fill_zero (m : WordMem) (value : Nat → Word) : m.fill 0 value = m := rfl

theorem WordMem.fill_succ (m : WordMem) (n : Nat) (value : Nat → Word) :
    m.fill (n + 1) value = (m.fill n value).write n (value n) := by
  simp [WordMem.fill, List.range_succ]

theorem WordMem.wf_fill (m : WordMem) (n : Nat) (value : Nat → Word) (h : m.wf = true) : (m.fill n value).wf = true := by
  induction n with
  | zero => exact h
  | succ n ih => rw [WordMem.fill_succ]; exact WordMem.wf_write _ _ _ ih

theorem WordMem.below_fill (size : Nat) (m : WordMem) (n : Nat) (value : Nat → Word) (h : m.below size = true)
    (hn : n ≤ size) : (m.fill n value).below size = true := by
  induction n with
  | zero => exact h
  | succ n ih => rw [WordMem.fill_succ]; exact WordMem.below_write _ _ _ _ (ih (by omega)) (by omega)

/-- What a filled block reads as. -/
theorem WordMem.read_fill (m : WordMem) (n : Nat) (value : Nat → Word) (h : m.wf = true) (i : Nat) :
    (m.fill n value).read i = if i < n then value i else m.read i := by
  induction n with
  | zero => simp [WordMem.fill_zero]
  | succ n ih =>
    rw [WordMem.fill_succ, WordMem.read_write _ _ _ _ (WordMem.wf_fill m n value h), ih]
    by_cases h1 : n = i
    · subst h1; simp
    · by_cases h2 : i < n
      · have : i < n + 1 := by omega
        simp [h1, h2, this]
      · have : ¬ i < n + 1 := by omega
        simp [h1, h2, this]

end Sys2Proof.Machine
end

