-- ==== Sys2Proof/Laws/Engine.lean ====
section
/-! SUPPORT. What the cascade engine can do to the delay lines: the shift of one stage word by word, that nothing outside
the active shape is touched, and that the canonical form is kept. -/

namespace Sys2Proof.Machine

/-! ## The shift (41_engine.md R126) -/

/-- Moving `n` taps of stage `k` one place to the right. -/
def shiftTaps (k n : Nat) (line : WordMem) : WordMem :=
  (List.range n).reverse.foldl (fun m j => m.write (4 * k + (j + 1)) (tapAt m k j)) line

theorem shiftIn_eq (line : WordMem) (k nc : Nat) (w0 : Word) :
    shiftIn line k nc w0 = (shiftTaps k (nc - 1) line).write (4 * k) w0 := rfl

theorem shiftTaps_zero (k : Nat) (line : WordMem) : shiftTaps k 0 line = line := rfl

theorem shiftTaps_succ (k n : Nat) (line : WordMem) :
    shiftTaps k (n + 1) line = shiftTaps k n (line.write (4 * k + (n + 1)) (tapAt line k n)) := by
  simp [shiftTaps, List.range_succ]

theorem wf_shiftTaps (k n : Nat) (line : WordMem) (h : line.wf = true) : (shiftTaps k n line).wf = true := by
  induction n generalizing line with
  | zero => exact h
  | succ n ih => rw [shiftTaps_succ]; exact ih _ (WordMem.wf_write _ _ _ h)

theorem below_shiftTaps (size k n : Nat) (line : WordMem) (h : line.below size = true) (hn : 4 * k + n < size) :
    (shiftTaps k n line).below size = true := by
  induction n generalizing line with
  | zero => exact h
  | succ n ih => rw [shiftTaps_succ]; exact ih _ (WordMem.below_write _ _ _ _ h (by omega)) (by omega)

theorem read_shiftTaps (k n : Nat) (line : WordMem) (h : line.wf = true) (i : Nat) :
    (shiftTaps k n line).read i = if 4 * k < i ∧ i ≤ 4 * k + n then line.read (i - 1) else line.read i := by
  induction n generalizing line with
  | zero =>
    have : ¬ (4 * k < i ∧ i ≤ 4 * k + 0) := by omega
    rw [shiftTaps_zero, if_neg this]
  | succ n ih =>
    rw [shiftTaps_succ, ih _ (WordMem.wf_write _ _ _ h), WordMem.read_write _ _ _ _ h, WordMem.read_write _ _ _ _ h]
    by_cases h1 : 4 * k < i ∧ i ≤ 4 * k + n
    · have h2 : 4 * k < i ∧ i ≤ 4 * k + (n + 1) := by omega
      have h3 : ¬ (4 * k + (n + 1) = i - 1) := by omega
      rw [if_pos h1, if_pos h2, if_neg h3]
    · rw [if_neg h1]
      by_cases h4 : 4 * k + (n + 1) = i
      · have h2 : 4 * k < i ∧ i ≤ 4 * k + (n + 1) := by omega
        have h5 : i - 1 = 4 * k + n := by omega
        rw [if_pos h4, if_pos h2, h5]
        rfl
      · have h2 : ¬ (4 * k < i ∧ i ≤ 4 * k + (n + 1)) := by omega
        rw [if_neg h4, if_neg h2]

theorem wf_shiftIn (line : WordMem) (k nc : Nat) (w0 : Word) (h : line.wf = true) :
    (shiftIn line k nc w0).wf = true :=
  WordMem.wf_write _ _ _ (wf_shiftTaps _ _ _ h)

theorem below_shiftIn (size : Nat) (line : WordMem) (k nc : Nat) (w0 : Word) (h : line.below size = true)
    (hk : 4 * k + (nc - 1) < size) : (shiftIn line k nc w0).below size = true :=
  WordMem.below_write _ _ _ _ (below_shiftTaps _ _ _ _ h hk) (by omega)

/-- The delay lines after the shift, word by word. -/
theorem read_shiftIn (line : WordMem) (k nc : Nat) (w0 : Word) (h : line.wf = true) (i : Nat) :
    (shiftIn line k nc w0).read i =
      if i = 4 * k then w0
      else if 4 * k < i ∧ i ≤ 4 * k + (nc - 1) then line.read (i - 1) else line.read i := by
  rw [shiftIn_eq, WordMem.read_write _ _ _ _ (wf_shiftTaps _ _ _ h), read_shiftTaps _ _ _ h]
  by_cases h1 : i = 4 * k
  · rw [if_pos h1, if_pos h1.symm]
  · rw [if_neg h1, if_neg fun h => h1 h.symm]

/-- A stage shifts only its own first `nc` taps, whatever the file's form. -/
theorem read_shiftIn_other (line : WordMem) (k nc : Nat) (w0 : Word) (i : Nat) (hi : i < 4 * k ∨ 4 * k + (nc - 1) < i) :
    (shiftIn line k nc w0).read i = line.read i := by
  have shift : ∀ n (line : WordMem), (i < 4 * k ∨ 4 * k + n < i) → (shiftTaps k n line).read i = line.read i := by
    intro n
    induction n with
    | zero => intros; rfl
    | succ n ih =>
      intro line h
      rw [shiftTaps_succ, ih _ (by omega), WordMem.read_write_ne _ _ _ _ (by omega)]
  rw [shiftIn_eq, WordMem.read_write_ne _ _ _ _ (by omega), shift _ _ hi]

/-! ## One stage and the cascade (R121) -/

/-- The delay lines after a stage are those before it with an accumulator shifted in. -/
theorem engineStage_line (d : Design) (k : Nat) (xl : Word × WordMem) (n : Nat) :
    ∃ w0, (runDraw (engineStage d k xl) n).1.2 = shiftIn xl.2 k d.numCoef.toNat w0 := ⟨_, rfl⟩

/-- What every stage of the design keeps of the delay lines, a sample keeps. -/
theorem engineApply_keeps (P : WordMem → Prop) (d : Design) (line : WordMem) (x : Word) (n : Nat)
    (hstage : ∀ k line w0, k < d.numStages.toNat → P line → P (shiftIn line k d.numCoef.toNat w0)) (h : P line) :
    P (runDraw (engineApply d line x) n).1.2 := by
  unfold engineApply
  split
  · exact h
  · refine runDraw_foldlM_keeps (fun xl : Word × WordMem => P xl.2) _ _ ?_ _ _ h
    intro xl k n hk hxl
    obtain ⟨w0, hw⟩ := engineStage_line d k xl n
    rw [hw]
    exact hstage k _ w0 (List.mem_range.mp hk) hxl

theorem wf_engineApply (d : Design) (line : WordMem) (x : Word) (n : Nat) (h : line.wf = true) :
    (runDraw (engineApply d line x) n).1.2.wf = true :=
  engineApply_keeps (fun m => m.wf = true) d line x n (fun _ _ _ _ h => wf_shiftIn _ _ _ _ h) h

/-- The number of taps a design of legal shape has. -/
theorem Design.Shape.numCoef_le {smax : Nat} {d : Design} (h : d.Shape smax) : d.numCoef.toNat ≤ 4 := by
  rcases hm : d.mode with _ | _ | _ | _
  · rw [h.coef_zero_iff.mp hm]; decide
  · rw [h.coef_two_iff.mpr (.inl hm)]; decide
  · rw [h.coef_two_iff.mpr (.inr hm)]; decide
  · rw [h.coef_four_iff.mpr hm]; decide

/-- A sample keeps the delay lines inside their space. -/
theorem fileOk_engineApply (smax : Nat) (d : Design) (line : WordMem) (x : Word) (n : Nat) (hd : d.Shape smax)
    (h : FileOk (4 * smax) line) : FileOk (4 * smax) (runDraw (engineApply d line x) n).1.2 :=
  engineApply_keeps (FileOk (4 * smax)) d line x n
    (fun k line w0 hk h => ⟨wf_shiftIn _ _ _ _ h.1, below_shiftIn _ _ _ _ _ h.2 (by
      have h1 := hd.stages_le
      have h2 := hd.numCoef_le
      omega)⟩) h

/-- A sample leaves every tap outside the active shape alone (R126). -/
theorem engineApply_inactive (smax : Nat) (d : Design) (line : WordMem) (x : Word) (n : Nat) (hd : d.Shape smax)
    (k j : Nat) (h : InactiveTap d k j) : tapAt (runDraw (engineApply d line x) n).1.2 k j = tapAt line k j := by
  by_cases hm : d.mode = .bypass
  · simp [engineApply, hm]
  · have hz : d.numCoef.toNat ≠ 0 := fun h0 =>
      hm (hd.coef_zero_iff.mpr (BitVec.eq_of_toNat_eq (by simpa using h0)))
    refine engineApply_keeps (fun m => tapAt m k j = tapAt line k j) d line x n ?_ rfl
    intro k' m w0 hk' hline
    rw [← hline]
    refine read_shiftIn_other _ _ _ _ _ ?_
    have := hd.numCoef_le
    have := h.1
    have := h.2
    omega

/-- In Bypass a sample is answered unchanged and nothing is drawn (R122). -/
theorem runDraw_engineApply_bypass (d : Design) (line : WordMem) (x : Word) (n : Nat) (h : d.mode = .bypass) :
    runDraw (engineApply d line x) n = ((x, line), n) := by
  simp [engineApply, h]

end Sys2Proof.Machine
end

