-- ==== Sys2Proof/Laws/State.lean ====
section
/-! SUPPORT. One equation per field for every operation that rewrites the state: what it leaves alone is read off here,
and no later proof unfolds a record update. -/

namespace Sys2Proof.Machine

variable (s : State)

/-! ## respondOk -/

@[simp] theorem respondOk_par (r : Word) : (respondOk r s).par = s.par := rfl
@[simp] theorem respondOk_cfg (r : Word) : (respondOk r s).cfg = s.cfg := rfl
@[simp] theorem respondOk_design (r : Word) : (respondOk r s).design = s.design := rfl
@[simp] theorem respondOk_delayLine (r : Word) : (respondOk r s).delayLine = s.delayLine := rfl
@[simp] theorem respondOk_delayValid (r : Word) : (respondOk r s).delayValid = s.delayValid := rfl
@[simp] theorem respondOk_respValid (r : Word) : (respondOk r s).respValid = s.respValid := rfl
@[simp] theorem respondOk_err (r : Word) : (respondOk r s).err = s.err := rfl
@[simp] theorem respondOk_errCode (r : Word) : (respondOk r s).errCode = s.errCode := rfl
@[simp] theorem respondOk_delay (r : Word) : (respondOk r s).delay = s.delay := rfl
@[simp] theorem respondOk_respLen (r : Word) : (respondOk r s).respLen = s.respLen := rfl
@[simp] theorem respondOk_ir (r : Word) : (respondOk r s).ir = s.ir := rfl
@[simp] theorem respondOk_re (r : Word) : (respondOk r s).re = s.re := rfl
@[simp] theorem respondOk_im (r : Word) : (respondOk r s).im = s.im := rfl
@[simp] theorem respondOk_resp (r : Word) : (respondOk r s).resp = s.resp := rfl
@[simp] theorem respondOk_rsp (r : Word) : (respondOk r s).rsp = some ⟨.ok, r⟩ := rfl
@[simp] theorem respondOk_inbox (r : Word) : (respondOk r s).inbox = s.inbox := rfl
@[simp] theorem respondOk_draws (r : Word) : (respondOk r s).draws = s.draws := rfl

/-! ## raiseErr -/

@[simp] theorem raiseErr_par (e : ErrKind) : (raiseErr e s).par = s.par := rfl
@[simp] theorem raiseErr_cfg (e : ErrKind) : (raiseErr e s).cfg = s.cfg := rfl
@[simp] theorem raiseErr_design (e : ErrKind) : (raiseErr e s).design = s.design := rfl
@[simp] theorem raiseErr_delayLine (e : ErrKind) : (raiseErr e s).delayLine = s.delayLine := rfl
@[simp] theorem raiseErr_delayValid (e : ErrKind) : (raiseErr e s).delayValid = s.delayValid := rfl
@[simp] theorem raiseErr_respValid (e : ErrKind) : (raiseErr e s).respValid = s.respValid := rfl
@[simp] theorem raiseErr_err (e : ErrKind) : (raiseErr e s).err = true := rfl
@[simp] theorem raiseErr_errCode (e : ErrKind) : (raiseErr e s).errCode = if s.err then s.errCode else e.code := rfl
@[simp] theorem raiseErr_delay (e : ErrKind) : (raiseErr e s).delay = s.delay := rfl
@[simp] theorem raiseErr_respLen (e : ErrKind) : (raiseErr e s).respLen = s.respLen := rfl
@[simp] theorem raiseErr_ir (e : ErrKind) : (raiseErr e s).ir = s.ir := rfl
@[simp] theorem raiseErr_re (e : ErrKind) : (raiseErr e s).re = s.re := rfl
@[simp] theorem raiseErr_im (e : ErrKind) : (raiseErr e s).im = s.im := rfl
@[simp] theorem raiseErr_resp (e : ErrKind) : (raiseErr e s).resp = s.resp := rfl
@[simp] theorem raiseErr_rsp (e : ErrKind) : (raiseErr e s).rsp = some ⟨.err e, 0⟩ := rfl
@[simp] theorem raiseErr_inbox (e : ErrKind) : (raiseErr e s).inbox = s.inbox := rfl
@[simp] theorem raiseErr_draws (e : ErrKind) : (raiseErr e s).draws = s.draws := rfl

/-! ## clearErr -/

@[simp] theorem clearErr_par : (clearErr s).par = s.par := rfl
@[simp] theorem clearErr_cfg : (clearErr s).cfg = s.cfg := rfl
@[simp] theorem clearErr_design : (clearErr s).design = s.design := rfl
@[simp] theorem clearErr_delayLine : (clearErr s).delayLine = s.delayLine := rfl
@[simp] theorem clearErr_delayValid : (clearErr s).delayValid = s.delayValid := rfl
@[simp] theorem clearErr_respValid : (clearErr s).respValid = s.respValid := rfl
@[simp] theorem clearErr_err : (clearErr s).err = false := rfl
@[simp] theorem clearErr_errCode : (clearErr s).errCode = 0 := rfl
@[simp] theorem clearErr_delay : (clearErr s).delay = s.delay := rfl
@[simp] theorem clearErr_respLen : (clearErr s).respLen = s.respLen := rfl
@[simp] theorem clearErr_ir : (clearErr s).ir = s.ir := rfl
@[simp] theorem clearErr_re : (clearErr s).re = s.re := rfl
@[simp] theorem clearErr_im : (clearErr s).im = s.im := rfl
@[simp] theorem clearErr_resp : (clearErr s).resp = s.resp := rfl
@[simp] theorem clearErr_rsp : (clearErr s).rsp = s.rsp := rfl
@[simp] theorem clearErr_inbox : (clearErr s).inbox = s.inbox := rfl
@[simp] theorem clearErr_draws : (clearErr s).draws = s.draws := rfl

/-! ## takeResponse -/

@[simp] theorem takeResponse_par : (takeResponse s).par = s.par := rfl
@[simp] theorem takeResponse_cfg : (takeResponse s).cfg = s.cfg := rfl
@[simp] theorem takeResponse_design : (takeResponse s).design = s.design := rfl
@[simp] theorem takeResponse_delayLine : (takeResponse s).delayLine = s.delayLine := rfl
@[simp] theorem takeResponse_delayValid : (takeResponse s).delayValid = s.delayValid := rfl
@[simp] theorem takeResponse_respValid : (takeResponse s).respValid = s.respValid := rfl
@[simp] theorem takeResponse_err : (takeResponse s).err = s.err := rfl
@[simp] theorem takeResponse_errCode : (takeResponse s).errCode = s.errCode := rfl
@[simp] theorem takeResponse_delay : (takeResponse s).delay = s.delay := rfl
@[simp] theorem takeResponse_respLen : (takeResponse s).respLen = s.respLen := rfl
@[simp] theorem takeResponse_ir : (takeResponse s).ir = s.ir := rfl
@[simp] theorem takeResponse_re : (takeResponse s).re = s.re := rfl
@[simp] theorem takeResponse_im : (takeResponse s).im = s.im := rfl
@[simp] theorem takeResponse_resp : (takeResponse s).resp = s.resp := rfl
@[simp] theorem takeResponse_rsp : (takeResponse s).rsp = none := rfl
@[simp] theorem takeResponse_inbox : (takeResponse s).inbox = s.inbox := rfl
@[simp] theorem takeResponse_draws : (takeResponse s).draws = s.draws := rfl

/-! ## pushEvent -/

@[simp] theorem pushEvent_par (e : HostEvent) : (pushEvent e s).par = s.par := rfl
@[simp] theorem pushEvent_cfg (e : HostEvent) : (pushEvent e s).cfg = s.cfg := rfl
@[simp] theorem pushEvent_design (e : HostEvent) : (pushEvent e s).design = s.design := rfl
@[simp] theorem pushEvent_delayLine (e : HostEvent) : (pushEvent e s).delayLine = s.delayLine := rfl
@[simp] theorem pushEvent_delayValid (e : HostEvent) : (pushEvent e s).delayValid = s.delayValid := rfl
@[simp] theorem pushEvent_respValid (e : HostEvent) : (pushEvent e s).respValid = s.respValid := rfl
@[simp] theorem pushEvent_err (e : HostEvent) : (pushEvent e s).err = s.err := rfl
@[simp] theorem pushEvent_errCode (e : HostEvent) : (pushEvent e s).errCode = s.errCode := rfl
@[simp] theorem pushEvent_delay (e : HostEvent) : (pushEvent e s).delay = s.delay := rfl
@[simp] theorem pushEvent_respLen (e : HostEvent) : (pushEvent e s).respLen = s.respLen := rfl
@[simp] theorem pushEvent_ir (e : HostEvent) : (pushEvent e s).ir = s.ir := rfl
@[simp] theorem pushEvent_re (e : HostEvent) : (pushEvent e s).re = s.re := rfl
@[simp] theorem pushEvent_im (e : HostEvent) : (pushEvent e s).im = s.im := rfl
@[simp] theorem pushEvent_resp (e : HostEvent) : (pushEvent e s).resp = s.resp := rfl
@[simp] theorem pushEvent_rsp (e : HostEvent) : (pushEvent e s).rsp = s.rsp := rfl
@[simp] theorem pushEvent_inbox (e : HostEvent) : (pushEvent e s).inbox = e :: s.inbox := rfl
@[simp] theorem pushEvent_draws (e : HostEvent) : (pushEvent e s).draws = s.draws := rfl

/-! ## hardReset -/

@[simp] theorem hardReset_par : (hardReset s).par = s.par := rfl
@[simp] theorem hardReset_cfg : (hardReset s).cfg = State.reset.cfg := rfl
@[simp] theorem hardReset_design : (hardReset s).design = State.reset.design := rfl
@[simp] theorem hardReset_delayLine : (hardReset s).delayLine = State.reset.delayLine := rfl
@[simp] theorem hardReset_delayValid : (hardReset s).delayValid = State.reset.delayValid := rfl
@[simp] theorem hardReset_respValid : (hardReset s).respValid = State.reset.respValid := rfl
@[simp] theorem hardReset_err : (hardReset s).err = State.reset.err := rfl
@[simp] theorem hardReset_errCode : (hardReset s).errCode = State.reset.errCode := rfl
@[simp] theorem hardReset_delay : (hardReset s).delay = State.reset.delay := rfl
@[simp] theorem hardReset_respLen : (hardReset s).respLen = State.reset.respLen := rfl
@[simp] theorem hardReset_ir : (hardReset s).ir = State.reset.ir := rfl
@[simp] theorem hardReset_re : (hardReset s).re = State.reset.re := rfl
@[simp] theorem hardReset_im : (hardReset s).im = State.reset.im := rfl
@[simp] theorem hardReset_resp : (hardReset s).resp = State.reset.resp := rfl
@[simp] theorem hardReset_rsp : (hardReset s).rsp = State.reset.rsp := rfl
@[simp] theorem hardReset_inbox : (hardReset s).inbox = s.inbox := rfl
@[simp] theorem hardReset_draws : (hardReset s).draws = s.draws := rfl

/-! ## redesign -/

@[simp] theorem redesign_par : (redesign s).par = s.par := rfl
@[simp] theorem redesign_cfg : (redesign s).cfg = s.cfg := rfl
@[simp] theorem redesign_design : (redesign s).design = (runDraw (designOf s.par s.cfg) s.draws).1 := rfl
@[simp] theorem redesign_delayLine : (redesign s).delayLine = WordMem.zeros := rfl
@[simp] theorem redesign_delayValid : (redesign s).delayValid = false := rfl
@[simp] theorem redesign_respValid : (redesign s).respValid = false := rfl
@[simp] theorem redesign_err : (redesign s).err = s.err := rfl
@[simp] theorem redesign_errCode : (redesign s).errCode = s.errCode := rfl
@[simp] theorem redesign_delay : (redesign s).delay = s.delay := rfl
@[simp] theorem redesign_respLen : (redesign s).respLen = s.respLen := rfl
@[simp] theorem redesign_ir : (redesign s).ir = s.ir := rfl
@[simp] theorem redesign_re : (redesign s).re = s.re := rfl
@[simp] theorem redesign_im : (redesign s).im = s.im := rfl
@[simp] theorem redesign_resp : (redesign s).resp = s.resp := rfl
@[simp] theorem redesign_rsp : (redesign s).rsp = s.rsp := rfl
@[simp] theorem redesign_inbox : (redesign s).inbox = s.inbox := rfl
@[simp] theorem redesign_draws : (redesign s).draws = (runDraw (designOf s.par s.cfg) s.draws).2 := rfl

/-! ## setDelay -/

@[simp] theorem setDelay_par (d : Nat) : (setDelay d s).par = s.par := rfl
@[simp] theorem setDelay_cfg (d : Nat) : (setDelay d s).cfg = s.cfg := rfl
@[simp] theorem setDelay_design (d : Nat) : (setDelay d s).design = s.design := rfl
@[simp] theorem setDelay_delayLine (d : Nat) : (setDelay d s).delayLine = s.delayLine := rfl
@[simp] theorem setDelay_delayValid (d : Nat) : (setDelay d s).delayValid = true := rfl
@[simp] theorem setDelay_respValid (d : Nat) : (setDelay d s).respValid = s.respValid := rfl
@[simp] theorem setDelay_err (d : Nat) : (setDelay d s).err = s.err := rfl
@[simp] theorem setDelay_errCode (d : Nat) : (setDelay d s).errCode = s.errCode := rfl
@[simp] theorem setDelay_delay (d : Nat) : (setDelay d s).delay = BitVec.ofNat 32 d := rfl
@[simp] theorem setDelay_respLen (d : Nat) : (setDelay d s).respLen = s.respLen := rfl
@[simp] theorem setDelay_ir (d : Nat) : (setDelay d s).ir = s.ir := rfl
@[simp] theorem setDelay_re (d : Nat) : (setDelay d s).re = s.re := rfl
@[simp] theorem setDelay_im (d : Nat) : (setDelay d s).im = s.im := rfl
@[simp] theorem setDelay_resp (d : Nat) : (setDelay d s).resp = s.resp := rfl
@[simp] theorem setDelay_rsp (d : Nat) : (setDelay d s).rsp = s.rsp := rfl
@[simp] theorem setDelay_inbox (d : Nat) : (setDelay d s).inbox = s.inbox := rfl
@[simp] theorem setDelay_draws (d : Nat) : (setDelay d s).draws = s.draws := rfl

/-! ## setResp -/

@[simp] theorem setResp_par (h : Nat) (m : WordMem) : (setResp h m s).par = s.par := rfl
@[simp] theorem setResp_cfg (h : Nat) (m : WordMem) : (setResp h m s).cfg = s.cfg := rfl
@[simp] theorem setResp_design (h : Nat) (m : WordMem) : (setResp h m s).design = s.design := rfl
@[simp] theorem setResp_delayLine (h : Nat) (m : WordMem) : (setResp h m s).delayLine = s.delayLine := rfl
@[simp] theorem setResp_delayValid (h : Nat) (m : WordMem) : (setResp h m s).delayValid = s.delayValid := rfl
@[simp] theorem setResp_respValid (h : Nat) (m : WordMem) : (setResp h m s).respValid = true := rfl
@[simp] theorem setResp_err (h : Nat) (m : WordMem) : (setResp h m s).err = s.err := rfl
@[simp] theorem setResp_errCode (h : Nat) (m : WordMem) : (setResp h m s).errCode = s.errCode := rfl
@[simp] theorem setResp_delay (h : Nat) (m : WordMem) : (setResp h m s).delay = s.delay := rfl
@[simp] theorem setResp_respLen (h : Nat) (m : WordMem) : (setResp h m s).respLen = BitVec.ofNat 32 h := rfl
@[simp] theorem setResp_ir (h : Nat) (m : WordMem) : (setResp h m s).ir = s.ir := rfl
@[simp] theorem setResp_re (h : Nat) (m : WordMem) : (setResp h m s).re = s.re := rfl
@[simp] theorem setResp_im (h : Nat) (m : WordMem) : (setResp h m s).im = s.im := rfl
@[simp] theorem setResp_resp (h : Nat) (m : WordMem) : (setResp h m s).resp = m := rfl
@[simp] theorem setResp_rsp (h : Nat) (m : WordMem) : (setResp h m s).rsp = s.rsp := rfl
@[simp] theorem setResp_inbox (h : Nat) (m : WordMem) : (setResp h m s).inbox = s.inbox := rfl
@[simp] theorem setResp_draws (h : Nat) (m : WordMem) : (setResp h m s).draws = s.draws := rfl

/-! ## capture -/

@[simp] theorem capture_par (nfft : Nat) : (capture nfft s).par = s.par := rfl
@[simp] theorem capture_cfg (nfft : Nat) : (capture nfft s).cfg = s.cfg := rfl
@[simp] theorem capture_design (nfft : Nat) : (capture nfft s).design = s.design := rfl
@[simp] theorem capture_delayLine (nfft : Nat) : (capture nfft s).delayLine = s.delayLine := rfl
@[simp] theorem capture_delayValid (nfft : Nat) : (capture nfft s).delayValid = s.delayValid := rfl
@[simp] theorem capture_respValid (nfft : Nat) : (capture nfft s).respValid = s.respValid := rfl
@[simp] theorem capture_err (nfft : Nat) : (capture nfft s).err = s.err := rfl
@[simp] theorem capture_errCode (nfft : Nat) : (capture nfft s).errCode = s.errCode := rfl
@[simp] theorem capture_delay (nfft : Nat) : (capture nfft s).delay = s.delay := rfl
@[simp] theorem capture_respLen (nfft : Nat) : (capture nfft s).respLen = s.respLen := rfl
@[simp] theorem capture_ir (nfft : Nat) : (capture nfft s).ir = (runDraw (driveImpulse s.design nfft s.ir) s.draws).1.2 := rfl
@[simp] theorem capture_re (nfft : Nat) : (capture nfft s).re = s.re := rfl
@[simp] theorem capture_im (nfft : Nat) : (capture nfft s).im = s.im := rfl
@[simp] theorem capture_resp (nfft : Nat) : (capture nfft s).resp = s.resp := rfl
@[simp] theorem capture_rsp (nfft : Nat) : (capture nfft s).rsp = s.rsp := rfl
@[simp] theorem capture_inbox (nfft : Nat) : (capture nfft s).inbox = s.inbox := rfl
@[simp] theorem capture_draws (nfft : Nat) : (capture nfft s).draws = (runDraw (driveImpulse s.design nfft s.ir) s.draws).2 := rfl

/-! ## runFft -/

@[simp] theorem runFft_par (l : Nat) : (runFft l s).par = s.par := rfl
@[simp] theorem runFft_cfg (l : Nat) : (runFft l s).cfg = s.cfg := rfl
@[simp] theorem runFft_design (l : Nat) : (runFft l s).design = s.design := rfl
@[simp] theorem runFft_delayLine (l : Nat) : (runFft l s).delayLine = s.delayLine := rfl
@[simp] theorem runFft_delayValid (l : Nat) : (runFft l s).delayValid = s.delayValid := rfl
@[simp] theorem runFft_respValid (l : Nat) : (runFft l s).respValid = s.respValid := rfl
@[simp] theorem runFft_err (l : Nat) : (runFft l s).err = s.err := rfl
@[simp] theorem runFft_errCode (l : Nat) : (runFft l s).errCode = s.errCode := rfl
@[simp] theorem runFft_delay (l : Nat) : (runFft l s).delay = s.delay := rfl
@[simp] theorem runFft_respLen (l : Nat) : (runFft l s).respLen = s.respLen := rfl
@[simp] theorem runFft_ir (l : Nat) : (runFft l s).ir = s.ir := rfl
@[simp] theorem runFft_re (l : Nat) : (runFft l s).re = (runDraw (fftCore s.par s.ir l (s.re, s.im)) s.draws).1.1 := rfl
@[simp] theorem runFft_im (l : Nat) : (runFft l s).im = (runDraw (fftCore s.par s.ir l (s.re, s.im)) s.draws).1.2 := rfl
@[simp] theorem runFft_resp (l : Nat) : (runFft l s).resp = s.resp := rfl
@[simp] theorem runFft_rsp (l : Nat) : (runFft l s).rsp = s.rsp := rfl
@[simp] theorem runFft_inbox (l : Nat) : (runFft l s).inbox = s.inbox := rfl
@[simp] theorem runFft_draws (l : Nat) : (runFft l s).draws = (runDraw (fftCore s.par s.ir l (s.re, s.im)) s.draws).2 := rfl

/-! ## respondDelay -/

@[simp] theorem respondDelay_eq : respondDelay s = respondOk (delayWord s) s := rfl

end Sys2Proof.Machine
end

