-- ==== Sys2Proof/Laws/Analyzer.lean ====
section
/-! SUPPORT. What the analyzer can do: every one of its loops writes only words below its bound, so it keeps whatever such
writes keep; the bounds of its indices; and the frame of ANALYZE_CORE. -/

namespace Sys2Proof.Machine

/-- A property of word files that every write below `bound` keeps. -/
def KeptBelow (bound : Nat) (P : WordMem → Prop) : Prop := ∀ m i v, i < bound → P m → P (m.write i v)

theorem keptBelow_wf (bound : Nat) : KeptBelow bound (fun m => m.wf = true) := fun _ _ _ _ h => WordMem.wf_write _ _ _ h

theorem keptBelow_fileOk (bound size : Nat) (h : bound ≤ size) : KeptBelow bound (FileOk size) :=
  fun _ _ _ hi hm => ⟨WordMem.wf_write _ _ _ hm.1, WordMem.below_write _ _ _ _ hm.2 (by omega)⟩

/-- A word at or past the bound is kept. -/
theorem keptBelow_read (bound i : Nat) (w : Word) (h : bound ≤ i) : KeptBelow bound (fun m => m.read i = w) :=
  fun m j v hj hm => (WordMem.read_write_ne m j i v (by omega)).trans hm

theorem fill_keeps {bound : Nat} {P : WordMem → Prop} (hP : KeptBelow bound P) (n : Nat) (value : Nat → Word) (m : WordMem)
    (hn : n ≤ bound) (h : P m) : P (m.fill n value) := by
  induction n with
  | zero => exact h
  | succ n ih => rw [WordMem.fill_succ]; exact hP _ _ _ (by omega) (ih (by omega))

/-! ## Impulse capture and peak (42_analysis.md R144, R146) -/

theorem driveImpulse_keeps {P : WordMem → Prop} (d : Design) (nfft : Nat) (hP : KeptBelow nfft P) (ir : WordMem) (n : Nat)
    (h : P ir) : P (runDraw (driveImpulse d nfft ir) n).1.2 := by
  refine runDraw_foldlM_keeps (fun li : WordMem × WordMem => P li.2) _ _ ?_ _ _ h
  intro li i n hi hli
  simp only [runDraw_bind, runDraw_pure]
  exact hP _ _ _ (List.mem_range.mp hi) hli

/-- One more sample of the impulse. -/
theorem runDraw_driveImpulse_succ (d : Design) (nfft : Nat) (ir : WordMem) (n : Nat) :
    runDraw (driveImpulse d (nfft + 1) ir) n =
      let li := runDraw (driveImpulse d nfft ir) n
      let r := runDraw (engineApply d li.1.1 (impulse nfft)) li.2
      ((r.1.2, li.1.2.write nfft r.1.1), r.2) := by
  rw [driveImpulse, runDraw_foldlM_range_succ]
  simp only [runDraw_bind, runDraw_pure]
  rfl

/-- The search's running best after `n` samples. -/
def peakAt (ir : WordMem) (n : Nat) : Word × Nat :=
  (List.range n).foldl (fun b n => if n = 0 then b else peakStep ir b n) (fabs (ir.read 0), 0)

theorem peak_eq (ir : WordMem) (nfft : Nat) : peak ir nfft = (peakAt ir nfft).2 := rfl

theorem peakAt_one (ir : WordMem) : peakAt ir 1 = (fabs (ir.read 0), 0) := rfl

theorem peakAt_succ (ir : WordMem) (n : Nat) (hn : n ≠ 0) : peakAt ir (n + 1) = peakStep ir (peakAt ir n) n := by
  simp [peakAt, List.range_succ, hn]

/-- The running best is the magnitude of the sample it names, which has been seen. -/
theorem peakAt_fst (ir : WordMem) (n : Nat) (hn : 1 ≤ n) :
    (peakAt ir n).1 = fabs (ir.read (peakAt ir n).2) ∧ (peakAt ir n).2 < n := by
  induction n, hn using Nat.le_induction with
  | base => rw [peakAt_one]; exact ⟨rfl, Nat.one_pos⟩
  | succ n hn ih =>
    rw [peakAt_succ _ _ (by omega)]
    unfold peakStep
    split
    · exact ⟨rfl, Nat.lt_succ_self n⟩
    · exact ⟨ih.1, by omega⟩

theorem peak_lt (ir : WordMem) (nfft : Nat) (h : 1 ≤ nfft) : peak ir nfft < nfft := (peakAt_fst ir nfft h).2

/-! ## The FFT (R147 to R151) -/

theorem bitrev_lt (n l : Nat) : bitrev n l < 2 ^ l := by
  induction l generalizing n with
  | zero => exact Nat.one_pos
  | succ l ih =>
    have h1 := ih (n / 2)
    have h2 : n % 2 * 2 ^ l ≤ 1 * 2 ^ l := Nat.mul_le_mul_right _ (by omega)
    simp only [bitrev, pow_succ]
    omega

theorem foldl_write_keeps {bound : Nat} {P : WordMem → Prop} (hP : KeptBelow bound P) (ix : Nat → Nat) (value : Nat → Word)
    (l : List Nat) (hl : ∀ n ∈ l, ix n < bound) (m : WordMem) (h : P m) :
    P (l.foldl (fun m n => m.write (ix n) (value n)) m) := by
  induction l generalizing m with
  | nil => exact h
  | cons a l ih =>
    exact ih (fun n hn => hl n (List.mem_cons_of_mem _ hn)) _ (hP _ _ _ (hl a List.mem_cons_self) h)

theorem fftLoad_keeps {P Q : WordMem → Prop} (ir : WordMem) (l : Nat) (hP : KeptBelow (2 ^ l) P) (hQ : KeptBelow (2 ^ l) Q)
    (z : WordMem × WordMem) (h1 : P z.1) (h2 : Q z.2) : P (fftLoad ir l z).1 ∧ Q (fftLoad ir l z).2 :=
  ⟨foldl_write_keeps hP _ _ _ (fun n _ => bitrev_lt n l) _ h1,
    foldl_write_keeps hQ id _ _ (fun _ hn => List.mem_range.mp hn) _ h2⟩

/-- The two writes into each half that a butterfly makes. -/
theorem butterfly_writes (p q : Nat) (wr wi : Word) (z : WordMem × WordMem) (n : Nat) :
    ∃ rq rp iq ip, (runDraw (butterfly p q wr wi z) n).1 =
      ((z.1.write q rq).write p rp, (z.2.write q iq).write p ip) := by
  simp only [butterfly, runDraw_bind, runDraw_pure]
  exact ⟨_, _, _, _, rfl⟩

theorem butterfly_keeps {bound : Nat} {P Q : WordMem → Prop} (hP : KeptBelow bound P) (hQ : KeptBelow bound Q) (p q : Nat)
    (wr wi : Word) (z : WordMem × WordMem) (n : Nat) (hp : p < bound) (hq : q < bound) (h : P z.1 ∧ Q z.2) :
    P (runDraw (butterfly p q wr wi z) n).1.1 ∧ Q (runDraw (butterfly p q wr wi z) n).1.2 := by
  obtain ⟨rq, rp, iq, ip, hb⟩ := butterfly_writes p q wr wi z n
  rw [hb]
  exact ⟨hP _ _ _ hp (hP _ _ _ hq h.1), hQ _ _ _ hp (hQ _ _ _ hq h.2)⟩

/-- Both indices of every butterfly of a stage lie below the transform's length (R149). -/
theorem butterfly_index_lt (l s j g : Nat) (hs : s + 1 ≤ l) (hj : j < 2 ^ (s + 1) / 2) (hg : g < 2 ^ l / 2 ^ (s + 1)) :
    j + g * 2 ^ (s + 1) + 2 ^ (s + 1) / 2 < 2 ^ l := by
  have hdvd : 2 ^ (s + 1) ∣ 2 ^ l := pow_dvd_pow 2 hs
  generalize 2 ^ (s + 1) = m at hdvd hj hg ⊢
  have h1 : (g + 1) * m ≤ 2 ^ l := by
    rw [← Nat.div_mul_cancel hdvd]
    exact Nat.mul_le_mul_right _ hg
  rw [Nat.add_mul, Nat.one_mul] at h1
  omega

theorem fftStage_keeps {P Q : WordMem → Prop} (p : Config) (l s : Nat) (hs : s + 1 ≤ l) (hP : KeptBelow (2 ^ l) P)
    (hQ : KeptBelow (2 ^ l) Q) (z : WordMem × WordMem) (n : Nat) (h : P z.1 ∧ Q z.2) :
    P (runDraw (fftStage p l (s + 1) z) n).1.1 ∧ Q (runDraw (fftStage p l (s + 1) z) n).1.2 := by
  refine runDraw_foldlM_keeps (fun z : WordMem × WordMem => P z.1 ∧ Q z.2) _ _ ?_ _ _ h
  intro z j n hj hz
  refine runDraw_foldlM_keeps (fun z : WordMem × WordMem => P z.1 ∧ Q z.2) _ _ ?_ _ _ hz
  intro z g n hg hz
  have hlt := butterfly_index_lt l s j g hs (List.mem_range.mp hj) (List.mem_range.mp hg)
  exact butterfly_keeps hP hQ _ _ _ _ _ _ (lt_of_le_of_lt (Nat.le_add_right _ _) hlt) hlt hz

theorem fftCore_keeps {P Q : WordMem → Prop} (p : Config) (ir : WordMem) (l : Nat) (hP : KeptBelow (2 ^ l) P)
    (hQ : KeptBelow (2 ^ l) Q) (z : WordMem × WordMem) (n : Nat) (h1 : P z.1) (h2 : Q z.2) :
    P (runDraw (fftCore p ir l z) n).1.1 ∧ Q (runDraw (fftCore p ir l z) n).1.2 := by
  refine runDraw_foldlM_keeps (fun z : WordMem × WordMem => P z.1 ∧ Q z.2) _ _ ?_ _ _ (fftLoad_keeps ir l hP hQ z h1 h2)
  intro z s n hs hz
  have := List.mem_range.mp hs
  exact fftStage_keeps p l s (by omega) hP hQ z n hz

/-! ## Magnitude and normalization (R153, R154) -/

theorem dbCurve_keeps {P : WordMem → Prop} (re im : WordMem) (h : Nat) (hP : KeptBelow h P) (resp : WordMem) (n : Nat)
    (hr : P resp) : P (runDraw (dbCurve re im h resp) n).1 := by
  simp only [dbCurve, runDraw_bind]
  refine runDraw_foldlM_keeps P _ _ ?_ _ _ (runDraw_foldlM_keeps P _ _ ?_ _ _ hr)
  all_goals
    intro r j n hj hrj
    simp only [runDraw_bind, runDraw_pure]
    exact hP _ _ _ (List.mem_range.mp hj) hrj

/-! ## The procedure (R141) -/

/-- What ANALYZE_CORE leaves alone, and the delay it finds. -/
structure AnalysisFrame (l : Nat) (cs : Bool) (s t : State) : Prop where
  par : t.par = s.par
  cfg : t.cfg = s.cfg
  design : t.design = s.design
  delayLine : t.delayLine = s.delayLine
  err : t.err = s.err
  errCode : t.errCode = s.errCode
  inbox : t.inbox = s.inbox
  rsp : t.rsp = s.rsp
  delayValid : t.delayValid = true
  delay : ∃ d, d < 2 ^ l ∧ t.delay = BitVec.ofNat 32 d
  respValid : t.respValid = (cs || s.respValid)
  respLen : t.respLen = if cs then BitVec.ofNat 32 (2 ^ l / 2) else s.respLen

theorem analyzeCore_frame (l : Nat) (cs : Bool) (s : State) : AnalysisFrame l cs s (analyzeCore l cs s) := by
  have hpos : 0 < 2 ^ l := Nat.two_pow_pos l
  unfold analyzeCore
  split
  · cases cs
    · exact ⟨rfl, rfl, rfl, rfl, rfl, rfl, rfl, rfl, rfl, ⟨0, hpos, rfl⟩, rfl, rfl⟩
    · exact ⟨rfl, rfl, rfl, rfl, rfl, rfl, rfl, rfl, rfl, ⟨0, hpos, rfl⟩, rfl, rfl⟩
  · have hpk := peak_lt (capture (2 ^ l) s).ir (2 ^ l) hpos
    cases cs
    · exact ⟨rfl, rfl, rfl, rfl, rfl, rfl, rfl, rfl, rfl, ⟨_, hpk, rfl⟩, rfl, rfl⟩
    · exact ⟨rfl, rfl, rfl, rfl, rfl, rfl, rfl, rfl, rfl, ⟨_, hpk, rfl⟩, rfl, rfl⟩

/-- The buffers keep whatever writes below the analysed length keep. -/
theorem analyzeCore_ir_keeps {P : WordMem → Prop} (l : Nat) (cs : Bool) (s : State) (hP : KeptBelow (2 ^ l) P)
    (h : P s.ir) : P (analyzeCore l cs s).ir := by
  unfold analyzeCore
  split
  · cases cs <;> exact h
  · cases cs <;> exact driveImpulse_keeps s.design (2 ^ l) hP s.ir s.draws h

theorem analyzeCore_fft_keeps {P Q : WordMem → Prop} (l : Nat) (cs : Bool) (s : State) (hP : KeptBelow (2 ^ l) P)
    (hQ : KeptBelow (2 ^ l) Q) (h1 : P s.re) (h2 : Q s.im) :
    P (analyzeCore l cs s).re ∧ Q (analyzeCore l cs s).im := by
  unfold analyzeCore
  split
  · cases cs <;> exact ⟨h1, h2⟩
  · cases cs
    · exact ⟨h1, h2⟩
    · exact fftCore_keeps _ _ l hP hQ (s.re, s.im) _ h1 h2

theorem analyzeCore_resp_keeps {P : WordMem → Prop} (l : Nat) (cs : Bool) (s : State) (hP : KeptBelow (2 ^ l / 2) P)
    (h : P s.resp) : P (analyzeCore l cs s).resp := by
  unfold analyzeCore
  split
  · cases cs
    · exact h
    · exact fill_keeps hP _ _ _ (le_refl _) h
  · cases cs
    · exact h
    · exact dbCurve_keeps _ _ _ hP _ _ h

/-- Without a spectrum the response and the FFT buffer are not touched at all (R155). -/
theorem analyzeCore_delay_only (l : Nat) (s : State) :
    (analyzeCore l false s).re = s.re ∧ (analyzeCore l false s).im = s.im ∧ (analyzeCore l false s).resp = s.resp := by
  unfold analyzeCore
  split <;> exact ⟨rfl, rfl, rfl⟩

end Sys2Proof.Machine
end

