-- ==== Sys2Proof/Laws/Binary64.lean ====
section
/-! SUPPORT. The parts of a word built from a sign and a magnitude, and what an operation of R12 or R14 can do: it draws one
NaN, or it gives one result that is no NaN and draws nothing. -/

namespace Sys2Proof.Machine

theorem toNat_ofSignMag (neg : Bool) (m : Nat) (h : m < 2 ^ 63) :
    (ofSignMag neg m).toNat = (if neg then 2 ^ 63 else 0) + m := by
  rw [ofSignMag, BitVec.toNat_ofNat]
  cases neg
  · exact Nat.mod_eq_of_lt (by simp; omega)
  · exact Nat.mod_eq_of_lt (by simp; omega)

theorem magBits_ofSignMag (neg : Bool) (m : Nat) (h : m < 2 ^ 63) : magBits (ofSignMag neg m) = m := by
  rw [magBits, toNat_ofSignMag neg m h]
  cases neg
  · rw [if_neg Bool.false_ne_true, Nat.zero_add, Nat.mod_eq_of_lt h]
  · rw [if_pos rfl, Nat.add_mod_left, Nat.mod_eq_of_lt h]

theorem isNeg_ofSignMag (neg : Bool) (m : Nat) (h : m < 2 ^ 63) : isNeg (ofSignMag neg m) = neg := by
  rw [isNeg, BitVec.msb_eq_decide, toNat_ofSignMag neg m h]
  cases neg
  · simp; omega
  · simp

/-- A magnitude up to infinity's is no NaN. -/
theorem isNaN_ofSignMag (neg : Bool) (m : Nat) (h : m ≤ infBits) : isNaN (ofSignMag neg m) = false := by
  have hinf : infBits < 2 ^ 63 := by decide
  rw [isNaN, magBits_ofSignMag neg m (by omega)]
  exact decide_eq_false (by omega)

/-- Every draw is a NaN (R13). -/
@[simp] theorem isNaN_quietNaN (b : BitVec 52) : isNaN (quietNaN b) = true := by
  have hm : b.toNat % 2 ^ 51 < 2 ^ 51 := Nat.mod_lt _ (by decide)
  rw [quietNaN, isNaN, magBits_ofSignMag _ _ (by omega)]
  exact decide_eq_true (by simp only [infBits]; omega)

theorem roundMag_le (num den : Nat) : roundMag num den ≤ infBits := Nat.min_le_right _ _

theorem isNaN_fneg (a : Word) : isNaN (fneg a) = isNaN a := by
  have h : (fneg a).toNat % 2 ^ 63 = a.toNat % 2 ^ 63 := by
    rw [← BitVec.toNat_setWidth 63, ← BitVec.toNat_setWidth 63]
    congr 1
    simp [fneg]
  rw [isNaN, isNaN, magBits, magBits, h]

/-- A result of R13: a fresh quiet NaN, whatever else, or one fixed word that is no NaN. -/
def DrawsOrGives (x : Draw Word) : Prop :=
  (∀ n, runDraw x n = (quietNaN (Config.nanBits n), n + 1)) ∨ ∃ w, isNaN w = false ∧ Gives x w

theorem drawsOrGives_drawNaN : DrawsOrGives drawNaN := .inl fun n => runDraw_drawNaN n

theorem drawsOrGives_pure (w : Word) (h : isNaN w = false) : DrawsOrGives (pure w) := .inr ⟨w, h, fun _ => rfl⟩

theorem drawsOrGives_ite (c : Prop) [Decidable c] (x y : Draw Word) (hx : c → DrawsOrGives x) (hy : ¬c → DrawsOrGives y) :
    DrawsOrGives (if c then x else y) := by
  by_cases h : c
  · rw [if_pos h]; exact hx h
  · rw [if_neg h]; exact hy h

theorem drawsOrGives_mag (neg : Bool) (m : Nat) (h : m ≤ infBits) : DrawsOrGives (pure (ofSignMag neg m)) :=
  drawsOrGives_pure _ (isNaN_ofSignMag neg m h)

theorem fadd_drawsOrGives (a b : Word) : DrawsOrGives (fadd a b) := by
  unfold fadd
  refine drawsOrGives_ite _ _ _ (fun _ => drawsOrGives_drawNaN) fun hn => ?_
  simp only [Bool.or_eq_true, not_or, Bool.not_eq_true] at hn
  refine drawsOrGives_ite _ _ _ (fun _ => ?_) fun _ => drawsOrGives_ite _ _ _ (fun _ => drawsOrGives_pure _ hn.2) fun _ => ?_
  · exact drawsOrGives_ite _ _ _ (fun _ => drawsOrGives_drawNaN) fun _ => drawsOrGives_pure _ hn.1
  · exact drawsOrGives_ite _ _ _ (fun _ => drawsOrGives_mag _ _ (Nat.zero_le _)) fun _ => drawsOrGives_mag _ _ (roundMag_le _ _)

theorem fsub_drawsOrGives (a b : Word) : DrawsOrGives (fsub a b) := fadd_drawsOrGives a (fneg b)

theorem fmul_drawsOrGives (a b : Word) : DrawsOrGives (fmul a b) := by
  unfold fmul
  refine drawsOrGives_ite _ _ _ (fun _ => drawsOrGives_drawNaN) fun _ => ?_
  refine drawsOrGives_ite _ _ _ (fun _ => ?_) fun _ => drawsOrGives_mag _ _ (roundMag_le _ _)
  exact drawsOrGives_ite _ _ _ (fun _ => drawsOrGives_drawNaN) fun _ => drawsOrGives_mag _ _ (le_refl _)

theorem fdiv_drawsOrGives (a b : Word) : DrawsOrGives (fdiv a b) := by
  unfold fdiv
  refine drawsOrGives_ite _ _ _ (fun _ => drawsOrGives_drawNaN) fun _ => ?_
  refine drawsOrGives_ite _ _ _ (fun _ => ?_) fun _ => ?_
  · exact drawsOrGives_ite _ _ _ (fun _ => drawsOrGives_drawNaN) fun _ => drawsOrGives_mag _ _ (le_refl _)
  refine drawsOrGives_ite _ _ _ (fun _ => drawsOrGives_mag _ _ (Nat.zero_le _)) fun _ => ?_
  refine drawsOrGives_ite _ _ _ (fun _ => ?_) fun _ => drawsOrGives_mag _ _ (roundMag_le _ _)
  exact drawsOrGives_ite _ _ _ (fun _ => drawsOrGives_drawNaN) fun _ => drawsOrGives_mag _ _ (le_refl _)

theorem elementary_drawsOrGives (r : Word) : DrawsOrGives (elementary r) := by
  unfold elementary
  refine drawsOrGives_ite _ _ _ (fun _ => drawsOrGives_drawNaN) fun h => drawsOrGives_pure _ ?_
  simpa using h

/-- Whether a result is a NaN, and every result that is none, does not depend on the draws. -/
theorem DrawsOrGives.stable {x : Draw Word} (h : DrawsOrGives x) (m n : Nat) :
    (isNaN (runDraw x m).1 = true ∧ isNaN (runDraw x n).1 = true) ∨ (runDraw x m).1 = (runDraw x n).1 := by
  rcases h with h | ⟨w, _, h⟩
  · exact .inl ⟨by rw [h]; exact isNaN_quietNaN _, by rw [h]; exact isNaN_quietNaN _⟩
  · exact .inr (by rw [h m, h n])

end Sys2Proof.Machine
end

