-- ==== Sys2Proof/Laws/Designer.lean ====
section
/-! SUPPORT. What the designer answers: the shapes it can give, that it writes only the coefficients of its own stages,
and the equation of a redesign's design. -/

namespace Sys2Proof.Machine

/-! ## The mode and the stage count (40_config_design.md R98 to R101) -/

/-- The legal range of `SMAX` (00_scope.md R8): a stage count fits its register. -/
theorem smax_le_of_legal {p : Config} (h : p.legal = true) : p.smax ≤ 255 := by
  simp only [Config.legal, Bool.and_eq_true, decide_eq_true_eq] at h
  omega

/-- The legal ranges of the buffer lengths (00_scope.md R8). -/
theorem lengths_of_legal {p : Config} (h : p.legal = true) :
    8 ≤ p.log2NfftMax ∧ p.log2NfftMax ≤ 24 ∧ 1 ≤ p.log2NfftDefault ∧ p.log2NfftDefault ≤ p.log2NfftMax := by
  simp only [Config.legal, Bool.and_eq_true, decide_eq_true_eq] at h
  omega

/-- The mode derivation answers Bypass with no stages, or the mode the enables ask for within the capacity. -/
theorem deriveMode_cases (p : Config) (c : FilterConfig) (n : Nat) :
    (runDraw (deriveMode p c) n).1 = (.bypass, 0) ∨
    (1 ≤ c.order.toNat ∧ modeOf c (runDraw (fmul c.fs fHalf) n).1 ≠ .bypass ∧
      stagesOf (modeOf c (runDraw (fmul c.fs fHalf) n).1) c.order.toNat ≤ p.smax ∧
      (runDraw (deriveMode p c) n).1 = (modeOf c (runDraw (fmul c.fs fHalf) n).1,
        stagesOf (modeOf c (runDraw (fmul c.fs fHalf) n).1) c.order.toNat)) := by
  by_cases h : c.order.toNat < 1
  · exact .inl (by simp [deriveMode, h])
  · have hr : (runDraw (deriveMode p c) n).1 =
        withCapacity p (modeOf c (runDraw (fmul c.fs fHalf) n).1) c.order.toNat := by
      simp only [deriveMode, if_neg h]
      rfl
    by_cases hm : modeOf c (runDraw (fmul c.fs fHalf) n).1 = .bypass
    · exact .inl (by rw [hr, hm]; simp [withCapacity, stagesOf])
    · by_cases hs : p.smax < stagesOf (modeOf c (runDraw (fmul c.fs fHalf) n).1) c.order.toNat
      · exact .inl (by rw [hr, withCapacity, if_pos hs])
      · exact .inr ⟨by omega, hm, by omega, by rw [hr, withCapacity, if_neg hs]⟩

theorem stagesOf_pos (m : Mode) (n : Nat) (hm : m ≠ .bypass) (hn : 1 ≤ n) : 1 ≤ stagesOf m n := by
  cases m <;> simp_all [stagesOf] <;> omega

/-- The mode and stage count a derivation answers are those of a legal shape. -/
theorem deriveMode_shape (p : Config) (c : FilterConfig) (n : Nat) :
    (runDraw (deriveMode p c) n).1.2 ≤ p.smax ∧
    ((runDraw (deriveMode p c) n).1.1 = .bypass ↔ (runDraw (deriveMode p c) n).1.2 = 0) := by
  rcases deriveMode_cases p c n with h | ⟨h1, hm, hs, h⟩
  · rw [h]; simp
  · rw [h]
    have := stagesOf_pos _ _ hm h1
    exact ⟨hs, fun h => absurd h hm, fun h => by simp only at h; omega⟩

/-! ## The coefficient file (R103 to R105) -/

/-- One stage's words: its gain and coefficients, and nothing else. -/
theorem writeStage_gain (gc : WordMem × WordMem) (k : Nat) (g : Word) (cs : List Word) :
    (writeStage gc k g cs).1 = gc.1.write k g := rfl

theorem writeStage_coef_two (gc : WordMem × WordMem) (k : Nat) (g c0 c1 : Word) :
    (writeStage gc k g [c0, c1]).2 = (gc.2.write (4 * k) c0).write (4 * k + 1) c1 := rfl

theorem writeStage_coef_four (gc : WordMem × WordMem) (k : Nat) (g c0 c1 c2 c3 : Word) :
    (writeStage gc k g [c0, c1, c2, c3]).2 =
      (((gc.2.write (4 * k) c0).write (4 * k + 1) c1).write (4 * k + 2) c2).write (4 * k + 3) c3 := rfl

/-- What the coefficient files of `stages` stages with `nc` coefficients each look like from outside: canonical, within
their spaces, and `+0.0` wherever no stage assigns. -/
structure FilesFor (stages nc : Nat) (gc : WordMem × WordMem) : Prop where
  gain_ok : FileOk stages gc.1
  coef_ok : FileOk (4 * stages) gc.2
  coef_zero : ∀ k j, j < 4 → stages ≤ k ∨ nc ≤ j → gc.2.read (4 * k + j) = f0

theorem FilesFor.zeros (stages nc : Nat) : FilesFor stages nc (WordMem.zeros, WordMem.zeros) :=
  ⟨⟨rfl, rfl⟩, ⟨rfl, rfl⟩, fun _ _ _ _ => rfl⟩

theorem below_foldl_write (size b : Nat) (value : Nat → Word) (n : Nat) (m : WordMem) (hn : b + n ≤ size)
    (h : m.below size = true) :
    ((List.range n).foldl (fun c j => c.write (b + j) (value j)) m).below size = true := by
  induction n with
  | zero => exact h
  | succ n ih =>
    rw [List.range_succ, List.foldl_append]
    exact WordMem.below_write _ _ _ _ (ih (by omega)) (by omega)

theorem wf_foldl_write (b : Nat) (value : Nat → Word) (n : Nat) (m : WordMem) (h : m.wf = true) :
    ((List.range n).foldl (fun c j => c.write (b + j) (value j)) m).wf = true := by
  induction n with
  | zero => exact h
  | succ n ih =>
    rw [List.range_succ, List.foldl_append]
    exact WordMem.wf_write _ _ _ ih

theorem read_foldl_write (b : Nat) (value : Nat → Word) (n : Nat) (m : WordMem) (h : m.wf = true) (i : Nat) :
    ((List.range n).foldl (fun c j => c.write (b + j) (value j)) m).read i =
      if b ≤ i ∧ i < b + n then value (i - b) else m.read i := by
  induction n with
  | zero =>
    have : ¬ (b ≤ i ∧ i < b + 0) := by omega
    rw [if_neg this]
    rfl
  | succ n ih =>
    rw [List.range_succ, List.foldl_append]
    show WordMem.read (WordMem.write _ (b + n) (value n)) i = _
    rw [WordMem.read_write _ _ _ _ (wf_foldl_write b value n m h), ih]
    by_cases h1 : b + n = i
    · have h2 : b ≤ i ∧ i < b + (n + 1) := by omega
      have h3 : i - b = n := by omega
      rw [if_pos h1, if_pos h2, h3]
    · rw [if_neg h1]
      by_cases h2 : b ≤ i ∧ i < b + n
      · have h3 : b ≤ i ∧ i < b + (n + 1) := by omega
        rw [if_pos h2, if_pos h3]
      · have h3 : ¬ (b ≤ i ∧ i < b + (n + 1)) := by omega
        rw [if_neg h2, if_neg h3]

/-- The gains and coefficients after one stage is written, word by word. -/
theorem read_writeStage (gc : WordMem × WordMem) (k : Nat) (g : Word) (cs : List Word) (hg : gc.1.wf = true)
    (hc : gc.2.wf = true) (i : Nat) :
    (writeStage gc k g cs).1.read i = (if k = i then g else gc.1.read i) ∧
    (writeStage gc k g cs).2.read i =
      if 4 * k ≤ i ∧ i < 4 * k + cs.length then cs.getD (i - 4 * k) f0 else gc.2.read i :=
  ⟨WordMem.read_write _ _ _ _ hg, read_foldl_write (4 * k) (fun j => cs.getD j f0) cs.length gc.2 hc i⟩

theorem FilesFor.writeStage {stages nc : Nat} {gc : WordMem × WordMem} (h : FilesFor stages nc gc) (k : Nat) (g : Word)
    (cs : List Word) (hk : k < stages) (hl : cs.length = nc) (h4 : nc ≤ 4) :
    FilesFor stages nc (writeStage gc k g cs) where
  gain_ok := ⟨WordMem.wf_write _ _ _ h.gain_ok.1, WordMem.below_write _ _ _ _ h.gain_ok.2 hk⟩
  coef_ok := ⟨wf_foldl_write (4 * k) (fun j => cs.getD j f0) cs.length gc.2 h.coef_ok.1,
    below_foldl_write (4 * stages) (4 * k) (fun j => cs.getD j f0) cs.length gc.2 (by omega) h.coef_ok.2⟩
  coef_zero := by
    intro k' j hj hkj
    rw [(read_writeStage gc k g cs h.gain_ok.1 h.coef_ok.1 (4 * k' + j)).2, if_neg (by omega)]
    exact h.coef_zero k' j hj hkj

/-- A loop that writes each stage in turn: the files keep their form, and each stage's words are the ones its own round
computed, for some state of the draws. -/
theorem runDraw_stages (stages nc : Nat) (stage : Nat → Draw (Word × List Word))
    (hlen : ∀ k n, (runDraw (stage k) n).1.2.length = nc) (h4 : nc ≤ 4) (n : Nat) :
    let r := (runDraw ((List.range stages).foldlM (fun gc k => do
      let st ← stage k
      pure (writeStage gc k st.1 st.2)) (WordMem.zeros, WordMem.zeros)) n).1
    FilesFor stages nc r ∧ ∀ k, k < stages → ∃ st, Yields (stage k) st ∧ r.1.read k = st.1 ∧
      ∀ j, j < nc → r.2.read (4 * k + j) = st.2.getD j f0 := by
  have loop : ∀ m, m ≤ stages → let r := (runDraw ((List.range m).foldlM (fun gc k => do
      let st ← stage k
      pure (writeStage gc k st.1 st.2)) (WordMem.zeros, WordMem.zeros)) n).1
      FilesFor stages nc r ∧ ∀ k, k < m → ∃ st, Yields (stage k) st ∧ r.1.read k = st.1 ∧
        ∀ j, j < nc → r.2.read (4 * k + j) = st.2.getD j f0 := by
    intro m
    induction m with
    | zero => exact fun _ => ⟨FilesFor.zeros _ _, fun k hk => absurd hk (Nat.not_lt_zero k)⟩
    | succ m ih =>
      intro hm
      obtain ⟨hf, hr⟩ := ih (by omega)
      simp only [runDraw_foldlM_range_succ]
      generalize hq : runDraw ((List.range m).foldlM (fun gc k => do
        let st ← stage k
        pure (writeStage gc k st.1 st.2)) (WordMem.zeros, WordMem.zeros)) n = q at hf hr ⊢
      have hl := hlen m q.2
      refine ⟨hf.writeStage m _ _ (by omega) hl h4, fun k hk => ?_⟩
      have hread := read_writeStage q.1 m (runDraw (stage m) q.2).1.1 (runDraw (stage m) q.2).1.2 hf.gain_ok.1
        hf.coef_ok.1
      by_cases hkm : k = m
      · subst hkm
        refine ⟨_, ⟨q.2, rfl⟩, (hread k).1.trans (if_pos rfl), fun j hj => ?_⟩
        refine (hread (4 * k + j)).2.trans ?_
        rw [if_pos (by omega), Nat.add_sub_cancel_left]
      · obtain ⟨st, hst, hg, hc⟩ := hr k (by omega)
        refine ⟨st, hst, ((hread k).1.trans (if_neg fun h => hkm h.symm)).trans hg, fun j hj => ?_⟩
        refine ((hread (4 * k + j)).2.trans (if_neg ?_)).trans (hc j hj)
        omega
  exact loop stages (le_refl _)

/-! ## The whole design (R97) -/

theorem lpHpStage_length (lp : Bool) (a2 ta : Word) (stages k n : Nat) :
    (runDraw (lpHpStage lp a2 ta stages k) n).1.2.length = 2 := by
  cases lp <;> simp only [lpHpStage, if_true, Bool.false_eq_true, if_false, runDraw_bind, runDraw_pure,
    List.length_cons, List.length_nil]

theorem bpStage_length (fs a2 fa b b2 tb : Word) (stages k n : Nat) :
    (runDraw (bpStage fs a2 fa b b2 tb stages k) n).1.2.length = 4 := by
  simp only [bpStage, runDraw_bind, runDraw_pure, List.length_cons, List.length_nil]

theorem filesFor_designLpHp (lp : Bool) (c : FilterConfig) (stages n : Nat) :
    FilesFor stages 2 (runDraw (designLpHp lp c stages) n).1 := by
  simp only [designLpHp, runDraw_bind]
  exact (runDraw_stages stages 2 _ (lpHpStage_length lp _ _ stages) (by decide) _).1

theorem filesFor_designBp (c : FilterConfig) (stages n : Nat) :
    FilesFor stages 4 (runDraw (designBp c stages) n).1 := by
  simp only [designBp, runDraw_bind]
  exact (runDraw_stages stages 4 _ (bpStage_length _ _ _ _ _ _ stages) (by decide) _).1

theorem filesFor_designCoefs (m : Mode) (c : FilterConfig) (stages n : Nat) :
    FilesFor stages (numCoefOf m).toNat (runDraw (designCoefs m c stages) n).1 := by
  cases m with
  | bypass => exact FilesFor.zeros _ _
  | lowPass => exact filesFor_designLpHp true c stages n
  | highPass => exact filesFor_designLpHp false c stages n
  | bandPass => exact filesFor_designBp c stages n

/-- A design is the mode derivation followed by the coefficients of the mode found. -/
theorem runDraw_designOf (p : Config) (c : FilterConfig) (n : Nat) :
    (runDraw (designOf p c) n).1 =
      let ms := runDraw (deriveMode p c) n
      let gc := runDraw (designCoefs ms.1.1 c ms.1.2) ms.2
      ⟨ms.1.1, BitVec.ofNat 8 ms.1.2, numCoefOf ms.1.1, gc.1.1, gc.1.2⟩ := by
  simp only [designOf, runDraw_bind, runDraw_pure]

theorem designOf_mode (p : Config) (c : FilterConfig) (n : Nat) :
    (runDraw (designOf p c) n).1.mode = (runDraw (deriveMode p c) n).1.1 := by rw [runDraw_designOf]

theorem designOf_numCoef (p : Config) (c : FilterConfig) (n : Nat) :
    (runDraw (designOf p c) n).1.numCoef = numCoefOf (runDraw (deriveMode p c) n).1.1 := by rw [runDraw_designOf]

theorem designOf_numStages (p : Config) (c : FilterConfig) (n : Nat) (hp : p.smax ≤ 255) :
    (runDraw (designOf p c) n).1.numStages.toNat = (runDraw (deriveMode p c) n).1.2 := by
  have h := (deriveMode_shape p c n).1
  rw [runDraw_designOf, BitVec.toNat_ofNat]
  exact Nat.mod_eq_of_lt (by omega)

/-- Every design a redesign gives has a legal shape (R28). -/
theorem designOf_shape (p : Config) (c : FilterConfig) (n : Nat) (hp : p.smax ≤ 255) :
    (runDraw (designOf p c) n).1.Shape p.smax := by
  obtain ⟨hle, hiff⟩ := deriveMode_shape p c n
  have hz : (runDraw (designOf p c) n).1.numStages = 0 ↔ (runDraw (deriveMode p c) n).1.2 = 0 := by
    rw [← designOf_numStages p c n hp]
    exact ⟨fun h => by rw [h]; rfl, fun h => BitVec.eq_of_toNat_eq h⟩
  refine ⟨?_, ?_, ?_, ?_, ?_⟩
  · rw [hz, designOf_mode]; exact hiff
  · rw [designOf_mode, designOf_numCoef]
    cases (runDraw (deriveMode p c) n).1.1 <;> decide
  · rw [designOf_mode, designOf_numCoef]
    cases (runDraw (deriveMode p c) n).1.1 <;> decide
  · rw [designOf_mode, designOf_numCoef]
    cases (runDraw (deriveMode p c) n).1.1 <;> decide
  · rw [designOf_numStages p c n hp]; exact hle

/-- The coefficient files of every design a redesign gives (R105). -/
theorem designOf_files (p : Config) (c : FilterConfig) (n : Nat) (hp : p.smax ≤ 255) :
    FilesFor (runDraw (designOf p c) n).1.numStages.toNat (runDraw (designOf p c) n).1.numCoef.toNat
      ((runDraw (designOf p c) n).1.gain, (runDraw (designOf p c) n).1.coef) := by
  rw [designOf_numStages p c n hp, designOf_numCoef, runDraw_designOf]
  exact filesFor_designCoefs _ c _ _

/-- A setter either leaves the state or redesigns from the new configuration (R90). -/
theorem setter_cases (same : Bool) (cfg' : FilterConfig) (s : State) :
    (same = true ∧ setter same cfg' s = s) ∨ (same = false ∧ setter same cfg' s = redesign { s with cfg := cfg' }) := by
  cases same
  · exact .inr ⟨rfl, rfl⟩
  · exact .inl ⟨rfl, rfl⟩

end Sys2Proof.Machine
end

