-- ==== Sys2Proof/Laws/PerInstr.lean ====
section
/-! SUPPORT. Facts stated instruction by instruction. -/

namespace Sys2Proof.Laws

/-- Keeping the bits of a word from `k` on. -/
theorem and_high_bits (w m : BitVec 32) (k : Nat) (h : w.toNat / 2 ^ k * 2 ^ k = m.toNat) :
    w &&& BitVec.allOnes 32 <<< k = m := by
  apply BitVec.eq_of_getLsbD_eq
  intro i hi
  have hm : m.getLsbD i = (decide (k ≤ i) && w.getLsbD i) := by
    rw [BitVec.getLsbD, ← h, Nat.testBit_mul_two_pow]
    by_cases hki : k ≤ i
    · simp [hki, Nat.testBit_div_two_pow, BitVec.getLsbD]
    · simp [hki]
  rw [hm]
  by_cases hki : k ≤ i
  · have : i - k < 32 := by omega
    rw [BitVec.getLsbD_and, BitVec.getLsbD_shiftLeft, BitVec.getLsbD_allOnes]
    simp [hki, hi, this]
  · have : i < k := by omega
    simp [hki, this]

/-- A word whose immediate is below `2^k` is an instance of the row that fixes the bits from `k` on. -/
theorem accepts_imm (opc imm k : Nat) (mask m : BitVec 32) (hmask : mask = BitVec.allOnes 32 <<< k) (ho : opc < 2 ^ 8)
    (hk : k ≤ 24) (hi : imm < 2 ^ k) (hm : m.toNat = opc * 2 ^ 24) :
    OpcodeRow.accepts ⟨m, mask⟩ (commandWord opc imm) = true := by
  have h24 : 2 ^ k ≤ 2 ^ 24 := Nat.pow_le_pow_right (by decide) hk
  have hw : (commandWord opc imm).toNat = opc * 2 ^ 24 + imm := by
    rw [commandWord, BitVec.toNat_ofNat]
    exact Nat.mod_eq_of_lt (by omega)
  have hsplit : opc * 2 ^ 24 = opc * 2 ^ (24 - k) * 2 ^ k := by
    rw [Nat.mul_assoc, ← pow_add, Nat.sub_add_cancel hk]
  rw [OpcodeRow.accepts, hmask, and_high_bits _ m k ?_]
  · exact beq_self_eq_true m
  · have hq : (opc * 2 ^ (24 - k) * 2 ^ k + imm) / 2 ^ k = opc * 2 ^ (24 - k) := by
      rw [Nat.add_comm, Nat.add_mul_div_right _ _ (Nat.two_pow_pos k), Nat.div_eq_of_lt hi, Nat.zero_add]
    rw [hw, hm, hsplit, hq]

end Sys2Proof.Laws

namespace Sys2Proof.Laws.EncodesInTable

/-- A well-formed instruction's word is an instance of its own row of the opcode map (30_encoding.md R76). -/
def Statement (i : Instr) : Prop := i.wellFormed = true → i.row.accepts (encode i).word = true

theorem nop : Statement .nop := fun _ => by decide
theorem setlp (en : Bool) : Statement (.setlp en) := fun _ => by cases en <;> decide
theorem sethp (en : Bool) : Statement (.sethp en) := fun _ => by cases en <;> decide
theorem setflc (d : Word) : Statement (.setflc d) := fun _ =>
  (by decide : (Instr.setflc 0).row.accepts (encode (.setflc 0)).word = true)
theorem setfhc (d : Word) : Statement (.setfhc d) := fun _ =>
  (by decide : (Instr.setfhc 0).row.accepts (encode (.setfhc 0)).word = true)
theorem setfs (d : Word) : Statement (.setfs d) := fun _ =>
  (by decide : (Instr.setfs 0).row.accepts (encode (.setfs 0)).word = true)
theorem setord (n : Nat) : Statement (.setord n) := fun h =>
  accepts_imm 0x06 n 16 _ _ (by decide) (by decide) (by decide) (of_decide_eq_true h) (by decide)
theorem apply (x : Word) : Statement (.apply x) := fun _ =>
  (by decide : (Instr.apply 0).row.accepts (encode (.apply 0)).word = true)
theorem reset : Statement .reset := fun _ => by decide
theorem analyze (l : Nat) (cs : Bool) : Statement (.analyze l cs) := by
  intro h
  have all : ∀ l, l < 2 ^ 5 → ∀ cs, (Instr.analyze l cs).row.accepts (encode (.analyze l cs)).word = true := by decide
  exact all l (of_decide_eq_true h) cs
theorem getdelay : Statement .getdelay := fun _ => by decide
theorem freqresp (np : Nat) : Statement (.freqresp np) := fun h =>
  accepts_imm 0x22 np 16 _ _ (by decide) (by decide) (by decide) (of_decide_eq_true h) (by decide)
theorem fftrun (l : Nat) : Statement (.fftrun l) := fun h =>
  accepts_imm 0x23 l 5 _ _ (by decide) (by decide) (by decide) (of_decide_eq_true h) (by decide)
theorem getord : Statement .getord := fun _ => by decide
theorem rdcsr (num : Nat) : Statement (.rdcsr num) := fun h =>
  accepts_imm 0x31 num 8 _ _ (by decide) (by decide) (by decide) (of_decide_eq_true h) (by decide)
theorem rdcoef (idx : Nat) : Statement (.rdcoef idx) := fun h =>
  accepts_imm 0x32 idx 24 _ _ (by decide) (by decide) (by decide) (of_decide_eq_true h) (by decide)
theorem rdstate (idx : Nat) : Statement (.rdstate idx) := fun h =>
  accepts_imm 0x33 idx 24 _ _ (by decide) (by decide) (by decide) (of_decide_eq_true h) (by decide)
theorem rdresp (idx : Nat) : Statement (.rdresp idx) := fun h =>
  accepts_imm 0x34 idx 24 _ _ (by decide) (by decide) (by decide) (of_decide_eq_true h) (by decide)
theorem rdir (idx : Nat) : Statement (.rdir idx) := fun h =>
  accepts_imm 0x35 idx 24 _ _ (by decide) (by decide) (by decide) (of_decide_eq_true h) (by decide)
theorem rdre (idx : Nat) : Statement (.rdre idx) := fun h =>
  accepts_imm 0x36 idx 24 _ _ (by decide) (by decide) (by decide) (of_decide_eq_true h) (by decide)
theorem rdim (idx : Nat) : Statement (.rdim idx) := fun h =>
  accepts_imm 0x37 idx 24 _ _ (by decide) (by decide) (by decide) (of_decide_eq_true h) (by decide)
theorem rdtw (idx : Nat) : Statement (.rdtw idx) := fun h =>
  accepts_imm 0x38 idx 24 _ _ (by decide) (by decide) (by decide) (of_decide_eq_true h) (by decide)
theorem wrir (idx : Nat) (d : Word) : Statement (.wrir idx d) := fun h =>
  accepts_imm 0x39 idx 24 _ _ (by decide) (by decide) (by decide) (of_decide_eq_true h) (by decide)
theorem clrerr : Statement .clrerr := fun _ => by decide

end Sys2Proof.Laws.EncodesInTable
end

