-- ==== Sys2Proof/Laws/Step.lean ====
section
/-! SUPPORT. What a command and a step can do, said once: a command ends with an error record or with an answer over one
of a few changes of state, and a step is one of the host's moves. Invariants are read off these cases. -/

namespace Sys2Proof.Machine

/-! ## Commands -/

/-- The changes of state a command that ends with status OK can make, its answer aside. -/
inductive Effect (i : Instr) (s : State) : State → Prop where
  | unchanged : Effect i s s
  | redesigned (c : FilterConfig) (hi : isSetter i = true) : Effect i s (redesign { s with cfg := c })
  | sample (x : Word) (hi : i = .apply x) :
      Effect i s { s with
        delayLine := (runDraw (engineApply s.design s.delayLine x) s.draws).1.2
        draws := (runDraw (engineApply s.design s.delayLine x) s.draws).2 }
  | zeroed (hi : i = .reset) : Effect i s { s with delayLine := WordMem.zeros }
  | analyzed (l : Nat) (cs : Bool) (h : s.par.legal = true → 1 ≤ l ∧ l ≤ s.par.log2NfftMax)
      (hi : isSetter i = false ∧ (∀ x, i ≠ .apply x) ∧ i ≠ .reset ∧ i ≠ .clrerr) : Effect i s (analyzeCore l cs s)
  | transformed (l : Nat) (h1 : 1 ≤ l) (h2 : l ≤ s.par.log2NfftMax) (hi : i = .fftrun l) : Effect i s (runFft l s)
  | captured (idx : Nat) (d : Word) (h : idx < s.par.nfftMax) (hi : i = .wrir idx d) :
      Effect i s { s with ir := s.ir.write idx d }
  | cleared (hi : i = .clrerr) : Effect i s (clearErr s)

/-- A command's end: the error record, or an answer over one of the effects. -/
def Ends (i : Instr) (s t : State) : Prop := (∃ e, t = raiseErr e s) ∨ ∃ r u, t = respondOk r u ∧ Effect i s u

theorem readSpace_ends (i : Instr) (sp : Space) (idx : Nat) (s : State) : Ends i s (readSpace sp idx s) := by
  unfold readSpace
  split
  · exact .inr ⟨_, _, rfl, .unchanged⟩
  · exact .inl ⟨_, rfl⟩

theorem setter_ends (i : Instr) (same : Bool) (cfg' : FilterConfig) (s : State) (hi : isSetter i = true) :
    Ends i s (respondOk 0 (setter same cfg' s)) := by
  rcases setter_cases same cfg' s with ⟨_, h⟩ | ⟨_, h⟩
  · exact .inr ⟨_, _, by rw [h], .unchanged⟩
  · exact .inr ⟨_, _, by rw [h], .redesigned cfg' hi⟩

theorem lengthInRange_iff (p : Config) (l : Nat) : lengthInRange p l = true ↔ 1 ≤ l ∧ l ≤ p.log2NfftMax := by
  simp [lengthInRange]

/-- Every command answers a next state, of one of these forms. -/
theorem exec_cases (i : Instr) (s : State) : ∃ t, exec i s = .next t ∧ Ends i s t := by
  cases i with
  | nop => exact ⟨_, rfl, .inr ⟨_, _, rfl, .unchanged⟩⟩
  | setlp en => exact ⟨_, rfl, setter_ends _ _ _ s rfl⟩
  | sethp en => exact ⟨_, rfl, setter_ends _ _ _ s rfl⟩
  | setflc d => exact ⟨_, rfl, setter_ends _ _ _ s rfl⟩
  | setfhc d => exact ⟨_, rfl, setter_ends _ _ _ s rfl⟩
  | setfs d => exact ⟨_, rfl, setter_ends _ _ _ s rfl⟩
  | setord n => exact ⟨_, rfl, setter_ends _ _ _ s rfl⟩
  | apply x => exact ⟨_, rfl, .inr ⟨_, _, rfl, .sample x rfl⟩⟩
  | reset => exact ⟨_, rfl, .inr ⟨_, _, rfl, .zeroed rfl⟩⟩
  | analyze l cs =>
    refine ⟨_, rfl, ?_⟩
    split
    · rename_i h
      exact .inr ⟨_, _, rfl, .analyzed l cs (fun _ => (lengthInRange_iff s.par l).mp h) ⟨rfl, by simp, by simp, by simp⟩⟩
    · exact .inl ⟨_, rfl⟩
  | getdelay =>
    refine ⟨_, rfl, ?_⟩
    split
    · exact .inr ⟨_, _, rfl, .unchanged⟩
    · exact .inr ⟨_, _, rfl, .analyzed _ _ (fun h => (lengths_of_legal h).2.2) ⟨rfl, by simp, by simp, by simp⟩⟩
  | freqresp np =>
    refine ⟨_, rfl, ?_⟩
    split
    · exact .inl ⟨_, rfl⟩
    · rename_i h
      exact .inr ⟨_, _, rfl, .analyzed _ _ (fun _ => by omega) ⟨rfl, by simp, by simp, by simp⟩⟩
  | fftrun l =>
    refine ⟨_, rfl, ?_⟩
    split
    · rename_i h
      obtain ⟨h1, h2⟩ := (lengthInRange_iff s.par l).mp h
      exact .inr ⟨_, _, rfl, .transformed l h1 h2 rfl⟩
    · exact .inl ⟨_, rfl⟩
  | getord => exact ⟨_, rfl, .inr ⟨_, _, rfl, .unchanged⟩⟩
  | rdcsr num => exact ⟨_, rfl, readSpace_ends _ .csr num s⟩
  | rdcoef idx => exact ⟨_, rfl, readSpace_ends _ .coef idx s⟩
  | rdstate idx => exact ⟨_, rfl, readSpace_ends _ .state idx s⟩
  | rdresp idx =>
    refine ⟨_, rfl, ?_⟩
    split
    · exact readSpace_ends _ .resp idx s
    · exact .inl ⟨_, rfl⟩
  | rdir idx => exact ⟨_, rfl, readSpace_ends _ .ir idx s⟩
  | rdre idx => exact ⟨_, rfl, readSpace_ends _ .fftRe idx s⟩
  | rdim idx => exact ⟨_, rfl, readSpace_ends _ .fftIm idx s⟩
  | rdtw idx => exact ⟨_, rfl, readSpace_ends _ .tw idx s⟩
  | wrir idx d =>
    refine ⟨_, rfl, ?_⟩
    split
    · rename_i h
      exact .inr ⟨_, _, rfl, .captured idx d h rfl⟩
    · exact .inl ⟨_, rfl⟩
  | clrerr => exact ⟨_, rfl, .inr ⟨_, _, rfl, .cleared rfl⟩⟩

/-! ## Steps -/

theorem nextEvent_nil (s : State) (h : s.inbox = []) : nextEvent s = none := by simp [nextEvent, h]

theorem nextEvent_cons (s : State) (e : HostEvent) (rest : List HostEvent) (h : s.inbox = e :: rest) :
    nextEvent s = some (e, { s with inbox := rest }) := by simp [nextEvent, h]

/-- One step is one move of the host: none, a reset, the response taken, a word that is no command, or a command. -/
theorem step_cases (s : State) :
    (s.inbox = [] ∧ step s = .next s) ∨
    ∃ rest, let u : State := { s with inbox := rest }
      (s.inbox = .reset :: rest ∧ step s = .next (hardReset u)) ∨
      (s.inbox = .takeResponse :: rest ∧ step s = .next (takeResponse u)) ∨
      ∃ c, s.inbox = .command c :: rest ∧
        ((∃ e, decode c = .error e ∧ step s = .next (raiseErr (decodeErrKind e) (takeResponse u))) ∨
          ∃ i, decode c = .ok i ∧ step s = exec i (takeResponse u)) := by
  rcases h : s.inbox with _ | ⟨e, rest⟩
  · exact .inl ⟨rfl, by simp [step, nextEvent_nil s h]⟩
  · refine .inr ⟨rest, ?_⟩
    have hn := nextEvent_cons s e rest h
    cases e with
    | reset => exact .inl ⟨rfl, by simp [step, hn]⟩
    | takeResponse => exact .inr (.inl ⟨rfl, by simp [step, hn]⟩)
    | command c =>
      refine .inr (.inr ⟨c, rfl, ?_⟩)
      rcases hd : decode c with e | i
      · exact .inl ⟨e, rfl, by simp [step, hn, hd]⟩
      · exact .inr ⟨i, rfl, by simp [step, hn, hd]⟩

end Sys2Proof.Machine
end

