-- ==== Sys2Proof/Tests/Slice0.lean ====
section
/-! SUPPORT. The model's own tests: words written out from 30_encoding.md R75, R76; ill-formed terms; results from the
vectors of 95_test_vectors.md (each theorem names its vector); and a state meeting the hypotheses of every conditional
statement. -/

namespace Sys2Proof.Tests
open Sys2Proof Sys2Proof.Machine

set_option Elab.async false

/-! ## Well-formedness: one ill-formed term for each check -/

theorem test_setord_too_wide : Instr.wellFormed (.setord 65536) = false := by decide
theorem test_analyze_too_wide : Instr.wellFormed (.analyze 32 false) = false := by decide
theorem test_freqresp_too_wide : Instr.wellFormed (.freqresp 65536) = false := by decide
theorem test_fftrun_too_wide : Instr.wellFormed (.fftrun 32) = false := by decide
theorem test_rdcsr_too_wide : Instr.wellFormed (.rdcsr 256) = false := by decide
theorem test_rdcoef_too_wide : Instr.wellFormed (.rdcoef 16777216) = false := by decide
theorem test_rdstate_too_wide : Instr.wellFormed (.rdstate 16777216) = false := by decide
theorem test_rdresp_too_wide : Instr.wellFormed (.rdresp 16777216) = false := by decide
theorem test_rdir_too_wide : Instr.wellFormed (.rdir 16777216) = false := by decide
theorem test_rdre_too_wide : Instr.wellFormed (.rdre 16777216) = false := by decide
theorem test_rdim_too_wide : Instr.wellFormed (.rdim 16777216) = false := by decide
theorem test_rdtw_too_wide : Instr.wellFormed (.rdtw 16777216) = false := by decide
theorem test_wrir_too_wide : Instr.wellFormed (.wrir 16777216 0) = false := by decide
theorem test_reserved_word_ill_formed : wellFormedWord 0x20000028 = false := by decide +kernel
theorem test_unknown_opcode_ill_formed : wellFormedWord 0x3A000000 = false ∧ knownOpcode 0x3A000000 = false := by
  decide +kernel

/-! ## Decoding: a word of every constructor, from the formats of R75 and the opcodes of R76 -/

theorem test_decode_nop : decode ⟨0x00000000, 0⟩ = .ok .nop := by decide
theorem test_decode_setlp : decode ⟨0x01000001, 0⟩ = .ok (.setlp true) := by decide
theorem test_decode_sethp : decode ⟨0x02000000, 0⟩ = .ok (.sethp false) := by decide
theorem test_decode_setflc : decode ⟨0x03000000, 0x3FD0000000000000⟩ = .ok (.setflc 0x3FD0000000000000) := by decide
theorem test_decode_setfhc : decode ⟨0x04000000, 0x4059000000000000⟩ = .ok (.setfhc 0x4059000000000000) := by decide
theorem test_decode_setfs : decode ⟨0x05000000, 0x408F400000000000⟩ = .ok (.setfs 0x408F400000000000) := by decide
theorem test_decode_setord : decode ⟨0x0600FFFF, 0⟩ = .ok (.setord 65535) := by decide
theorem test_decode_apply : decode ⟨0x10000000, 0x3FF0000000000000⟩ = .ok (.apply 0x3FF0000000000000) := by decide
theorem test_decode_reset : decode ⟨0x11000000, 5⟩ = .ok .reset := by decide
theorem test_decode_analyze : decode ⟨0x2000010C, 0⟩ = .ok (.analyze 12 true) := by decide
theorem test_decode_getdelay : decode ⟨0x21000000, 0⟩ = .ok .getdelay := by decide
theorem test_decode_freqresp : decode ⟨0x22000801, 0⟩ = .ok (.freqresp 2049) := by decide
theorem test_decode_fftrun : decode ⟨0x23000003, 0⟩ = .ok (.fftrun 3) := by decide
theorem test_decode_getord : decode ⟨0x30000000, 0⟩ = .ok .getord := by decide
theorem test_decode_rdcsr : decode ⟨0x3100000A, 0⟩ = .ok (.rdcsr 10) := by decide
theorem test_decode_rdcoef : decode ⟨0x3200003C, 0⟩ = .ok (.rdcoef 60) := by decide
theorem test_decode_rdstate : decode ⟨0x3300001F, 0⟩ = .ok (.rdstate 31) := by decide
theorem test_decode_rdresp : decode ⟨0x34000040, 0⟩ = .ok (.rdresp 64) := by decide
theorem test_decode_rdir : decode ⟨0x35FFFFFF, 0⟩ = .ok (.rdir 16777215) := by decide
theorem test_decode_rdre : decode ⟨0x36000001, 0⟩ = .ok (.rdre 1) := by decide
theorem test_decode_rdim : decode ⟨0x37000006, 0⟩ = .ok (.rdim 6) := by decide
theorem test_decode_rdtw : decode ⟨0x38000801, 0⟩ = .ok (.rdtw 2049) := by decide
theorem test_decode_wrir : decode ⟨0x39000003, 0xC000000000000000⟩ = .ok (.wrir 3 0xC000000000000000) := by decide
theorem test_decode_clrerr : decode ⟨0x3F000000, 0⟩ = .ok .clrerr := by decide

/-- V50: reserved bits and unknown opcodes. -/
theorem test_decode_refusals :
    decode ⟨0x00000001, 0⟩ = .error .reservedBit ∧ decode ⟨0x01000002, 0⟩ = .error .reservedBit ∧
    decode ⟨0x06010004, 0⟩ = .error .reservedBit ∧ decode ⟨0x20000208, 0⟩ = .error .reservedBit ∧
    decode ⟨0x20000088, 0⟩ = .error .reservedBit ∧ decode ⟨0x31000100, 0⟩ = .error .reservedBit ∧
    decode ⟨0x07000000, 0⟩ = .error .illegalOpcode ∧ decode ⟨0xFFFFFFFF, 0⟩ = .error .illegalOpcode := by decide

theorem test_decode_table_word : decodeTableWord 32 0x3100000A = some (.rdcsr 10) ∧
    decodeTableWord 96 (0x10000000 + 7 * 2 ^ 32) = some (.apply 7) := by decide

/-! ## Arithmetic (R12, R15 to R17): results from the IEEE definitions and the vectors' own numbers -/

/-- 1.0 + 2^-53 is a tie and rounds to even, 1.0 + 3·2^-53 rounds up. -/
theorem test_fadd_ties : (runDraw (fadd f1 0x3CA0000000000000) 0).1 = f1 ∧
    (runDraw (fadd f1 0x3CB8000000000000) 0).1 = 0x3FF0000000000002 := by decide +kernel

theorem test_fadd_zero_signs : (runDraw (fadd 0x8000000000000000 0x8000000000000000) 0).1 = 0x8000000000000000 ∧
    (runDraw (fsub f1 f1) 0).1 = f0 := by decide +kernel

/-- The smallest subnormal halved is a tie and rounds to zero; the largest finite number doubled overflows. -/
theorem test_fmul_ends : (runDraw (fmul 0x0000000000000001 fHalf) 0).1 = f0 ∧
    (runDraw (fmul 0x7FEFFFFFFFFFFFFF f2) 0).1 = 0x7FF0000000000000 := by decide +kernel

/-- V4: `b2/FS` of the band-pass example; and 1/0. -/
theorem test_fdiv : (runDraw (fdiv 0x3FBB06D1D2009134 0x408F400000000000) 0).1 = 0x3F1BACDF0C4A4F0E ∧
    (runDraw (fdiv 0xBFF0000000000000 f0) 0).1 = 0xFFF0000000000000 := by decide +kernel

theorem test_comparisons : flt 0x8000000000000000 f0 = false ∧ fle f0 0x8000000000000000 = true ∧
    fgt 0x7FF8000000000000 f0 = false ∧ flt 0xFFF0000000000000 0xFFEFFFFFFFFFFFFF = true := by decide +kernel

theorem test_int2f : int2f 3 = 0x4008000000000000 ∧ int2f 0 = f0 := by decide +kernel

/-! ## States of the vectors -/

/-- The LP4 design (V2). -/
def lp4Design : Design := ⟨.lowPass, 2, 2, [(0, 0x3FD724B6105C2F31), (1, 0x3FD0A210181EF62A)],
  [(0, 0x3CA724B6105C2F32), (1, 0xBFDC92D84170BCC6), (4, 0x3CA0A210181EF62B), (5, 0xBFA4420303DEC552)]⟩

/-- The LP4 configuration. -/
def lp4Config : FilterConfig := ⟨true, false, 0x3FD0000000000000, 0, 0x3FF0000000000000, 4⟩

/-- The machine with a configuration and a design. -/
def machine (c : FilterConfig) (d : Design) : State := { State.reset with cfg := c, design := d }

def lp4 : State := machine lp4Config lp4Design

/-- The smallest parameters R8 allows. -/
def smallest : Config := ⟨1, 8, 1⟩

/-- The largest parameters R8 allows. -/
def largest : Config := ⟨255, 24, 24⟩

/-- The HP2 design (V3). -/
def hp2Design : Design := ⟨.highPass, 1, 2, [(0, 0x3FE4723DE2CF7937)],
  [(0, 0x3FF249A5EC65FE09), (1, 0xBFDA6B5764E3D194)]⟩

/-- The BP4 design (V4). -/
def bp4Design : Design := ⟨.bandPass, 1, 4, [(0, 0x3F1BACDF0C4A4F0E)],
  [(0, 0x3FFF145A23CC6382), (1, 0xC000F42062EAB74C), (2, 0x3FF37767B492A03C), (3, 0xBFDA6B5764E3D194)]⟩

/-- The BP4 configuration. -/
def bp4Config : FilterConfig :=
  ⟨true, true, 0x4069000000000000, 0x4059000000000000, 0x408F400000000000, 4⟩

/-- The HP2 configuration. -/
def hp2Config : FilterConfig := ⟨false, true, 0, 0x4059000000000000, 0x408F400000000000, 2⟩

/-- A field of the state after an instruction. -/
def after {α : Type} (i : Instr) (s : State) (f : State → α) : Option α :=
  match exec i s with
  | .next t => some (f t)
  | .fault _ => none
  | .refused _ => none

/-- The response to an instruction as status code and data. -/
def answer (i : Instr) (s : State) : Option (BitVec 8 × Word) :=
  match exec i s with
  | .next t => t.rsp.map fun r => (r.status.code, r.data)
  | .fault _ => none
  | .refused _ => none

/-! ## Configuration (V7, V8, R91) -/

theorem test_setlp_from_reset : after (.setlp true) State.reset (fun t => (t.cfg.lpen, t.design.mode, statusWord t)) =
    some (true, .bypass, 0) := by decide +kernel

/-- `+0.0` to `-0.0` is a change: the delay lines are zeroed (V8). -/
theorem test_setfhc_minus_zero :
    after (.setfhc 0x8000000000000000) { State.reset with delayLine := [(0, f1)], delayValid := true }
      (fun t => (t.delayLine, t.delayValid)) = some ([], false) := by decide +kernel

theorem test_setflc_same_value :
    after (.setflc 0x3FD0000000000000) { lp4 with delayLine := [(0, f1)], delayValid := true }
      (fun t => (t.delayLine, t.delayValid)) = some ([(0, f1)], true) := by decide +kernel

theorem test_setord_echoed : after (.setord 17) State.reset (fun t => (t.cfg.order, t.design.mode)) =
    some (17, .bypass) := by decide +kernel

theorem test_sethp_without_cutoff_is_bypass : after (.sethp true) State.reset (fun t => (t.cfg.hpen, t.design.mode)) =
    some (true, .bypass) := by decide +kernel

theorem test_setfs_stores : after (.setfs 0x408F400000000000) State.reset (fun t => t.cfg.fs) =
    some 0x408F400000000000 := by decide +kernel

/-- V7 rows: valid low-pass, `FLC = FS/2`, one unit above it, 16 and 17 stages, both edges equal, band-pass. -/
theorem test_mode_derivation :
    (runDraw (deriveMode Config.hardware lp4Config) 0).1 = (.lowPass, 2) ∧
    (runDraw (deriveMode Config.hardware { lp4Config with flc := 0x3FE0000000000000 }) 0).1 = (.lowPass, 2) ∧
    (runDraw (deriveMode Config.hardware { lp4Config with flc := 0x3FE0000000000001 }) 0).1 = (.bypass, 0) ∧
    (runDraw (deriveMode Config.hardware { lp4Config with order := 16 }) 0).1 = (.lowPass, 8) ∧
    (runDraw (deriveMode Config.hardware { lp4Config with order := 17 }) 0).1 = (.bypass, 0) ∧
    (runDraw (deriveMode Config.hardware { lp4Config with order := 0 }) 0).1 = (.bypass, 0) ∧
    (runDraw (deriveMode Config.hardware { lp4Config with hpen := true, fhc := 0x3FD0000000000000 }) 0).1 = (.bypass, 0) ∧
    (runDraw (deriveMode Config.hardware bp4Config) 0).1 = (.bandPass, 1) ∧
    (runDraw (deriveMode Config.hardware { bp4Config with order := 33 }) 0).1 = (.bypass, 0) ∧
    (runDraw (deriveMode Config.hardware hp2Config) 0).1 = (.highPass, 1) := by decide +kernel

/-! ## Streaming (V20 to V25) -/

theorem test_apply_lp4_first : answer (.apply f1) lp4 = some (0, 0x3FB80F210B5BBEEA) := by decide +kernel

/-- V20, sample 1: the delay lines after it. -/
theorem test_apply_lp4_second :
    after (.apply f0) { lp4 with delayLine := [(0, f1), (4, 0x3FD724B6105C2F31)] } (fun t => t.delayLine) =
      some [(0, 0x3CA724B6105C2F32), (1, f1), (4, 0x3FE724B6105C2F31), (5, 0x3FD724B6105C2F31)] := by decide +kernel

/-- V21, sample 1. -/
theorem test_apply_hp2 : answer (.apply f0) { machine hp2Config hp2Design with delayLine := [(0, f1)] } =
    some (0, 0xBFE185D8E3E51DE2) := by decide +kernel

/-- V22, sample 2. -/
theorem test_apply_bp4 :
    answer (.apply f0) { machine bp4Config bp4Design with delayLine := [(0, 0x3FFF145A23CC6382), (1, f1)] } =
      some (0, 0xBF0326FA69E76B42) := by decide +kernel

/-- V24: a signalling NaN passes unchanged in Bypass. -/
theorem test_apply_bypass : answer (.apply 0x7FF4000000000001) State.reset = some (0, 0x7FF4000000000001) := by
  decide +kernel

theorem test_reset_zeroes : after .reset { lp4 with delayLine := [(0, f1)], delayValid := true }
    (fun t => (t.delayLine, t.delayValid, t.design == lp4Design)) = some ([], true, true) := by decide +kernel

/-! ## Analysis (V30 to V36, V10, V11) -/

/-- V30: the delay of LP4 is 2, and `IR[2]` is the peak. -/
theorem test_analyze_lp4 : after (.analyze 3 false) lp4 (fun t => (t.delay, t.ir.read 2, t.delayValid, t.respValid)) =
    some (2, 0x3FE0952853C53B5F, true, false) := by decide +kernel

theorem test_analyze_length_zero : answer (.analyze 0 true) lp4 = some (3, 0) := by decide +kernel

theorem test_getdelay_cached : answer .getdelay { lp4 with delay := 1, delayValid := true } = some (0, 1) := by
  decide +kernel

theorem test_getdelay_bypass : answer .getdelay State.reset = some (0, 0) := by decide +kernel

/-- V35. -/
theorem test_freqresp_bypass : after (.freqresp 5) State.reset (fun t => (t.rsp, t.respLen, statusWord t)) =
    some (some ⟨.ok, 8⟩, 8, 3) := by decide +kernel

theorem test_freqresp_too_long : answer (.freqresp 2049) State.reset = some (3, 0) := by decide +kernel

/-- V10: the transform of 1.0, 2.0, ..., 8.0. -/
theorem test_fftrun_eight :
    after (.fftrun 3) { State.reset with ir := [(0, 0x3FF0000000000000), (1, 0x4000000000000000),
        (2, 0x4008000000000000), (3, 0x4010000000000000), (4, 0x4014000000000000), (5, 0x4018000000000000),
        (6, 0x401C000000000000), (7, 0x4020000000000000)] }
      (fun t => (t.re.read 0, t.re.read 5, t.im)) =
    some (0x4042000000000000, 0xC010000000000000,
      [(1, 0x4023504F333F9DE6), (2, 0x4010000000000000), (3, 0x3FFA827999FCEF34), (5, 0xBFFA827999FCEF34),
        (6, 0xC010000000000000), (7, 0xC023504F333F9DE6)]) := by decide +kernel

/-- V11: two points, 3.0 and -1.0. -/
theorem test_fftrun_two :
    after (.fftrun 1) { State.reset with ir := [(0, 0x4008000000000000), (1, 0xBFF0000000000000)] }
      (fun t => (t.re, t.im)) = some ([(0, 0x4000000000000000), (1, 0x4010000000000000)], []) := by decide +kernel

/-- V19. -/
theorem test_bitrev : (List.range 16).map (bitrev · 4) = [0, 8, 4, 12, 2, 10, 6, 14, 1, 9, 5, 13, 3, 11, 7, 15] := by
  decide +kernel

/-- R19. -/
theorem test_nextpow2 : [1, 2, 3, 256, 257].map nextPow2 = [1, 2, 4, 256, 512] := by decide +kernel

/-- V31: `p` of bin 2, up to the elementary function. -/
theorem test_db_sum_of_squares :
    (runDraw (do
      let a ← fmul 0xBFE4DE7BAF08805B 0xBFE4DE7BAF08805B
      let b ← fmul 0xBFA2CB0AD668A9EC 0xBFA2CB0AD668A9EC
      fadd a b) 0).1 = 0x3FDB4E5DCA8FFAE0 := by decide +kernel

/-- V37: a bin of magnitude zero is at the floor, and the maximum is subtracted (V31, bin 1). -/
theorem test_db_floor_and_normalize : (runDraw (dbBin f0 0x8000000000000000) 0).1 = fFloor ∧
    (runDraw (normalizeResp 2 [(0, 0x3FD32A8BE8AFFD8E), (1, 0x3FC0A8DF3B86C8AA)]) 0).1 = [(1, 0xBFC5AC3895D93272)] := by
  decide +kernel

/-! ## Access and errors (V14, V50 to V52) -/

theorem test_rdcsr_status : answer (.rdcsr 0x0A) { lp4 with err := true, errCode := 4, respValid := true } =
    some (0, 0x406) := by decide +kernel
theorem test_rdcsr_absent : answer (.rdcsr 0x0D) lp4 = some (3, 0) := by decide +kernel
theorem test_rdcoef : answer (.rdcoef 10) lp4 = some (0, 0xBFA4420303DEC552) := by decide +kernel
theorem test_rdcoef_absent : answer (.rdcoef 0x3D) lp4 = some (3, 0) := by decide +kernel
theorem test_rdstate : answer (.rdstate 4) { lp4 with delayLine := [(4, 0x3FD724B6105C2F31)] } =
    some (0, 0x3FD724B6105C2F31) := by decide +kernel
theorem test_rdstate_absent : answer (.rdstate 32) lp4 = some (3, 0) := by decide +kernel
theorem test_rdresp_stale : answer (.rdresp 0) State.reset = some (4, 0) := by decide +kernel
theorem test_rdresp_past : answer (.rdresp 4) { lp4 with respValid := true, respLen := 4 } = some (3, 0) := by
  decide +kernel
theorem test_rdir : answer (.rdir 2) { lp4 with ir := [(2, f1)] } = some (0, f1) := by decide +kernel
theorem test_rdre : answer (.rdre 4096) lp4 = some (3, 0) := by decide +kernel
theorem test_rdim : answer (.rdim 6) { lp4 with im := [(6, f2)] } = some (0, f2) := by decide +kernel
theorem test_rdtw : answer (.rdtw 2) lp4 = some (0, 0x3FEFFFFD88586EE6) ∧
    answer (.rdtw 4095) lp4 = some (0, 0xBF5921FAAEE6472E) := by decide +kernel

/-- R29, R36, R50 and R100 at other parameters: `CAP`, an entry the hardware's ROM does not hold, `cos(2π·2049/2^24)`
(computed outside Lean to 120 decimals), the index past one stage, and the stage limits. -/
theorem test_other_parameters :
    answer (.rdcsr 1) { lp4 with par := largest } = some (0, 0x1818FF) ∧
    answer (.rdcsr 1) { lp4 with par := smallest } = some (0, 0x010801) ∧
    answer (.rdtw 4098) { lp4 with par := largest } = some (0, 0x3FEFFFFF61EE9D43) ∧
    answer (.rdtw 64) { lp4 with par := smallest } = some (0, 0x3FE6A09E667F3BCD) ∧
    answer (.rdcoef 8) { lp4 with par := smallest } = some (3, 0) ∧
    (runDraw (deriveMode smallest lp4Config) 0).1 = (.bypass, 0) ∧
    (runDraw (deriveMode largest { lp4Config with order := 510 }) 0).1 = (.lowPass, 255) := by decide +kernel

/-- The computed cosine meets the table of `cos(2π·t/4096)` where both have the angle. -/
theorem test_computed_cosine_meets_the_table :
    [1, 2, 3, 341, 512, 683, 1022, 1023].all (fun t =>
      ofSignMag false (roundMag (fixedCos (t * 4096) * unitScale) fixedOne) == quarterCos t) = true := by decide +kernel

theorem test_rdtw_past : answer (.rdtw 4096) lp4 = some (3, 0) := by decide +kernel
theorem test_wrir : after (.wrir 3 f4) lp4 (fun t => t.ir) = some [(3, f4)] := by decide +kernel
theorem test_wrir_past : answer (.wrir 4096 f4) lp4 = some (3, 0) := by decide +kernel
theorem test_getord : answer .getord State.reset = some (0, 1) := by decide +kernel
theorem test_nop : answer .nop State.reset = some (0, 0) := by decide +kernel
theorem test_clrerr : after .clrerr { State.reset with err := true, errCode := 4 } (fun t => statusWord t) = some 0 := by
  decide +kernel

/-- V51, step 1: an illegal word, presented as the host places it, sets the record. -/
theorem test_step_illegal_word :
    (match step (State.reset.withFetchWord 32 0x07000000) with
      | .next t => some (statusWord t, t.rsp, t.inbox)
      | .fault _ => none
      | .refused _ => none) = some (0x104, some ⟨.err .opc, 0⟩, []) := by decide +kernel

/-- V51, step 2: the first error is kept. -/
theorem test_first_error_kept : after (.rdcsr 0x0D) { State.reset with err := true, errCode := 1 } statusWord =
    some 0x104 := by decide +kernel

theorem test_step_reset_event :
    (match step { lp4 with inbox := [.reset] } with
      | .next t => t == State.reset
      | .fault _ => false
      | .refused _ => false) = true := by decide +kernel

/-! ## Witnesses: the hypotheses of the conditional statements are met -/

theorem witness_DecodeOfEncode : Instr.wellFormed (.analyze 31 true) = true ∧ Instr.wellFormed (.setord 65535) = true ∧
    Instr.wellFormed (.wrir 16777215 0) = true := by decide
theorem witness_EncodeOfDecode : decode ⟨0x20000108, 9⟩ = .ok (.analyze 8 true) := by decide
theorem witness_StepRunsDecodedInstruction :
    (State.reset.withFetchWord 32 0x06000004).inbox = [.command ⟨0x06000004, 0⟩] ∧
      decode ⟨0x06000004, 0⟩ = .ok (.setord 4) := by decide
theorem witness_UnknownOpcodeAnswersErrOpc :
    (State.reset.withFetchWord 32 0x3E000000).inbox = [.command ⟨0x3E000000, 0⟩] ∧ knownOpcode 0x3E000000 = false := by
  decide +kernel
theorem witness_ReservedBitAnswersErrRsv :
    (State.reset.withFetchWord 32 0x01000003).inbox = [.command ⟨0x01000003, 0⟩] ∧ knownOpcode 0x01000003 = true ∧
      wellFormedWord 0x01000003 = false := by decide +kernel
theorem witness_IgnoredOperandHasNoEffect : opcField 0x3F000000 ∉ [0x03, 0x04, 0x05, 0x10, 0x39] := by decide
theorem witness_HostMovesBesideCommands : ({ lp4 with inbox := [.takeResponse] } : State).inbox = [.takeResponse] ∧
    ({ lp4 with inbox := [.reset] } : State).inbox = [.reset] ∧ lp4.inbox = [] := by decide
theorem witness_FailedCommandChangesOnlyErrorRecord :
    exec (.rdcsr 13) State.reset = .next (raiseErr .range State.reset) ∧
      (raiseErr .range State.reset).rsp = some ⟨.err .range, 0⟩ := ⟨rfl, rfl⟩
theorem witness_ErrorRecordIsSticky :
    exec .nop State.reset = .next (respondOk 0 State.reset) ∧ (respondOk 0 State.reset).rsp = some ⟨.ok, 0⟩ ∧
      Instr.nop ≠ .clrerr ∧ Instr.nop ≠ .rdcsr 0x0A ∧ decode ⟨0x07000000, 0⟩ = .error .illegalOpcode :=
  ⟨rfl, rfl, by decide, by decide, by decide⟩

/-- The record is set before, and cleared by, this step. -/
theorem witness_ErrorRecordIsSticky_cleared :
    ({ lp4 with err := true, errCode := 1, inbox := [.command ⟨0x3F000000, 0⟩] } : State).err = true ∧
      ∃ t, step { lp4 with err := true, errCode := 1, inbox := [.command ⟨0x3F000000, 0⟩] } = .next t ∧ t.err = false :=
  ⟨rfl, _, rfl, rfl⟩
theorem witness_OnlySettersChangeTheDesign :
    isSetter .clrerr = false ∧ exec .clrerr lp4 = .next (respondOk 0 (clearErr lp4)) ∧
      (∀ x, Instr.clrerr ≠ .apply x) ∧ Instr.clrerr ≠ .reset := ⟨rfl, rfl, by simp, by simp⟩

theorem lp4_shape : lp4Design.Shape 8 := ⟨by decide, by decide, by decide, by decide, by decide⟩
theorem bp4_shape : bp4Design.Shape 8 := ⟨by decide, by decide, by decide, by decide, by decide⟩

theorem witness_StepKeepsInv : Inv State.reset ∧ step State.reset = .next State.reset := by
  refine ⟨⟨fun _ _ _ => rfl, fun _ _ => rfl, fun _ _ _ => rfl, ⟨by decide, by decide, by decide, by decide, by decide⟩,
    (fun h => by cases h), (fun _ => by decide), (fun _ => rfl), ?_, ?_, ?_, ?_, ?_, ?_, ?_, rfl⟩, rfl⟩ <;> exact ⟨rfl, rfl⟩
theorem witness_StepKeepsDesignCurrent : DesignCurrent State.reset ∧ step State.reset = .next State.reset :=
  ⟨⟨0, by decide +kernel⟩, rfl⟩

/-- Register values at the end of the setter's cases: held and not held, the largest order. -/
theorem witness_SettersStoreAndRedesign : lp4.cfg.order.toNat = 4 ∧ lp4.cfg.lpen = true ∧ lp4.cfg.hpen ≠ true ∧
    65535 < 2 ^ 16 := by decide
theorem witness_LowPassHighPassCoefficients :
    (runDraw (designOf Config.hardware lp4Config) 0).1.mode = .lowPass ∧ (runDraw (designOf Config.hardware hp2Config) 0).1.mode = .highPass ∧
      1 < (runDraw (designOf Config.hardware lp4Config) 0).1.numStages.toNat := ⟨by decide +kernel, by decide +kernel, by decide +kernel⟩
theorem witness_BandPassCoefficients :
    (runDraw (designOf Config.hardware bp4Config) 0).1.mode = .bandPass ∧ 0 < (runDraw (designOf Config.hardware bp4Config) 0).1.numStages.toNat :=
  ⟨by decide +kernel, by decide +kernel⟩
theorem witness_legal_parameters : Config.hardware.legal = true ∧ smallest.legal = true ∧ largest.legal = true := by decide
theorem witness_ModeDerivation : (runDraw (designOf Config.hardware State.reset.cfg) 0).1.mode = .bypass := by decide +kernel
theorem witness_UnassignedCoefficientsAreZero : (runDraw (designOf Config.hardware lp4Config) 0).1.numStages.toNat ≤ 7 ∧
    (runDraw (designOf Config.hardware lp4Config) 0).1.numCoef.toNat ≤ 3 := ⟨by decide +kernel, by decide +kernel⟩
theorem witness_ApplyInBypassIsIdentity : State.reset.design.mode = .bypass := rfl
theorem witness_ApplyCompletesAndWritesActiveTaps : lp4.design.Shape lp4.par.smax ∧ InactiveTap lp4.design 2 0 ∧
    InactiveTap lp4.design 0 3 := ⟨lp4_shape, ⟨by decide, by decide⟩, by decide, by decide⟩
theorem witness_CascadeRunsStagesInOrder : lp4Design.mode ≠ .bypass ∧ 254 + 1 < 2 ^ 8 := by decide
theorem witness_LowPassHighPassStage : lp4Design.mode = .lowPass ∧ lp4Design.numCoef = 2 ∧ hp2Design.mode = .highPass ∧
    hp2Design.numCoef = 2 ∧ WordMem.wf [(0, f1), (1, f2)] = true := by decide +kernel
theorem witness_BandPassStage : bp4Design.mode = .bandPass ∧ bp4Design.numCoef = 4 ∧ WordMem.wf [(3, f1)] = true := by
  decide +kernel
theorem witness_AnalysisLengthOutOfRange : 0 < 1 ∧ lp4.par.log2NfftMax < 13 := by decide
theorem witness_AnalyzeInBypass : State.reset.design.mode = .bypass ∧ 1 ≤ lp4.par.log2NfftMax ∧
    State.reset.resp.wf = true := by decide
theorem witness_AnalyzeFrame : 1 ≤ 12 ∧ 12 ≤ lp4.par.log2NfftMax ∧
    ∃ t, exec (.analyze 12 false) lp4 = .next t := ⟨by decide, by decide, _, rfl⟩
theorem witness_AnalysisLeavesTheFilterUndisturbed : ∃ l cs, Instr.analyze 4 true = .analyze l cs := ⟨4, true, rfl⟩
theorem witness_AnalyzeResult : lp4.design.mode ≠ .bypass ∧ 1 ≤ 1 ∧ 1 ≤ lp4.par.log2NfftMax ∧ lp4.ir.wf = true := by decide
theorem witness_PeakIsFirstMaximum : isNaN (WordMem.read [(0, 0x7FF8000000000000)] 0) = true ∧
    isNaN (WordMem.read [(0, f1)] 0) = false := by decide +kernel
theorem witness_GetdelayReusesTheCachedDelay : ({ lp4 with delayValid := true } : State).delayValid = true ∧
    lp4.delayValid = false ∧ lp4.par = Config.hardware ∧ lp4.par.legal = true := by decide

/-- 2048 points take `e = 11` and fit, 2049 take `e = 12` and do not; 0 points take `e = 0`. -/
theorem witness_FreqrespRoundsUp : max 2048 1 ≤ 2 ^ 11 ∧ 2 ^ 11 < 2 * max 2048 1 ∧ 11 + 1 ≤ lp4.par.log2NfftMax ∧
    max 2049 1 ≤ 2 ^ 12 ∧ 2 ^ 12 < 2 * max 2049 1 ∧ lp4.par.log2NfftMax < 12 + 1 ∧ max 0 1 ≤ 2 ^ 0 ∧
    lp4.par = Config.hardware := by decide
theorem witness_NextPow2IsLeast : 1 ≤ 2048 ∧ 1 ≤ 1 := by decide
theorem witness_BitReversedLoad : 7 < 2 ^ 3 ∧ WordMem.wf [(0, f1)] = true := by decide +kernel
theorem witness_ButterflyResult : 0 ≠ 4 ∧ WordMem.wf [(0, f1)] = true ∧ WordMem.wf [] = true := by decide +kernel
theorem witness_FftStageIsSimultaneousButterflies : 1 ≤ 3 ∧ 3 ≤ 3 ∧ 3 ≤ lp4.par.log2NfftMax ∧ 3 < 2 ^ 3 ∧
    3 % 2 ^ 3 < 2 ^ 3 / 2 ∧ WordMem.wf [(0, f1)] = true ∧ WordMem.wf [] = true := by decide +kernel
theorem witness_FftrunRunsTheFftAlone : 1 ≤ 12 ∧ 12 ≤ lp4.par.log2NfftMax := by decide
theorem witness_DecibelBins : WordMem.wf [(3, f1)] = true ∧ feq f0 f0 = true ∧ feq f1 f0 = false := by decide +kernel
theorem witness_NormalizedMaximumIsZero : WordMem.wf [(0, f1), (1, fFloor)] = true ∧
    (∀ j, j < 2 → isFinite (WordMem.read [(0, f1), (1, fFloor)] j) = true) ∧
    isNaN (WordMem.read [(0, f1), (1, fFloor)] 0) = false ∧
    WordMem.wf [(0, 0x7FF8000000000000)] = true ∧ isNaN (WordMem.read [(0, 0x7FF8000000000000)] 0) = true := by
  decide +kernel

/-- A NaN past bin 0 does not win, one at bin 0 is not beaten, and an infinity is the maximum. -/
theorem witness_NormalizedMaximumIsZero_edges :
    respMax [(0, f1), (1, 0x7FF8000000000000)] 2 = f1 ∧
    respMax [(0, 0x7FF8000000000000), (1, f1)] 2 = 0x7FF8000000000000 ∧
    respMax [(0, f1), (1, 0x7FF0000000000000)] 2 = 0x7FF0000000000000 := by decide +kernel
theorem witness_AnalysisDependsOnTheDesignOnly :
    lp4.par = ({ lp4 with delayLine := [(0, f1)], ir := [(5, f1)] } : State).par ∧
      lp4.design = ({ lp4 with delayLine := [(0, f1)], ir := [(5, f1)] } : State).design ∧
      lp4.draws = ({ lp4 with delayLine := [(0, f1)], ir := [(5, f1)] } : State).draws ∧ lp4.re.wf = true ∧
      WordMem.wf [(5, f1)] = true ∧ (∃ t, exec (.analyze 3 true) lp4 = .next t) ∧
      ∃ t, exec (.analyze 3 true) { lp4 with delayLine := [(0, f1)], ir := [(5, f1)] } = .next t :=
  ⟨rfl, rfl, rfl, rfl, by decide +kernel, ⟨_, rfl⟩, _, rfl⟩
theorem witness_RdcsrReadsTheCsrs : 0x0C < 0x0D ∧ lp4.par = Config.hardware ∧ lp4.par.legal = true := by decide
theorem witness_RdcoefReadsTheCoefficients : 7 < lp4.par.smax ∧ 3 < 4 ∧ lp4.par.smax ≤ 64 / 8 ∧ 4 < 5 % 8 := by decide
theorem witness_RdstateReadsTheDelayLines : 7 < lp4.par.smax ∧ 3 < 4 ∧ 4 * lp4.par.smax ≤ 32 := by decide
theorem witness_RdrespRefusesStaleResponses : State.reset.respValid = false ∧
    ({ lp4 with respValid := true, respLen := 4 } : State).respLen.toNat ≤ 4 ∧
    3 < ({ lp4 with respValid := true, respLen := 4 } : State).respLen.toNat := by decide
theorem witness_BufferReads : 4095 < lp4.par.nfftMax ∧ lp4.par.nfftMax ≤ 4096 := by decide
theorem witness_RdtwReadsTheTwiddleRom : 2 * 2047 + 1 < lp4.par.nfftMax ∧ lp4.par.legal = true ∧
    lp4.par.nfftMax ≤ 4096 := by decide
theorem witness_TwiddleRomTurnsStepByStep : 2046 + 1 < Config.hardware.nfftMax / 2 ∧
    largest.log2NfftMax = Config.hardware.log2NfftMax + 12 ∧ largest.legal = true := by decide
theorem witness_WrirWritesOneWord : State.reset.ir.wf = true ∧ 4095 < lp4.par.nfftMax ∧ lp4.par.nfftMax ≤ 4096 := by decide
theorem witness_OperationsRoundToNearestEven : isFinite f0 = true ∧ isFinite 0xFFEFFFFFFFFFFFFF = true ∧
    isZero 0x8000000000000001 = false := by decide +kernel
/-- Both sides: `0/0` draws (every draw is a NaN), and one divided by `-0` meets the last clause. -/
theorem witness_InvalidOperationsDrawQuietNaNs : runDraw (fdiv f0 f0) 0 = (quietNaN (Config.nanBits 0), 1) ∧
    isNaN (runDraw (fdiv f0 f0) 0).1 = true ∧
    isFinite f1 = true ∧ isZero f1 = false ∧ isZero 0x8000000000000000 = true :=
  ⟨rfl, isNaN_quietNaN _, by decide +kernel, by decide +kernel, by decide +kernel⟩
theorem witness_ComparisonsFollowTheValues : isFinite 0x0000000000000001 = true ∧ isInf 0xFFF0000000000000 = true ∧
    isNaN 0xFFF8000000000000 = true ∧ isNaN 0x7FF0000000000000 = false := by decide +kernel
theorem witness_IntegerConversionIsExact : 2 ^ 53 - 1 < 2 ^ 53 := by decide

/-- Infinities of both signs, a finite number, and a sum and a difference that are zero. -/
theorem witness_InfiniteOperandsAndZeroSigns :
    isInf 0x7FF0000000000000 = true ∧ isInf 0xFFF0000000000000 = true ∧ isFinite f1 = true ∧
    isNeg 0xFFF0000000000000 ≠ isNeg 0x7FF0000000000000 ∧ isNeg 0xFFF0000000000000 = true ∧
    isNaN f1 = false ∧ isZero f1 = false ∧
    signedUnits f1 + signedUnits (fneg f1) = 0 ∧ signedUnits f1 - signedUnits f1 = 0 := by decide +kernel

/-- IEEE 754: `1 - inf`, `-inf · -1`, `1 / -inf`, `-0 - +0`. -/
theorem test_infinite_operands_and_zero_signs :
    (runDraw (fsub f1 0x7FF0000000000000) 0).1 = 0xFFF0000000000000 ∧
    (runDraw (fmul 0xFFF0000000000000 0xBFF0000000000000) 0).1 = 0x7FF0000000000000 ∧
    (runDraw (fdiv f1 0xFFF0000000000000) 0).1 = 0x8000000000000000 ∧
    (runDraw (fsub 0x8000000000000000 f0) 0).1 = 0x8000000000000000 := by decide +kernel
theorem witness_ConstantsSignBitAndElementaryFunctions : 63 < 64 ∧ 62 < 64 := by decide

end Sys2Proof.Tests
end

section
/-! PROOF. `nextpow2` (00_scope.md R19) and the number of points FREQRESP analyses (42_analysis.md R158). -/

namespace Sys2Proof.Machine

/-- The exponent of `nextpow2` is the least one that reaches `n` (R19). -/
theorem ceilLog2_le_iff (n e : Nat) : ceilLog2 n ≤ e ↔ n ≤ 2 ^ e := by
  unfold ceilLog2
  split
  case isTrue h => exact ⟨fun _ => h.trans Nat.one_le_two_pow, fun _ => Nat.zero_le e⟩
  case isFalse h =>
    rw [Nat.succ_le_iff, Nat.log2_lt (by omega)]
    omega

theorem le_two_pow_ceilLog2 (n : Nat) : n ≤ 2 ^ ceilLog2 n := (ceilLog2_le_iff n _).mp le_rfl

/-- The power reached is less than twice `n`: the one before it falls short. -/
theorem two_pow_ceilLog2_lt (n : Nat) (hn : 1 ≤ n) : 2 ^ ceilLog2 n < 2 * n := by
  rcases he : ceilLog2 n with _ | e
  · omega
  · have short : ¬ n ≤ 2 ^ e := by rw [← ceilLog2_le_iff]; omega
    rw [pow_succ]
    omega

/-- Settles O38: the exponent taken is the least that reaches `n`, so the power is the least too. -/
theorem nextPow2IsLeast : Obligations.NextPow2IsLeast := by
  unfold Obligations.NextPow2IsLeast
  refine ⟨fun n _ => ⟨⟨_, rfl⟩, le_two_pow_ceilLog2 n, fun e h => ?_⟩, fun e => ?_⟩
  · exact Nat.pow_le_pow_right two_pos ((ceilLog2_le_iff n e).mpr h)
  · exact eq_of_forall_ge_iff fun e' => by rw [ceilLog2_le_iff, Nat.pow_le_pow_iff_right one_lt_two]

/-- ANALYZE at a length the buffers hold (R140). -/
theorem exec_analyze_of_inRange (l : Nat) (cs : Bool) (s : State) (h1 : 1 ≤ l) (h2 : l ≤ s.par.log2NfftMax) :
    exec (.analyze l cs) s = .next (respondDelay (analyzeCore l cs s)) :=
  congrArg Host.Outcome.next (if_pos ((lengthInRange_iff s.par l).mpr ⟨h1, h2⟩))

/-- Settles O37: with `e` the exponent of `nextpow2(max(NP, 1))`, FREQRESP and ANALYZE of length `e + 1` answer over the
same analysed state. -/
theorem freqrespRoundsUp : Obligations.FreqrespRoundsUp := by
  intro np s
  refine ⟨ceilLog2 (max np 1), le_two_pow_ceilLog2 _, two_pow_ceilLog2_lt _ (by omega), fun hfit => ?_, fun hpast => ?_,
    fun hpar => ?_⟩
  · exact ⟨_, exec_analyze_of_inRange _ true s (by omega) hfit, rfl,
      congrArg Host.Outcome.next (if_neg (by omega))⟩
  · exact congrArg Host.Outcome.next (if_pos hpast)
  · have hmax : s.par.log2NfftMax = 12 := by rw [hpar]; rfl
    have hreach := ceilLog2_le_iff (max np 1) 11
    omega

end Sys2Proof.Machine
end

section
/-! PROOF. The mode derivation does not see the draws (40_config_design.md R97, R98): a NaN of the one product it forms fails
every comparison, whichever NaN it is. -/

namespace Sys2Proof.Machine

theorem flt_nan_right (a b : Word) (h : isNaN b = true) : flt a b = false := by simp [flt, h]

theorem fle_nan_right (a b : Word) (h : isNaN b = true) : fle a b = false := by simp [fle, h]

/-- No mode but Bypass comes of a NaN half rate (R98). -/
theorem modeOf_nan (c : FilterConfig) (half : Word) (h : isNaN half = true) : modeOf c half = .bypass := by
  simp [modeOf, flt_nan_right _ half h, fle_nan_right _ half h]

/-- What a mode derivation answers, of its one product. -/
theorem runDraw_deriveMode_fst (p : Config) (c : FilterConfig) (n : Nat) :
    (runDraw (deriveMode p c) n).1 = if c.order.toNat < 1 then (.bypass, 0)
      else withCapacity p (modeOf c (runDraw (fmul c.fs fHalf) n).1) c.order.toNat := by
  rw [deriveMode, runDraw_ite, apply_ite Prod.fst]
  rfl

theorem deriveMode_stable (p : Config) (c : FilterConfig) (m n : Nat) :
    (runDraw (deriveMode p c) m).1 = (runDraw (deriveMode p c) n).1 := by
  have hmode : modeOf c (runDraw (fmul c.fs fHalf) m).1 = modeOf c (runDraw (fmul c.fs fHalf) n).1 := by
    rcases (fmul_drawsOrGives c.fs fHalf).stable m n with ⟨hm, hn⟩ | h
    · rw [modeOf_nan c _ hm, modeOf_nan c _ hn]
    · rw [h]
  rw [runDraw_deriveMode_fst, runDraw_deriveMode_fst, hmode]

/-- Settles O20: all three registers are functions of what the mode derivation answers. -/
theorem modeDoesNotDependOnDraws : Obligations.ModeDoesNotDependOnDraws := by
  intro p c m n
  have h := deriveMode_stable p c m n
  simp only [runDraw_designOf, h, and_self]

end Sys2Proof.Machine
end

section
/-! PROOF. The parts of a word (00_scope.md R11): its sign and magnitude determine it, every word is a NaN, an infinity or
finite, and its value grows with its magnitude bits. -/

namespace Sys2Proof.Machine

/-! ## Sign and magnitude -/

theorem magBits_lt (w : Word) : magBits w < 2 ^ 63 := Nat.mod_lt _ (by decide)

theorem isNeg_eq_decide (w : Word) : isNeg w = decide (2 ^ 63 ≤ w.toNat) := BitVec.msb_eq_decide w

@[simp] theorem ofSignMag_isNeg_magBits (w : Word) : ofSignMag (isNeg w) (magBits w) = w := by
  apply BitVec.eq_of_toNat_eq
  rw [toNat_ofSignMag _ _ (magBits_lt w), isNeg_eq_decide, magBits]
  have := w.isLt
  by_cases h : 2 ^ 63 ≤ w.toNat
  · rw [decide_eq_true h, if_pos rfl]
    omega
  · rw [decide_eq_false h, if_neg Bool.false_ne_true]
    omega

theorem fneg_eq (w : Word) : fneg w = ofSignMag (!isNeg w) (magBits w) := by
  have hmag : magBits (fneg w) = magBits w := by
    rw [magBits, magBits, ← BitVec.toNat_setWidth 63, ← BitVec.toNat_setWidth 63]
    congr 1
    simp [fneg]
  have hbit : (0x8000000000000000 : Word).msb = true := by decide
  have hneg : isNeg (fneg w) = !isNeg w := by rw [isNeg, fneg, BitVec.msb_xor, hbit, Bool.xor_true, isNeg]
  rw [← ofSignMag_isNeg_magBits (fneg w), hmag, hneg]

@[simp] theorem isNeg_fneg (w : Word) : isNeg (fneg w) = !isNeg w := by
  rw [fneg_eq, isNeg_ofSignMag _ _ (magBits_lt w)]

@[simp] theorem magBits_fneg (w : Word) : magBits (fneg w) = magBits w := by
  rw [fneg_eq, magBits_ofSignMag _ _ (magBits_lt w)]

@[simp] theorem isInf_fneg (w : Word) : isInf (fneg w) = isInf w := by rw [isInf, magBits_fneg, isInf]

@[simp] theorem isFinite_fneg (w : Word) : isFinite (fneg w) = isFinite w := by rw [isFinite, magBits_fneg, isFinite]

theorem fneg_ofSignMag (neg : Bool) (m : Nat) (h : m < 2 ^ 63) : fneg (ofSignMag neg m) = ofSignMag (!neg) m := by
  rw [fneg_eq, isNeg_ofSignMag neg m h, magBits_ofSignMag neg m h]

@[simp] theorem fneg_fneg (w : Word) : fneg (fneg w) = w := by
  rw [fneg_eq, isNeg_fneg, magBits_fneg, Bool.not_not, ofSignMag_isNeg_magBits]

/-! ## The three kinds of word -/

theorem isFinite_iff (w : Word) : isFinite w = true ↔ magBits w < infBits := decide_eq_true_iff

theorem isInf_iff (w : Word) : isInf w = true ↔ magBits w = infBits := beq_iff_eq

theorem isNaN_iff (w : Word) : isNaN w = true ↔ infBits < magBits w := decide_eq_true_iff

theorem isZero_iff (w : Word) : isZero w = true ↔ magBits w = 0 := beq_iff_eq

/-- Which kind of word `w` is, by the three tests at once. -/
theorem kind_cases (w : Word) :
    (isNaN w = true ∧ isInf w = false ∧ isFinite w = false ∧ isZero w = false) ∨
    (isNaN w = false ∧ isInf w = true ∧ isFinite w = false ∧ isZero w = false) ∨
    (isNaN w = false ∧ isInf w = false ∧ isFinite w = true) := by
  simp only [← Bool.not_eq_true, isFinite_iff, isInf_iff, isNaN_iff, isZero_iff]
  have : 0 < infBits := by decide
  omega

theorem not_nan_inf_of_isFinite {w : Word} (h : isFinite w = true) : isNaN w = false ∧ isInf w = false := by
  simpa [h] using kind_cases w

theorem not_nan_finite_zero_of_isInf {w : Word} (h : isInf w = true) :
    isNaN w = false ∧ isFinite w = false ∧ isZero w = false := by
  simpa [h] using kind_cases w

theorem isInf_or_isFinite {w : Word} (h : isNaN w = false) : isInf w = true ∨ isFinite w = true := by
  rcases kind_cases w with ⟨hn, -⟩ | ⟨-, hi, -⟩ | ⟨-, -, hf⟩
  · exact absurd (h.symm.trans hn) Bool.false_ne_true
  · exact .inl hi
  · exact .inr hf

theorem isFinite_of_isZero {w : Word} (h : isZero w = true) : isFinite w = true := by
  rw [isFinite_iff, (isZero_iff w).mp h]
  decide

theorem eq_of_isInf {a b : Word} (ha : isInf a = true) (hb : isInf b = true) (h : isNeg a = isNeg b) : a = b := by
  rw [← ofSignMag_isNeg_magBits a, ← ofSignMag_isNeg_magBits b, (isInf_iff a).mp ha, (isInf_iff b).mp hb, h]

/-! ## Values -/

/-- A magnitude with a sign. -/
def signed (neg : Bool) (m : Nat) : Int := if neg then -(m : Int) else m

@[simp] theorem signed_false (m : Nat) : signed false m = m := rfl

@[simp] theorem signed_true (m : Nat) : signed true m = -m := rfl

@[simp] theorem signed_zero (neg : Bool) : signed neg 0 = 0 := by cases neg <;> rfl

@[simp] theorem natAbs_signed (neg : Bool) (m : Nat) : (signed neg m).natAbs = m := by cases neg <;> simp

theorem signed_natAbs (x : Int) : signed (decide (x < 0)) x.natAbs = x := by
  simp only [signed, decide_eq_true_eq]
  split <;> omega

theorem signed_mul (s t : Bool) (m n : Nat) : signed s m * signed t n = signed (s != t) (m * n) := by
  cases s <;> cases t <;> simp

theorem sign_signed (neg : Bool) (m : Nat) (h : m ≠ 0) : (signed neg m).sign = signed neg 1 := by
  cases neg <;> simp [Int.sign_natCast_of_ne_zero h]

/-- The units of a magnitude given by its bits 62:0. -/
def magUnits (m : Nat) : Nat := if m / 2 ^ 52 = 0 then m % 2 ^ 52 else (2 ^ 52 + m % 2 ^ 52) * 2 ^ (m / 2 ^ 52 - 1)

theorem units_eq (w : Word) : units w = magUnits (magBits w) := rfl

theorem signedUnits_eq (w : Word) : signedUnits w = signed (isNeg w) (units w) := rfl

theorem orderKey_eq (w : Word) : orderKey w = signed (isNeg w) (magBits w) := rfl

theorem units_ofSignMag (neg : Bool) (m : Nat) (h : m < 2 ^ 63) : units (ofSignMag neg m) = magUnits m := by
  rw [units_eq, magBits_ofSignMag neg m h]

theorem signedUnits_ofSignMag (neg : Bool) (m : Nat) (h : m < 2 ^ 63) :
    signedUnits (ofSignMag neg m) = signed neg (magUnits m) := by
  rw [signedUnits_eq, isNeg_ofSignMag neg m h, units_ofSignMag neg m h]

theorem signedUnits_fneg (w : Word) : signedUnits (fneg w) = -signedUnits w := by
  rw [signedUnits_eq, signedUnits_eq, isNeg_fneg, units_eq, magBits_fneg, ← units_eq]
  cases isNeg w <;> simp

/-- `q` steps of `2^k` units have the bits `k * 2^52 + q`: this holds for every significand `q` in its binade, for the
subnormals with `k = 0`, and at `q = 2^53`, the first word of the next binade. -/
theorem magUnits_of_significand (k q : Nat) (hq : q ≤ 2 ^ 53) (hk : k = 0 ∨ 2 ^ 52 ≤ q) :
    magUnits (k * 2 ^ 52 + q) = q * 2 ^ k := by
  have hcases : (k = 0 ∧ q < 2 ^ 52) ∨ (2 ^ 52 ≤ q ∧ q < 2 ^ 53) ∨ q = 2 ^ 53 := by omega
  rcases hcases with ⟨rfl, hlt⟩ | ⟨hle, hlt⟩ | rfl
  · have hd : (0 * 2 ^ 52 + q) / 2 ^ 52 = 0 := by omega
    have hm : (0 * 2 ^ 52 + q) % 2 ^ 52 = q := by omega
    rw [magUnits, if_pos hd, hm, pow_zero, Nat.mul_one]
  · have hd : (k * 2 ^ 52 + q) / 2 ^ 52 = k + 1 := by omega
    have hm : 2 ^ 52 + (k * 2 ^ 52 + q) % 2 ^ 52 = q := by omega
    rw [magUnits, hd, if_neg (Nat.succ_ne_zero k), hm, Nat.add_sub_cancel]
  · have hd : (k * 2 ^ 52 + 2 ^ 53) / 2 ^ 52 = k + 2 := by omega
    have hm : (k * 2 ^ 52 + 2 ^ 53) % 2 ^ 52 = 0 := by omega
    rw [magUnits, hd, if_neg (Nat.succ_ne_zero _), hm, show k + 2 - 1 = k + 1 from rfl, pow_succ]
    omega

/-- The value grows with the magnitude bits (R11). -/
theorem magUnits_strictMono : StrictMono magUnits := by
  refine strictMono_nat_of_lt_succ fun m => ?_
  obtain ⟨k, q, hm, hq, hk⟩ : ∃ k q, m = k * 2 ^ 52 + q ∧ q < 2 ^ 53 ∧ (k = 0 ∨ 2 ^ 52 ≤ q) :=
    ⟨m / 2 ^ 52 - 1, m - (m / 2 ^ 52 - 1) * 2 ^ 52, by omega, by omega, by omega⟩
  rw [hm, Nat.add_assoc, magUnits_of_significand k q hq.le hk, magUnits_of_significand k (q + 1) hq (by omega)]
  exact Nat.mul_lt_mul_of_pos_right (Nat.lt_succ_self q) (Nat.two_pow_pos k)

@[simp] theorem magUnits_zero : magUnits 0 = 0 := rfl

theorem magUnits_eq_zero_iff (m : Nat) : magUnits m = 0 ↔ m = 0 := magUnits_strictMono.injective.eq_iff' magUnits_zero

theorem units_ne_zero_of_not_isZero {w : Word} (h : isZero w = false) : units w ≠ 0 := by
  rw [units_eq, Ne, magUnits_eq_zero_iff, ← isZero_iff, h]
  exact Bool.false_ne_true

/-- Signed magnitudes are ordered as any strictly growing measure of them that starts at 0. -/
theorem signed_lt_signed_iff {f : Nat → Nat} (hf : StrictMono f) (h0 : f 0 = 0) (s t : Bool) (m n : Nat) :
    signed s (f m) < signed t (f n) ↔ signed s m < signed t n := by
  have hpos (k : Nat) : 0 < f k ↔ 0 < k := by simpa [h0] using hf.lt_iff_lt (a := 0) (b := k)
  have hm := hpos m
  have hn := hpos n
  have hmn := hf.lt_iff_lt (a := m) (b := n)
  have hnm := hf.lt_iff_lt (a := n) (b := m)
  cases s <;> cases t <;> simp only [signed_false, signed_true] <;> omega

/-- The order of the non-NaN words is the order of the values (R16). -/
theorem orderKey_lt_iff (a b : Word) : orderKey a < orderKey b ↔ signedUnits a < signedUnits b :=
  (signed_lt_signed_iff magUnits_strictMono magUnits_zero _ _ _ _).symm

end Sys2Proof.Machine
end

section
/-! PROOF. Rounding (00_scope.md R12): `roundMag` takes one of the two neighbouring words of the exact result, the nearer, or
the even one of two equally near, and it overflows exactly from half a unit past the largest finite number on. -/

namespace Sys2Proof.Machine

/-- How `num / den` is rounded: `q` steps of `2^k` units lie at or below it, `q + 1` above it, and `q'` is the one of the two
that is taken. -/
structure Rounding (num den k q q' : Nat) : Prop where
  binade : k = 0 ∨ 2 ^ 52 ≤ q
  lt : q < 2 ^ 53
  below : q * (den * 2 ^ k) ≤ num
  above : num < (q + 1) * (den * 2 ^ k)
  taken : (q' = q ∧ 2 * num ≤ (2 * q + 1) * (den * 2 ^ k) ∧ (2 * num = (2 * q + 1) * (den * 2 ^ k) → q % 2 = 0)) ∨
    (q' = q + 1 ∧ (2 * q + 1) * (den * 2 ^ k) ≤ 2 * num ∧ (2 * num = (2 * q + 1) * (den * 2 ^ k) → q % 2 = 1))

/-- The binade of a quotient: shifted right by its excess over 53 bits it has 53 of them, or it was not shifted. -/
theorem significand_bounds (x : Nat) :
    x / 2 ^ (Nat.log2 x - 52) < 2 ^ 53 ∧ (Nat.log2 x - 52 = 0 ∨ 2 ^ 52 ≤ x / 2 ^ (Nat.log2 x - 52)) := by
  have hlt : x < 2 ^ (Nat.log2 x + 1) := Nat.lt_log2_self
  constructor
  · rw [Nat.div_lt_iff_lt_mul (Nat.two_pow_pos _), ← pow_add]
    exact hlt.trans_le (Nat.pow_le_pow_right two_pos (by omega))
  · rcases Nat.le_total (Nat.log2 x) 52 with h | h
    · exact .inl (by omega)
    · have hx : x ≠ 0 := by rintro rfl; simp at h
      right
      rw [Nat.le_div_iff_mul_le (Nat.two_pow_pos _), ← pow_add, Nat.add_sub_cancel' h]
      exact Nat.log2_self_le hx

/-- `roundMag` rounds in this way, clipped at infinity. -/
theorem exists_rounding (num den : Nat) (hden : 0 < den) :
    ∃ k q q', Rounding num den k q q' ∧ roundMag num den = min (k * 2 ^ 52 + q') infBits := by
  let k := Nat.log2 (num / den) - 52
  have hd : 0 < den * 2 ^ k := Nat.mul_pos hden (Nat.two_pow_pos k)
  obtain ⟨hlt, hbin⟩ := significand_bounds (num / den)
  rw [Nat.div_div_eq_div_mul] at hlt hbin
  refine ⟨k, num / (den * 2 ^ k), _,
    ⟨hbin, hlt, Nat.div_mul_le_self _ _, (Nat.div_lt_iff_lt_mul hd).mp (Nat.lt_succ_self _), ?_⟩, rfl⟩
  have hdiv := Nat.div_add_mod' num (den * 2 ^ k)
  have hmod := Nat.mod_lt num hd
  generalize num / (den * 2 ^ k) = q at hdiv
  generalize num % (den * 2 ^ k) = r at hdiv hmod
  generalize den * 2 ^ k = d at hdiv hmod
  have half : (2 * q + 1) * d = 2 * (q * d) + d := by ring
  rw [half]
  split_ifs with h
  all_goals
    simp only [Bool.or_eq_true, Bool.and_eq_true, decide_eq_true_eq, beq_iff_eq] at h
    omega

/-! ## To nearest even -/

/-- The two candidates of a rounding, as magnitude bits. -/
theorem Rounding.magUnits_candidates {num den k q q' : Nat} (h : Rounding num den k q q') :
    magUnits (k * 2 ^ 52 + q) = q * 2 ^ k ∧ magUnits (k * 2 ^ 52 + (q + 1)) = (q + 1) * 2 ^ k :=
  ⟨magUnits_of_significand k q h.lt.le h.binade,
    magUnits_of_significand k (q + 1) h.lt (h.binade.imp_right Nat.le_succ_of_le)⟩

/-- No value lies strictly between the two candidates of a rounding. -/
theorem Rounding.outside {num den k q q' : Nat} (h : Rounding num den k q q') (v : Word) :
    signedUnits v ≤ ((q * 2 ^ k : Nat) : Int) ∨ (((q + 1) * 2 ^ k : Nat) : Int) ≤ signedUnits v := by
  obtain ⟨hq, hq1⟩ := h.magUnits_candidates
  rw [signedUnits_eq, units_eq, ← hq, ← hq1]
  have hle := magUnits_strictMono.le_iff_le (a := magBits v) (b := k * 2 ^ 52 + q)
  have hge := magUnits_strictMono.le_iff_le (a := k * 2 ^ 52 + (q + 1)) (b := magBits v)
  cases isNeg v
  · simp only [signed_false]
    omega
  · simp only [signed_true]
    omega

/-- Either candidate times `den`, and the place of every other value around the two. -/
theorem Rounding.outside_scaled {num den k q q' : Nat} (h : Rounding num den k q q') (hden : 0 < den) (v : Word) :
    signedUnits v * den < ((q * (den * 2 ^ k) : Nat) : Int) ∨
    (signedUnits v = ((q * 2 ^ k : Nat) : Int) ∧ signedUnits v * den = ((q * (den * 2 ^ k) : Nat) : Int)) ∨
    (signedUnits v = (((q + 1) * 2 ^ k : Nat) : Int) ∧
      signedUnits v * den = (((q + 1) * (den * 2 ^ k) : Nat) : Int)) ∨
    (((q + 1) * (den * 2 ^ k) : Nat) : Int) < signedUnits v * den := by
  have hpos : (0 : Int) < den := by exact_mod_cast hden
  have scale (c : Nat) : ((c * (den * 2 ^ k) : Nat) : Int) = ((c * 2 ^ k : Nat) : Int) * den := by
    push_cast
    ring
  simp only [scale, mul_lt_mul_iff_of_pos_right hpos, mul_left_inj' hpos.ne', and_self]
  have := h.outside v
  omega

/-- A word with the value of the candidate taken is nearest to the exact result, and the candidate is even on a tie. -/
theorem Rounding.nearest {num den k q q' : Nat} (h : Rounding num den k q q') (hden : 0 < den) {w : Word}
    (hw : signedUnits w = ((q' * 2 ^ k : Nat) : Int)) (v : Word) :
    |(num : Int) - signedUnits w * den| ≤ |(num : Int) - signedUnits v * den| ∧
    (|(num : Int) - signedUnits v * den| = |(num : Int) - signedUnits w * den| → signedUnits v ≠ signedUnits w →
      q' % 2 = 0) := by
  have hv := h.outside_scaled hden v
  have hW : signedUnits w * den = ((q' * (den * 2 ^ k) : Nat) : Int) := by
    rw [hw]
    push_cast
    ring
  obtain ⟨_, _, hbelow, habove, htaken⟩ := h
  rw [hW, hw]
  generalize den * 2 ^ k = d at *
  have hnext : (q + 1) * d = q * d + d := by ring
  have hhalf : (2 * q + 1) * d = 2 * (q * d) + d := by ring
  rw [hnext] at hv habove
  rw [hhalf] at htaken
  simp only [Int.abs_eq_natAbs]
  rcases htaken with ⟨rfl, hup, htie⟩ | ⟨rfl, hup, htie⟩
  · omega
  · rw [hnext]
    omega

/-! ## Overflow -/

/-- The candidate taken reaches the first word past a binade exactly when the exact result reaches the middle between that
word and the last one of the binade, whose steps are `2^(e+1)` units. -/
theorem Rounding.passes_binade_iff {num den k q q' : Nat} (h : Rounding num den k q q') (e : Nat) :
    (e + 1) * 2 ^ 52 + 2 ^ 53 ≤ k * 2 ^ 52 + q' ↔ (2 ^ 54 - 1) * 2 ^ e * den ≤ num := by
  obtain ⟨hbin, hlt, hbelow, habove, htaken⟩ := h
  have hq' : q ≤ q' ∧ q' ≤ q + 1 := by omega
  have hmiddle : (2 ^ 54 - 1) * 2 ^ e * den = (2 ^ 54 - 1) * (den * 2 ^ e) := by ring
  rw [hmiddle]
  rcases Nat.lt_trichotomy k (e + 1) with hk | rfl | hk
  · have hstep : den * 2 ^ k ≤ den * 2 ^ e := Nat.mul_le_mul_left _ (Nat.pow_le_pow_right two_pos (by omega))
    have := Nat.mul_le_mul (Nat.succ_le_of_lt hlt) hstep
    rw [Nat.succ_eq_add_one] at this
    generalize den * 2 ^ e = d at *
    omega
  · have hstep : den * 2 ^ (e + 1) = 2 * (den * 2 ^ e) := by rw [pow_succ]; ring
    rw [hstep] at hbelow habove htaken
    generalize den * 2 ^ e = d at *
    rcases Nat.lt_or_ge (q + 1) (2 ^ 53) with hq | hq
    · have := Nat.mul_le_mul_right (2 * d) (Nat.succ_le_of_lt hq)
      rw [Nat.succ_eq_add_one, Nat.add_mul] at this
      omega
    · obtain rfl : q = 2 ^ 53 - 1 := by omega
      omega
  · have hstep : den * 2 ^ (e + 2) ≤ den * 2 ^ k := Nat.mul_le_mul_left _ (Nat.pow_le_pow_right two_pos hk)
    have hfour : den * 2 ^ (e + 2) = 4 * (den * 2 ^ e) := by rw [pow_add]; ring
    rw [hfour] at hstep
    have hq : 2 ^ 52 ≤ q := by omega
    have := Nat.mul_le_mul hq hstep
    generalize den * 2 ^ e = d at *
    omega

/-- Rounding gives infinity exactly from the overflow bound on. -/
theorem roundMag_lt_infBits_iff (num den : Nat) (hden : 0 < den) :
    roundMag num den < infBits ↔ num < overflowUnits * den := by
  obtain ⟨k, q, q', hr, hm⟩ := exists_rounding num den hden
  have hover : infBits ≤ k * 2 ^ 52 + q' ↔ overflowUnits * den ≤ num := hr.passes_binade_iff 2044
  rw [hm, min_lt_iff, ← Nat.not_le, ← Nat.not_le, hover]
  simp

/-! ## Rounding a signed result -/

@[simp] theorem roundMag_zero (den : Nat) : roundMag 0 den = 0 := by simp [roundMag]

theorem gives_pure {α : Type} (w : α) : Gives (pure w) w := runDraw_pure w

theorem toNat_mod_two (w : Word) : w.toNat % 2 = magBits w % 2 := by
  rw [magBits]
  omega

theorem NearestEven.neg {num : Int} {den : Nat} {w : Word} (h : NearestEven num den w) :
    NearestEven (-num) den (fneg w) := by
  have mirror (v : Word) : |-num - signedUnits v * den| = |num - signedUnits (fneg v) * den| := by
    rw [signedUnits_fneg, ← abs_neg]
    congr 1
    ring
  refine ⟨by rw [isFinite_fneg, h.finite], fun v hv => ?_, fun v hv heq hne => ?_⟩
  · rw [mirror, mirror, fneg_fneg]
    exact h.nearest (fneg v) (by rw [isFinite_fneg, hv])
  · rw [mirror, mirror, fneg_fneg] at heq
    rw [toNat_mod_two, magBits_fneg, ← toNat_mod_two]
    refine h.tie_even (fneg v) (by rw [isFinite_fneg, hv]) heq fun hsame => hne ?_
    rw [signedUnits_fneg, ← hsame, signedUnits_fneg, neg_neg]

theorem nearestEven_roundMag (num den : Nat) (hden : 0 < den) (h : num < overflowUnits * den) :
    NearestEven num den (ofSignMag false (roundMag num den)) := by
  have hlt := (roundMag_lt_infBits_iff num den hden).mpr h
  have hinf : infBits < 2 ^ 63 := by decide
  obtain ⟨k, q, q', hr, hm⟩ := exists_rounding num den hden
  obtain ⟨hq, hq1⟩ := hr.magUnits_candidates
  rw [hm] at hlt ⊢
  rw [min_eq_left (by omega)] at hlt ⊢
  have hvalue : magUnits (k * 2 ^ 52 + q') = q' * 2 ^ k := by
    rcases hr.taken with ⟨rfl, _⟩ | ⟨rfl, _⟩
    · exact hq
    · exact hq1
  have hw : signedUnits (ofSignMag false (k * 2 ^ 52 + q')) = ((q' * 2 ^ k : Nat) : Int) := by
    rw [signedUnits_ofSignMag _ _ (by omega), hvalue, signed_false]
  refine ⟨?_, fun v _ => (hr.nearest hden hw v).1, fun v _ heq hne => ?_⟩
  · rw [isFinite_iff, magBits_ofSignMag _ _ (by omega)]
    exact hlt
  · have heven := (hr.nearest hden hw v).2 heq hne
    rw [toNat_mod_two, magBits_ofSignMag _ _ (by omega)]
    omega

theorem overflowUnits_pos : 0 < overflowUnits := by
  rw [overflowUnits]
  positivity

/-- A sign and the rounded magnitude are the signed result rounded as R12 says. -/
theorem gives_rounded (neg : Bool) (num den : Nat) (hden : 0 < den) :
    ∃ w, Gives (pure (ofSignMag neg (roundMag num den))) w ∧ RoundsTo (signed neg num) den w := by
  refine ⟨_, gives_pure _, ?_⟩
  have hlt := roundMag_lt_infBits_iff num den hden
  have hpos := nearestEven_roundMag num den hden
  have hbound : 0 < overflowUnits * den := Nat.mul_pos overflowUnits_pos hden
  have hle := roundMag_le num den
  have hinf : infBits < 2 ^ 63 := by decide
  rw [RoundsTo, natAbs_signed]
  generalize overflowUnits * den = bound at *
  split
  case isTrue h =>
    cases neg
    · exact hpos h
    · have hneg := (hpos h).neg
      rwa [fneg_ofSignMag _ _ (by omega)] at hneg
  case isFalse h =>
    have hsign : decide (signed neg num < 0) = neg := by
      cases neg
      · exact decide_eq_false (by rw [signed_false]; omega)
      · exact decide_eq_true (by rw [signed_true]; omega)
    rw [hsign, show roundMag num den = infBits by omega]

/-! ## Exact results -/

/-- Twice a value: the next binade, or twice the bits of a subnormal. -/
theorem magUnits_doubles (m : Nat) : magUnits (if m < 2 ^ 52 then 2 * m else m + 2 ^ 52) = magUnits m * 2 := by
  split
  case isTrue h =>
    have h1 := magUnits_of_significand 0 m (by omega) (.inl rfl)
    have h2 := magUnits_of_significand 0 (2 * m) (by omega) (.inl rfl)
    simp only [Nat.zero_mul, Nat.zero_add, pow_zero] at h1 h2
    omega
  case isFalse h =>
    obtain ⟨k, q, hm, hq, hk⟩ : ∃ k q, m = k * 2 ^ 52 + q ∧ q < 2 ^ 53 ∧ 2 ^ 52 ≤ q :=
      ⟨m / 2 ^ 52 - 1, m - (m / 2 ^ 52 - 1) * 2 ^ 52, by omega, by omega, by omega⟩
    have hnext : m + 2 ^ 52 = (k + 1) * 2 ^ 52 + q := by omega
    rw [hnext, hm, magUnits_of_significand _ q hq.le (.inr hk), magUnits_of_significand _ q hq.le (.inr hk), pow_succ,
      Nat.mul_assoc]

/-- Every whole number of steps of up to 53 bits is the value of a finite magnitude. -/
theorem exists_magUnits_eq (q k : Nat) (hq : q < 2 ^ 53) :
    ∃ m, m < 2 ^ 53 + k * 2 ^ 52 ∧ magUnits m = q * 2 ^ k := by
  induction k with
  | zero => exact ⟨q, by omega, by simpa using magUnits_of_significand 0 q hq.le (.inl rfl)⟩
  | succ k ih =>
    obtain ⟨m, hm, hval⟩ := ih
    rw [pow_succ 2 k, ← Nat.mul_assoc, ← hval]
    have step := magUnits_doubles m
    split at step
    · exact ⟨_, by omega, step⟩
    · exact ⟨_, by omega, step⟩

/-- A value that a word has is rounded to that word. -/
theorem roundMag_magUnits (m den : Nat) (hden : 0 < den) (hm : m ≤ infBits) : roundMag (magUnits m * den) den = m := by
  obtain ⟨k, q, q', hr, hround⟩ := exists_rounding (magUnits m * den) den hden
  obtain ⟨hq, hq1⟩ := hr.magUnits_candidates
  obtain ⟨-, -, hbelow, habove, htaken⟩ := hr
  have scale (c : Nat) : c * (den * 2 ^ k) = c * 2 ^ k * den := by ring
  simp only [scale] at hbelow habove htaken
  have hle := magUnits_strictMono.le_iff_le.mp (hq.trans_le (Nat.le_of_mul_le_mul_right hbelow hden))
  have hlt := magUnits_strictMono.lt_iff_lt.mp ((Nat.lt_of_mul_lt_mul_right habove).trans_eq hq1.symm)
  have hbits : m = k * 2 ^ 52 + q := by omega
  have hhalf : (2 * q + 1) * 2 ^ k * den = 2 * (q * 2 ^ k * den) + 2 ^ k * den := by ring
  have hstep : 0 < 2 ^ k * den := Nat.mul_pos (Nat.two_pow_pos k) hden
  rw [hhalf, hbits, hq] at htaken
  have hdown : q' = q := by omega
  rw [hround, hdown, ← hbits, min_eq_left hm]

end Sys2Proof.Machine
end

section
/-! PROOF. The operations of 00_scope.md R12 case by case: one equation for each kind of operands. -/

namespace Sys2Proof.Machine

@[simp] theorem isNaN_ofSignMag_roundMag (neg : Bool) (num den : Nat) :
    isNaN (ofSignMag neg (roundMag num den)) = false := isNaN_ofSignMag _ _ (roundMag_le _ _)

@[simp] theorem isNaN_ofSignMag_infBits (neg : Bool) : isNaN (ofSignMag neg infBits) = false :=
  isNaN_ofSignMag _ _ le_rfl

@[simp] theorem isNaN_ofSignMag_zero (neg : Bool) : isNaN (ofSignMag neg 0) = false :=
  isNaN_ofSignMag _ _ (Nat.zero_le _)

theorem unitScale_pos : 0 < unitScale := by
  rw [unitScale, Nat.one_shiftLeft]
  positivity

/-! ## Addition and subtraction -/

theorem fadd_of_isNaN {a b : Word} (h : isNaN a = true ∨ isNaN b = true) : fadd a b = drawNaN := by
  rw [fadd, if_pos (by simpa using h)]

theorem fadd_of_isInf_of_isInf {a b : Word} (ha : isInf a = true) (hb : isInf b = true) :
    fadd a b = if isNeg a = isNeg b then pure a else drawNaN := by
  simp [fadd, ha, hb, (not_nan_finite_zero_of_isInf ha).1, (not_nan_finite_zero_of_isInf hb).1]

theorem fadd_of_isInf_of_isFinite {a b : Word} (ha : isInf a = true) (hb : isFinite b = true) : fadd a b = pure a := by
  simp [fadd, ha, (not_nan_finite_zero_of_isInf ha).1, not_nan_inf_of_isFinite hb]

theorem fadd_of_isFinite_of_isInf {a b : Word} (ha : isFinite a = true) (hb : isInf b = true) : fadd a b = pure b := by
  simp [fadd, hb, (not_nan_finite_zero_of_isInf hb).1, not_nan_inf_of_isFinite ha]

/-- An exact zero is positive unless both addends are negative (log entry 14). -/
theorem fadd_of_zero_sum {a b : Word} (ha : isFinite a = true) (hb : isFinite b = true)
    (hx : signedUnits a + signedUnits b = 0) : fadd a b = pure (ofSignMag (isNeg a && isNeg b) 0) := by
  simp [fadd, not_nan_inf_of_isFinite ha, not_nan_inf_of_isFinite hb, hx]

theorem fadd_of_nonzero_sum {a b : Word} (ha : isFinite a = true) (hb : isFinite b = true)
    (hx : signedUnits a + signedUnits b ≠ 0) :
    fadd a b = pure (ofSignMag (decide (signedUnits a + signedUnits b < 0))
      (roundMag (signedUnits a + signedUnits b).natAbs 1)) := by
  simp [fadd, not_nan_inf_of_isFinite ha, not_nan_inf_of_isFinite hb, hx]

/-! ## Multiplication -/

theorem fmul_of_isNaN {a b : Word} (h : isNaN a = true ∨ isNaN b = true) : fmul a b = drawNaN := by
  rw [fmul, if_pos (by simpa using h)]

theorem fmul_of_isInf {a b : Word} (h : isInf a = true ∨ isInf b = true) (ha : isNaN a = false) (hb : isNaN b = false) :
    fmul a b = if isZero a = true ∨ isZero b = true then drawNaN
      else pure (ofSignMag (isNeg a != isNeg b) infBits) := by
  rw [fmul, if_neg (by simp [ha, hb]), if_pos (by simpa using h)]
  simp only [Bool.or_eq_true]

theorem fmul_of_isFinite {a b : Word} (ha : isFinite a = true) (hb : isFinite b = true) :
    fmul a b = pure (ofSignMag (isNeg a != isNeg b) (roundMag (units a * units b) unitScale)) := by
  simp [fmul, not_nan_inf_of_isFinite ha, not_nan_inf_of_isFinite hb]

/-! ## Division -/

theorem fdiv_of_isNaN {a b : Word} (h : isNaN a = true ∨ isNaN b = true) : fdiv a b = drawNaN := by
  rw [fdiv, if_pos (by simpa using h)]

theorem fdiv_of_isInf_of_isInf {a b : Word} (ha : isInf a = true) (hb : isInf b = true) : fdiv a b = drawNaN := by
  simp [fdiv, ha, hb]

theorem fdiv_of_isInf_of_isFinite {a b : Word} (ha : isInf a = true) (hb : isFinite b = true) :
    fdiv a b = pure (ofSignMag (isNeg a != isNeg b) infBits) := by
  simp [fdiv, ha, (not_nan_finite_zero_of_isInf ha).1, not_nan_inf_of_isFinite hb]

theorem fdiv_of_isFinite_of_isInf {a b : Word} (ha : isFinite a = true) (hb : isInf b = true) :
    fdiv a b = pure (ofSignMag (isNeg a != isNeg b) 0) := by
  simp [fdiv, hb, (not_nan_finite_zero_of_isInf hb).1, not_nan_inf_of_isFinite ha]

theorem fdiv_of_isZero {a b : Word} (ha : isFinite a = true) (hb : isZero b = true) :
    fdiv a b = if isZero a = true then drawNaN else pure (ofSignMag (isNeg a != isNeg b) infBits) := by
  simp [fdiv, hb, not_nan_inf_of_isFinite ha, not_nan_inf_of_isFinite (isFinite_of_isZero hb)]

theorem fdiv_of_isFinite {a b : Word} (ha : isFinite a = true) (hb : isFinite b = true) (hz : isZero b = false) :
    fdiv a b = pure (ofSignMag (isNeg a != isNeg b) (roundMag (units a * unitScale) (units b))) := by
  simp [fdiv, hz, not_nan_inf_of_isFinite ha, not_nan_inf_of_isFinite hb]

end Sys2Proof.Machine
end

section
/-! PROOF. Each of the four operations on finite operands is one rounding of the exact result (00_scope.md R12). -/

namespace Sys2Proof.Machine

theorem fadd_rounds {a b : Word} (ha : isFinite a = true) (hb : isFinite b = true) :
    ∃ w, Gives (fadd a b) w ∧ RoundsTo (signedUnits a + signedUnits b) 1 w := by
  by_cases hx : signedUnits a + signedUnits b = 0
  · rw [fadd_of_zero_sum ha hb hx, hx]
    have hzero := gives_rounded (isNeg a && isNeg b) 0 1 one_pos
    rwa [roundMag_zero, signed_zero] at hzero
  · rw [fadd_of_nonzero_sum ha hb hx]
    generalize signedUnits a + signedUnits b = x
    have hsum := gives_rounded (decide (x < 0)) x.natAbs 1 one_pos
    rwa [signed_natAbs] at hsum

theorem fsub_rounds {a b : Word} (ha : isFinite a = true) (hb : isFinite b = true) :
    ∃ w, Gives (fsub a b) w ∧ RoundsTo (signedUnits a - signedUnits b) 1 w := by
  rw [sub_eq_add_neg, ← signedUnits_fneg]
  exact fadd_rounds ha (by rw [isFinite_fneg, hb])

theorem fmul_rounds {a b : Word} (ha : isFinite a = true) (hb : isFinite b = true) :
    ∃ w, Gives (fmul a b) w ∧ RoundsTo (signedUnits a * signedUnits b) unitScale w := by
  rw [fmul_of_isFinite ha hb, signedUnits_eq, signedUnits_eq, signed_mul]
  exact gives_rounded _ _ _ unitScale_pos

theorem fdiv_rounds {a b : Word} (ha : isFinite a = true) (hb : isFinite b = true) (hz : isZero b = false) :
    ∃ w, Gives (fdiv a b) w ∧ RoundsTo (signedUnits a * unitScale * (signedUnits b).sign) (units b) w := by
  have hne := units_ne_zero_of_not_isZero hz
  have hquot : signedUnits a * unitScale * (signedUnits b).sign =
      signed (isNeg a != isNeg b) (units a * unitScale) := by
    rw [signedUnits_eq b, sign_signed _ _ hne, mul_assoc, mul_comm (unitScale : Int), ← mul_assoc, signedUnits_eq,
      signed_mul, Nat.mul_one, ← signed_false unitScale, signed_mul, Bool.bne_false]
  rw [fdiv_of_isFinite ha hb hz, hquot]
  exact gives_rounded _ _ _ (Nat.pos_of_ne_zero hne)

/-- Settles O55: each operation is one rounding of a sign and an exact magnitude. -/
theorem operationsRoundToNearestEven : Obligations.OperationsRoundToNearestEven :=
  fun _ _ ha hb => ⟨fadd_rounds ha hb, fsub_rounds ha hb, fmul_rounds ha hb, fdiv_rounds ha hb⟩

end Sys2Proof.Machine
end

section
/-! PROOF. Which operations give a NaN, and which NaNs they give (00_scope.md R12, R13). -/

namespace Sys2Proof.Machine

theorem isNaN_fadd_iff (a b : Word) (n : Nat) : isNaN (runDraw (fadd a b) n).1 = true ↔
    isNaN a = true ∨ isNaN b = true ∨ (isInf a = true ∧ isInf b = true ∧ isNeg a ≠ isNeg b) := by
  by_cases hn : isNaN a = true ∨ isNaN b = true
  · simp [fadd_of_isNaN hn, ← or_assoc, hn]
  simp only [not_or, Bool.not_eq_true] at hn
  obtain ⟨ha, hb⟩ := hn
  rcases isInf_or_isFinite ha with hia | hfa <;> rcases isInf_or_isFinite hb with hib | hfb
  · rw [fadd_of_isInf_of_isInf hia hib, runDraw_ite]
    split <;> simp [*]
  · simp [fadd_of_isInf_of_isFinite hia hfb, ha, hb, not_nan_inf_of_isFinite hfb]
  · simp [fadd_of_isFinite_of_isInf hfa hib, ha, hb, not_nan_inf_of_isFinite hfa]
  · by_cases hx : signedUnits a + signedUnits b = 0
    · simp [fadd_of_zero_sum hfa hfb hx, ha, hb, not_nan_inf_of_isFinite hfa]
    · simp [fadd_of_nonzero_sum hfa hfb hx, ha, hb, not_nan_inf_of_isFinite hfa]

theorem isNaN_fsub_iff (a b : Word) (n : Nat) : isNaN (runDraw (fsub a b) n).1 = true ↔
    isNaN a = true ∨ isNaN b = true ∨ (isInf a = true ∧ isInf b = true ∧ isNeg a = isNeg b) := by
  rw [fsub, isNaN_fadd_iff, isNaN_fneg, isInf_fneg, isNeg_fneg, Bool.ne_not]

theorem isNaN_fmul_iff (a b : Word) (n : Nat) : isNaN (runDraw (fmul a b) n).1 = true ↔
    isNaN a = true ∨ isNaN b = true ∨ (isInf a = true ∧ isZero b = true) ∨ (isZero a = true ∧ isInf b = true) := by
  by_cases hn : isNaN a = true ∨ isNaN b = true
  · simp [fmul_of_isNaN hn, ← or_assoc, hn]
  simp only [not_or, Bool.not_eq_true] at hn
  obtain ⟨ha, hb⟩ := hn
  by_cases hi : isInf a = true ∨ isInf b = true
  · rw [fmul_of_isInf hi ha hb, runDraw_ite]
    rcases hi with hi | hi
    all_goals
      have hkind := not_nan_finite_zero_of_isInf hi
      split <;> simp_all
  · simp only [not_or, Bool.not_eq_true] at hi
    have hfa : isFinite a = true := by simpa [hi.1] using isInf_or_isFinite ha
    have hfb : isFinite b = true := by simpa [hi.2] using isInf_or_isFinite hb
    simp [fmul_of_isFinite hfa hfb, ha, hb, hi]

theorem isNaN_fdiv_iff (a b : Word) (n : Nat) : isNaN (runDraw (fdiv a b) n).1 = true ↔
    isNaN a = true ∨ isNaN b = true ∨ (isInf a = true ∧ isInf b = true) ∨ (isZero a = true ∧ isZero b = true) := by
  by_cases hn : isNaN a = true ∨ isNaN b = true
  · simp [fdiv_of_isNaN hn, ← or_assoc, hn]
  simp only [not_or, Bool.not_eq_true] at hn
  obtain ⟨ha, hb⟩ := hn
  rcases isInf_or_isFinite ha with hia | hfa <;> rcases isInf_or_isFinite hb with hib | hfb
  · simp [fdiv_of_isInf_of_isInf hia hib, hia, hib]
  · simp [fdiv_of_isInf_of_isFinite hia hfb, ha, hb, not_nan_inf_of_isFinite hfb, not_nan_finite_zero_of_isInf hia]
  · simp [fdiv_of_isFinite_of_isInf hfa hib, ha, hb, not_nan_inf_of_isFinite hfa, not_nan_finite_zero_of_isInf hib]
  · by_cases hz : isZero b = true
    · rw [fdiv_of_isZero hfa hz, runDraw_ite]
      split <;> simp_all [not_nan_inf_of_isFinite hfa]
    · rw [Bool.not_eq_true] at hz
      simp [fdiv_of_isFinite hfa hfb hz, ha, hb, hz, not_nan_inf_of_isFinite hfa]

/-- A NaN among the results of R13 is the draw. -/
theorem DrawsOrGives.eq_of_isNaN {x : Draw Word} (h : DrawsOrGives x) (n : Nat) (hn : isNaN (runDraw x n).1 = true) :
    runDraw x n = (quietNaN (Config.nanBits n), n + 1) := by
  rcases h with h | ⟨w, hw, h⟩
  · exact h n
  · rw [h n, hw] at hn
    exact absurd hn Bool.false_ne_true

/-! ## The quiet NaNs -/

/-- Bit 51, the quiet bit, read off the magnitude. -/
theorem getLsbD_51 (w : Word) : w.getLsbD 51 = decide (magBits w / 2 ^ 51 % 2 = 1) := by
  rw [BitVec.getLsbD, Nat.testBit_eq_decide_div_mod_eq, magBits]
  congr 2
  omega

/-- The sign and the payload of a NaN, as the draw that gives it has them. -/
def drawOf (w : Word) : BitVec 52 := BitVec.ofNat 52 ((if isNeg w then 2 ^ 51 else 0) + magBits w % 2 ^ 51)

theorem quietNaN_drawOf {w : Word} (hn : isNaN w = true) (hq : w.getLsbD 51 = true) : quietNaN (drawOf w) = w := by
  have hlt := magBits_lt w
  have hpay : magBits w % 2 ^ 51 < 2 ^ 51 := Nat.mod_lt _ (by decide)
  rw [isNaN_iff, infBits] at hn
  rw [getLsbD_51, decide_eq_true_eq] at hq
  have hnat : (drawOf w).toNat = (if isNeg w then 2 ^ 51 else 0) + magBits w % 2 ^ 51 := by
    rw [drawOf, BitVec.toNat_ofNat, Nat.mod_eq_of_lt]
    split <;> omega
  have hmsb : (drawOf w).msb = isNeg w := by
    rw [BitVec.msb_eq_decide, hnat]
    cases isNeg w
    · exact decide_eq_false (by simp only [Bool.false_eq_true, if_false]; omega)
    · exact decide_eq_true (by simp)
  have hmag : 0x7FF8000000000000 + (drawOf w).toNat % 2 ^ 51 = magBits w := by
    rw [hnat]
    cases isNeg w <;> simp <;> omega
  rw [quietNaN, hmsb, hmag, ofSignMag_isNeg_magBits]

theorem getLsbD_51_quietNaN (b : BitVec 52) : (quietNaN b).getLsbD 51 = true := by
  have hpay : b.toNat % 2 ^ 51 < 2 ^ 51 := Nat.mod_lt _ (by decide)
  rw [getLsbD_51, quietNaN, magBits_ofSignMag _ _ (by omega), decide_eq_true_eq]
  omega

/-- Settles O56: an operation's NaN is always the draw, and a draw's sign and payload can be any. -/
theorem invalidOperationsDrawQuietNaNs : Obligations.InvalidOperationsDrawQuietNaNs := by
  refine ⟨fun a b n => ⟨isNaN_fadd_iff a b n, isNaN_fsub_iff a b n, isNaN_fmul_iff a b n, isNaN_fdiv_iff a b n,
    fun f hf => ?_, fun ha hza hzb => ?_⟩, fun w => ⟨?_, fun ⟨hn, hq⟩ => ⟨_, quietNaN_drawOf hn hq⟩⟩⟩
  · have hdraws : DrawsOrGives f := by
      simp only [List.mem_cons, List.not_mem_nil, or_false] at hf
      rcases hf with rfl | rfl | rfl | rfl
      · exact fadd_drawsOrGives a b
      · exact fsub_drawsOrGives a b
      · exact fmul_drawsOrGives a b
      · exact fdiv_drawsOrGives a b
    exact hdraws.eq_of_isNaN n
  · rw [fdiv_of_isZero ha hzb, if_neg (by simp [hza])]
    exact gives_pure _
  · rintro ⟨b, rfl⟩
    exact ⟨isNaN_quietNaN b, getLsbD_51_quietNaN b⟩

end Sys2Proof.Machine
end

section
/-! PROOF. The comparisons (00_scope.md R16): the order of the words is that of their values, with the infinities
outermost. -/

namespace Sys2Proof.Machine

theorem orderKey_natAbs_finite {w : Word} (h : isFinite w = true) : (orderKey w).natAbs < infBits := by
  rw [orderKey_eq, natAbs_signed]
  exact (isFinite_iff w).mp h

theorem orderKey_of_isInf {w : Word} (h : isInf w = true) : orderKey w = signed (isNeg w) infBits := by
  rw [orderKey_eq, (isInf_iff w).mp h]

theorem flt_eq {a b : Word} (ha : isNaN a = false) (hb : isNaN b = false) : flt a b = decide (orderKey a < orderKey b) := by
  simp [flt, ha, hb]

theorem flt_of_isFinite {a b : Word} (ha : isFinite a = true) (hb : isFinite b = true) :
    flt a b = decide (signedUnits a < signedUnits b) := by
  rw [flt_eq (not_nan_inf_of_isFinite ha).1 (not_nan_inf_of_isFinite hb).1, decide_eq_decide, orderKey_lt_iff]

theorem flt_of_isInf_of_isFinite {a b : Word} (ha : isInf a = true) (hb : isFinite b = true) :
    flt a b = isNeg a ∧ flt b a = !isNeg a := by
  have hb' := orderKey_natAbs_finite hb
  have hna := (not_nan_finite_zero_of_isInf ha).1
  have hnb := (not_nan_inf_of_isFinite hb).1
  rw [flt_eq hna hnb, flt_eq hnb hna, orderKey_of_isInf ha]
  cases isNeg a
  · exact ⟨decide_eq_false (by rw [signed_false]; omega), decide_eq_true (by rw [signed_false]; omega)⟩
  · exact ⟨decide_eq_true (by rw [signed_true]; omega), decide_eq_false (by rw [signed_true]; omega)⟩

theorem flt_of_isInf_of_isInf {a b : Word} (ha : isInf a = true) (hb : isInf b = true) :
    flt a b = (isNeg a && !isNeg b) := by
  rw [flt_eq (not_nan_finite_zero_of_isInf ha).1 (not_nan_finite_zero_of_isInf hb).1, orderKey_of_isInf ha,
    orderKey_of_isInf hb]
  have hpos : 0 < infBits := by decide
  generalize infBits = m at hpos
  cases isNeg a <;> cases isNeg b <;> simp [hpos]

theorem fle_eq_not_flt {a b : Word} (ha : isNaN a = false) (hb : isNaN b = false) : fle a b = !flt b a := by
  rw [flt_eq hb ha, fle, ha, hb, ← decide_not]
  simp

theorem flt_fle_of_isNaN {a b : Word} (h : isNaN a = true ∨ isNaN b = true) : flt a b = false ∧ fle a b = false := by
  rcases h with h | h <;> simp [flt, fle, h]

theorem feq_eq_fle (a b : Word) : feq a b = (fle a b && fle b a) := by
  rw [Bool.eq_iff_iff]
  simp only [feq, fle, Bool.and_eq_true, Bool.not_eq_true', beq_iff_eq, decide_eq_true_eq, Int.le_antisymm_iff]
  tauto

theorem feq_of_isFinite {a b : Word} (ha : isFinite a = true) (hb : isFinite b = true) :
    feq a b = decide (signedUnits a = signedUnits b) := by
  have hna := (not_nan_inf_of_isFinite ha).1
  have hnb := (not_nan_inf_of_isFinite hb).1
  rw [feq_eq_fle, fle_eq_not_flt hna hnb, fle_eq_not_flt hnb hna, flt_of_isFinite ha hb, flt_of_isFinite hb ha,
    Bool.eq_iff_iff]
  simp only [Bool.and_eq_true, Bool.not_eq_true', decide_eq_false_iff_not, decide_eq_true_eq]
  omega

/-- Settles O57: the order key orders the words as their values do, the infinities outermost. -/
theorem comparisonsFollowTheValues : Obligations.ComparisonsFollowTheValues :=
  ⟨fun _ _ => flt_of_isFinite, fun _ _ => flt_of_isInf_of_isFinite, fun _ _ => flt_of_isInf_of_isInf,
    fun _ _ => fle_eq_not_flt, fun _ _ => flt_fle_of_isNaN, fun _ _ => rfl, feq_eq_fle, fun _ _ => feq_of_isFinite,
    fun _ _ => beq_iff_eq⟩

end Sys2Proof.Machine
end

section
/-! PROOF. Conversion of integers, infinite operands and zero signs, the constants, the sign operations and the elementary
functions (00_scope.md R12 to R17). -/

namespace Sys2Proof.Machine

/-! ## Conversion -/

/-- Settles O58: `n` is a significand of at most 53 bits, so `n` times the units of 1.0 is the value of a word, which
rounding leaves alone. -/
theorem integerConversionIsExact : Obligations.IntegerConversionIsExact := by
  intro n hn
  obtain ⟨m, hm, hval⟩ := exists_magUnits_eq n 1074 hn
  have hlt : m < infBits := by
    rw [infBits]
    omega
  have hinf : infBits < 2 ^ 63 := by decide
  have hscale : magUnits m * 1 = n * unitScale := by rw [hval, Nat.mul_one, unitScale, Nat.one_shiftLeft]
  have hword : int2f n = ofSignMag false m := by rw [int2f, ← hscale, roundMag_magUnits m 1 one_pos hlt.le]
  rw [hword, isFinite_iff, magBits_ofSignMag _ _ (by omega), signedUnits_ofSignMag _ _ (by omega)]
  exact ⟨hlt, by rw [signed_false, ← Nat.mul_one (magUnits m), hscale, Nat.cast_mul]⟩

/-! ## Infinite operands and the signs of zeros -/

theorem gives_fadd_of_isInf {a b : Word} (ha : isInf a = true)
    (hb : isFinite b = true ∨ (isInf b = true ∧ isNeg a = isNeg b)) : Gives (fadd a b) a ∧ Gives (fadd b a) a := by
  rcases hb with hb | ⟨hb, hs⟩
  · rw [fadd_of_isInf_of_isFinite ha hb, fadd_of_isFinite_of_isInf hb ha]
    exact ⟨gives_pure a, gives_pure a⟩
  · rw [← eq_of_isInf ha hb hs, fadd_of_isInf_of_isInf ha ha, if_pos rfl]
    exact ⟨gives_pure a, gives_pure a⟩

/-- A difference is the sum with the subtrahend's sign flipped. -/
theorem gives_fsub_of_isInf {a b : Word} (ha : isInf a = true)
    (hb : isFinite b = true ∨ (isInf b = true ∧ isNeg a ≠ isNeg b)) :
    Gives (fsub a b) a ∧ Gives (fsub b a) (fneg a) := by
  have hright : isFinite (fneg b) = true ∨ (isInf (fneg b) = true ∧ isNeg a = isNeg (fneg b)) := by
    rwa [isFinite_fneg, isInf_fneg, isNeg_fneg, Bool.eq_not]
  have hleft : isFinite b = true ∨ (isInf b = true ∧ isNeg (fneg a) = isNeg b) := by
    rwa [isNeg_fneg, Bool.not_eq]
  exact ⟨(gives_fadd_of_isInf ha hright).1, (gives_fadd_of_isInf (by rw [isInf_fneg, ha]) hleft).2⟩

theorem gives_fmul_of_isInf {a b : Word} (ha : isInf a = true) (hb : isNaN b = false) (hz : isZero b = false) :
    Gives (fmul a b) (ofSignMag (isNeg a != isNeg b) infBits) ∧
    Gives (fmul b a) (ofSignMag (isNeg a != isNeg b) infBits) := by
  obtain ⟨hna, -, hza⟩ := not_nan_finite_zero_of_isInf ha
  rw [fmul_of_isInf (.inl ha) hna hb, fmul_of_isInf (.inr ha) hb hna, bne_comm (a := isNeg b), if_neg (by simp [hza, hz]),
    if_neg (by simp [hza, hz])]
  exact ⟨gives_pure _, gives_pure _⟩

theorem gives_fdiv_of_isInf {a b : Word} (ha : isInf a = true) (hb : isFinite b = true) :
    Gives (fdiv a b) (ofSignMag (isNeg a != isNeg b) infBits) ∧ Gives (fdiv b a) (ofSignMag (isNeg a != isNeg b) 0) := by
  rw [fdiv_of_isInf_of_isFinite ha hb, fdiv_of_isFinite_of_isInf hb ha, bne_comm (a := isNeg b)]
  exact ⟨gives_pure _, gives_pure _⟩

theorem gives_fsub_of_zero_difference {a b : Word} (ha : isFinite a = true) (hb : isFinite b = true)
    (hx : signedUnits a - signedUnits b = 0) : Gives (fsub a b) (ofSignMag (isNeg a && !isNeg b) 0) := by
  rw [sub_eq_add_neg, ← signedUnits_fneg] at hx
  rw [fsub, fadd_of_zero_sum ha (by rw [isFinite_fneg, hb]) hx, isNeg_fneg]
  exact gives_pure _

/-- Settles O59: each clause is the equation of its kinds of operands. -/
theorem infiniteOperandsAndZeroSigns : Obligations.InfiniteOperandsAndZeroSigns := by
  refine ⟨fun _ _ => gives_fadd_of_isInf, fun _ _ => gives_fsub_of_isInf, fun _ _ => gives_fmul_of_isInf,
    fun _ _ => gives_fdiv_of_isInf,
    fun a b ha hb => ⟨fun hx => ?_, gives_fsub_of_zero_difference ha hb, ?_, fun hz => ?_⟩⟩
  · rw [fadd_of_zero_sum ha hb hx]
    exact gives_pure _
  · rw [fmul_of_isFinite ha hb]
    exact ⟨_, roundMag_le _ _, gives_pure _⟩
  · rw [fdiv_of_isFinite ha hb hz]
    exact ⟨_, roundMag_le _ _, gives_pure _⟩

/-! ## Constants, the sign bit and the elementary functions -/

theorem getLsbD_fneg (a : Word) (i : Nat) (hi : i < 64) :
    (fneg a).getLsbD i = if i = 63 then !a.getLsbD i else a.getLsbD i := by
  have hmask : (0x8000000000000000 : Word) = BitVec.twoPow 64 63 := by decide
  rw [fneg, hmask, BitVec.getLsbD_xor, BitVec.getLsbD_twoPow]
  by_cases h : i = 63 <;> simp [h, hi, eq_comm]

theorem getLsbD_fabs (a : Word) (i : Nat) (hi : i < 64) :
    (fabs a).getLsbD i = if i = 63 then false else a.getLsbD i := by
  have hmask : (0x7FFFFFFFFFFFFFFF : Word) = ~~~ BitVec.twoPow 64 63 := by decide
  rw [fabs, hmask, BitVec.getLsbD_and, BitVec.getLsbD_not, BitVec.getLsbD_twoPow]
  by_cases h : i = 63 <;> simp [h, hi, eq_comm]

theorem runDraw_elementary (r : Word) (n : Nat) :
    runDraw (elementary r) n = if isNaN r then (quietNaN (Config.nanBits n), n + 1) else (r, n) := by
  rw [elementary, runDraw_ite, runDraw_drawNaN, runDraw_pure]

/-- The values of the constants of R15 but `PI`, which is given by its word alone. -/
theorem constants_values : signedUnits f0 = 0 ∧ 2 * signedUnits fHalf = unitScale ∧ signedUnits f1 = unitScale ∧
    signedUnits f2 = 2 * unitScale ∧ signedUnits f4 = 4 * unitScale ∧ signedUnits f10 = 10 * unitScale ∧
    signedUnits fFloor = -250 * unitScale := by decide +kernel

/-- Settles O60: the constants are evaluated, the sign operations read bit by bit, and the four functions are one case
distinction on what Config answers. -/
theorem constantsSignBitAndElementaryFunctions : Obligations.ConstantsSignBitAndElementaryFunctions :=
  ⟨⟨rfl, rfl, rfl, rfl, rfl, rfl, rfl, rfl⟩, constants_values,
    fun a i hi => ⟨getLsbD_fneg a i hi, getLsbD_fabs a i hi⟩,
    fun x n => ⟨runDraw_elementary (Config.tan x) n, runDraw_elementary (Config.sin x) n,
      runDraw_elementary (Config.cos x) n, runDraw_elementary (Config.log10 x) n⟩⟩

end Sys2Proof.Machine
end

section
/-! PROOF. Every step keeps the invariant of 10_state.md R37: each effect a command can have keeps it, and so do the
record of an error, an answer and the host's other moves. -/

namespace Sys2Proof.Machine

/-! ## Word files and buffer lengths -/

theorem WordMem.below_mono {a b : Nat} {m : WordMem} (h : m.below a = true) (hab : a ≤ b) : m.below b = true := by
  rw [WordMem.below, List.all_eq_true] at h ⊢
  exact fun e he => decide_eq_true ((of_decide_eq_true (h e he)).trans_le hab)

theorem FileOk.mono {a b : Nat} {m : WordMem} (h : FileOk a m) (hab : a ≤ b) : FileOk b m :=
  ⟨h.1, WordMem.below_mono h.2 hab⟩

theorem FileOk.write {size i : Nat} {m : WordMem} (h : FileOk size m) (hi : i < size) (v : Word) :
    FileOk size (m.write i v) :=
  ⟨WordMem.wf_write _ _ _ h.1, WordMem.below_write _ _ _ _ h.2 hi⟩

theorem fileOk_zeros (size : Nat) : FileOk size WordMem.zeros := ⟨rfl, rfl⟩

/-- A length the buffers hold (R140) fits the 32-bit result registers. -/
theorem two_pow_le_nfftMax {p : Config} (hp : p.legal = true) {l : Nat} (hl : l ≤ p.log2NfftMax) :
    2 ^ l ≤ p.nfftMax ∧ 2 ^ l < 2 ^ 32 := by
  obtain ⟨-, hmax, -, -⟩ := lengths_of_legal hp
  exact ⟨Nat.pow_le_pow_right two_pos hl, Nat.pow_lt_pow_right one_lt_two (by omega)⟩

/-! ## Moves that leave the invariant's registers alone, and the error record -/

theorem Inv.respondOk {s : State} (h : Inv s) (r : Word) : Inv (respondOk r s) := { h with }

theorem Inv.takeResponse {s : State} (h : Inv s) : Inv (takeResponse s) := { h with }

theorem Inv.withInbox {s : State} (h : Inv s) (rest : List HostEvent) : Inv { s with inbox := rest } := { h with }

theorem Inv.raiseErr {s : State} (h : Inv s) (e : ErrKind) : Inv (raiseErr e s) := { h with
  errCode_zero := fun herr => by simp at herr }

theorem Inv.clearErr {s : State} (h : Inv s) : Inv (clearErr s) := { h with errCode_zero := fun _ => rfl }

/-! ## Effects -/

/-- Zeroed delay lines hold nothing outside the active shape (R127). -/
theorem Inv.zeroed {s : State} (h : Inv s) : Inv { s with delayLine := WordMem.zeros } := { h with
  taps_zero := fun _ _ _ => rfl
  delayLine_ok := fileOk_zeros _ }

theorem Inv.sample {s : State} (h : Inv s) (x : Word) (m n : Nat) :
    Inv { s with delayLine := (runDraw (engineApply s.design s.delayLine x) m).1.2, draws := n } := { h with
  taps_zero := fun k j hkj => (engineApply_inactive _ _ _ x m h.shape k j hkj).trans (h.taps_zero k j hkj)
  delayLine_ok := fileOk_engineApply _ _ _ x m h.shape h.delayLine_ok }

theorem Inv.captured {s : State} (h : Inv s) (idx : Nat) (d : Word) (hi : idx < s.par.nfftMax) :
    Inv { s with ir := s.ir.write idx d } := { h with ir_ok := h.ir_ok.write hi d }

/-- A redesign's new design is of legal shape with nothing past it (R28, R105), over zeroed delay lines and with both
results invalid (R106). -/
theorem Inv.redesigned {s : State} (h : Inv s) (c : FilterConfig) : Inv (redesign { s with cfg := c }) :=
  have hp := smax_le_of_legal h.par_legal
  have shape := designOf_shape s.par c s.draws hp
  have files := designOf_files s.par c s.draws hp
  { h with
    taps_zero := fun _ _ _ => rfl
    gain_zero := fun k hk => WordMem.read_of_below _ _ k files.gain_ok.2 hk
    coef_zero := fun k j hkj => files.coef_zero k j hkj.1 hkj.2
    shape := shape
    respLen_ok := fun hv => by simp at hv
    delay_lt := fun hv => by simp at hv
    delayLine_ok := fileOk_zeros _
    gain_ok := files.gain_ok.mono shape.stages_le
    coef_ok := files.coef_ok.mono (Nat.mul_le_mul_left 4 shape.stages_le) }

theorem Inv.transformed {s : State} (h : Inv s) (l : Nat) (hl : l ≤ s.par.log2NfftMax) : Inv (runFft l s) :=
  have kept := keptBelow_fileOk _ _ (two_pow_le_nfftMax h.par_legal hl).1
  have files := fftCore_keeps s.par s.ir l kept kept (s.re, s.im) s.draws h.re_ok h.im_ok
  { h with
    re_ok := files.1
    im_ok := files.2 }

/-- The length of the curve an analysis of length `l` leaves (R155) is a power of two within the buffer. -/
theorem analyzeCore_respLen_ok {s : State} (h : Inv s) (l : Nat) (cs : Bool) (h1 : 1 ≤ l) (h2 : l ≤ s.par.log2NfftMax)
    (hv : (analyzeCore l cs s).respValid = true) :
    1 ≤ (analyzeCore l cs s).respLen.toNat ∧ (analyzeCore l cs s).respLen.toNat ≤ s.par.nfftMax / 2 ∧
      ∃ e, (analyzeCore l cs s).respLen.toNat = 2 ^ e := by
  have frame := analyzeCore_frame l cs s
  rw [frame.respLen]
  rw [frame.respValid] at hv
  cases cs with
  | false => exact h.respLen_ok hv
  | true =>
    obtain ⟨hfull, hword⟩ := two_pow_le_nfftMax h.par_legal h2
    have hhalf : 2 ^ l / 2 = 2 ^ (l - 1) := Nat.pow_div h1 two_pos
    have hlen : (BitVec.ofNat 32 (2 ^ l / 2)).toNat = 2 ^ l / 2 := Nat.mod_eq_of_lt (by omega)
    rw [if_pos rfl, hlen]
    exact ⟨hhalf ▸ Nat.two_pow_pos _, Nat.div_le_div_right hfull, _, hhalf⟩

theorem analyzeCore_delay_lt {s : State} (h : Inv s) (l : Nat) (cs : Bool) (h2 : l ≤ s.par.log2NfftMax) :
    (analyzeCore l cs s).delay.toNat < s.par.nfftMax := by
  obtain ⟨d, hd, heq⟩ := (analyzeCore_frame l cs s).delay
  obtain ⟨hfull, hword⟩ := two_pow_le_nfftMax h.par_legal h2
  have hlen : (BitVec.ofNat 32 d).toNat = d := Nat.mod_eq_of_lt (by omega)
  rw [heq, hlen]
  exact hd.trans_le hfull

/-- An analysis keeps the registers of its frame (R145, R155), leaves results within their ranges, and writes its buffers
below its own length. -/
theorem Inv.analyzed {s : State} (h : Inv s) (l : Nat) (cs : Bool) (h1 : 1 ≤ l) (h2 : l ≤ s.par.log2NfftMax) :
    Inv (analyzeCore l cs s) := by
  obtain ⟨hpar, -, hdesign, hline, herr, hcode, -, -, -, -, -, -⟩ := analyzeCore_frame l cs s
  have hfull := (two_pow_le_nfftMax h.par_legal h2).1
  have kept := keptBelow_fileOk _ _ hfull
  have fft_ok := analyzeCore_fft_keeps l cs s kept kept h.re_ok h.im_ok
  exact {
    taps_zero := by rw [hdesign, hline]; exact h.taps_zero
    gain_zero := by rw [hdesign]; exact h.gain_zero
    coef_zero := by rw [hdesign]; exact h.coef_zero
    shape := by rw [hdesign, hpar]; exact h.shape
    respLen_ok := by rw [hpar]; exact analyzeCore_respLen_ok h l cs h1 h2
    delay_lt := fun _ => by rw [hpar]; exact analyzeCore_delay_lt h l cs h2
    errCode_zero := by rw [herr, hcode]; exact h.errCode_zero
    delayLine_ok := by rw [hpar, hline]; exact h.delayLine_ok
    gain_ok := by rw [hpar, hdesign]; exact h.gain_ok
    coef_ok := by rw [hpar, hdesign]; exact h.coef_ok
    ir_ok := by rw [hpar]; exact analyzeCore_ir_keeps l cs s kept h.ir_ok
    re_ok := by rw [hpar]; exact fft_ok.1
    im_ok := by rw [hpar]; exact fft_ok.2
    resp_ok := by
      rw [hpar]
      exact analyzeCore_resp_keeps l cs s (keptBelow_fileOk _ _ (Nat.div_le_div_right hfull)) h.resp_ok
    par_legal := by rw [hpar]; exact h.par_legal }

theorem Effect.keeps_inv {i : Instr} {s u : State} (he : Effect i s u) (h : Inv s) : Inv u := by
  cases he with
  | unchanged => exact h
  | redesigned c _ => exact h.redesigned c
  | sample x _ => exact h.sample x _ _
  | zeroed _ => exact h.zeroed
  | analyzed l cs hl _ => exact h.analyzed l cs (hl h.par_legal).1 (hl h.par_legal).2
  | transformed l _ h2 _ => exact h.transformed l h2
  | captured idx d hidx _ => exact h.captured idx d hidx
  | cleared _ => exact h.clearErr

theorem Effect.par {i : Instr} {s u : State} (he : Effect i s u) : u.par = s.par := by
  cases he with
  | analyzed l cs _ _ => exact (analyzeCore_frame l cs s).par
  | _ => rfl

/-! ## Commands and steps -/

theorem ends_of_exec {i : Instr} {s t : State} (ht : exec i s = .next t) : Ends i s t := by
  obtain ⟨t', ht', ends⟩ := exec_cases i s
  rwa [Host.Outcome.next.inj (ht.symm.trans ht')]

theorem exec_keeps_inv {i : Instr} {s t : State} (h : Inv s) (ht : exec i s = .next t) : Inv t ∧ t.par = s.par := by
  rcases ends_of_exec ht with ⟨e, rfl⟩ | ⟨r, u, rfl, effect⟩
  · exact ⟨h.raiseErr e, rfl⟩
  · exact ⟨(effect.keeps_inv h).respondOk r, effect.par⟩

theorem bypass_shape (smax : Nat) : Design.bypass.Shape smax :=
  ⟨by decide, by decide, by decide, by decide, Nat.zero_le _⟩

/-- The Bypass design with zeroed files meets the invariant under any legal parameters (R38). -/
theorem inv_hardReset (s : State) (hp : s.par.legal = true) : Inv (hardReset s) where
  taps_zero := fun _ _ _ => rfl
  gain_zero := fun _ _ => rfl
  coef_zero := fun _ _ _ => rfl
  shape := bypass_shape _
  respLen_ok := fun hv => by simp [State.reset] at hv
  delay_lt := fun hv => by simp [State.reset] at hv
  errCode_zero := fun _ => rfl
  delayLine_ok := fileOk_zeros _
  gain_ok := fileOk_zeros _
  coef_ok := fileOk_zeros _
  ir_ok := fileOk_zeros _
  re_ok := fileOk_zeros _
  im_ok := fileOk_zeros _
  resp_ok := fileOk_zeros _
  par_legal := hp

/-- Settles O16: a step is one of the host's moves, and each keeps the invariant. -/
theorem stepKeepsInv : Obligations.StepKeepsInv := by
  intro s t h ht
  rcases step_cases s with ⟨-, hs⟩ | ⟨rest, ⟨-, hs⟩ | ⟨-, hs⟩ | ⟨c, -, ⟨e, -, hs⟩ | ⟨i, -, hs⟩⟩⟩
  · obtain rfl := Host.Outcome.next.inj (hs.symm.trans ht)
    exact ⟨h, rfl⟩
  · obtain rfl := Host.Outcome.next.inj (hs.symm.trans ht)
    exact ⟨inv_hardReset _ h.par_legal, rfl⟩
  · obtain rfl := Host.Outcome.next.inj (hs.symm.trans ht)
    exact ⟨(h.withInbox rest).takeResponse, rfl⟩
  · obtain rfl := Host.Outcome.next.inj (hs.symm.trans ht)
    exact ⟨(h.withInbox rest).takeResponse.raiseErr _, rfl⟩
  · exact (exec_keeps_inv (h.withInbox rest).takeResponse (hs.symm.trans ht) :)

end Sys2Proof.Machine
end

section
/-! PROOF. The state after hardware reset (10_state.md R38), and which commands write configuration, design and delay lines
(R23, R29). -/

namespace Sys2Proof.Machine

/-- Settles O10: each value is read off `State.reset`; every file is empty, so every word reads `+0.0`. -/
theorem resetValues : Obligations.ResetValues :=
  ⟨rfl, fun _ _ => rfl, rfl, rfl, rfl, rfl, rfl, rfl, rfl, rfl, rfl, fun _ => rfl, fun _ _ => rfl, rfl, rfl, rfl,
    rfl, rfl, rfl, fun _ => rfl, fun _ => rfl, fun _ => rfl, fun _ => rfl, rfl, rfl, rfl, rfl⟩

/-- A configuration whose mode is Bypass at every half rate gives the Bypass design (R98, R101). -/
theorem designOf_of_bypass (p : Config) (c : FilterConfig) (n : Nat) (hm : ∀ half, modeOf c half = .bypass) :
    (runDraw (designOf p c) n).1 = Design.bypass := by
  have derived : (runDraw (deriveMode p c) n).1 = (.bypass, 0) :=
    (deriveMode_cases p c n).resolve_right fun ⟨_, hne, _, _⟩ => hne (hm _)
  simp only [runDraw_designOf, derived]
  rfl

/-- Settles O15: a hardware reset of the block at reset changes nothing of it, and Bypass is the design of a configuration
with nothing enabled. -/
theorem resetMeetsTheInvariants : Obligations.ResetMeetsTheInvariants :=
  ⟨inv_hardReset State.reset (by decide), 0, designOf_of_bypass _ _ 0 fun _ => rfl⟩

/-- What a command that is no setter leaves alone (R23, R29). -/
theorem Effect.keeps_design {i : Instr} {s u : State} (he : Effect i s u) (hi : isSetter i = false) :
    u.cfg = s.cfg ∧ u.design = s.design ∧ (s.delayValid = true → u.delayValid = true) ∧
      (s.respValid = true → u.respValid = true) ∧
      ((∀ x, i ≠ .apply x) → i ≠ .reset → u.delayLine = s.delayLine) := by
  cases he with
  | redesigned c hs => exact absurd (hi.symm.trans hs) Bool.false_ne_true
  | sample x hx => exact ⟨rfl, rfl, id, id, fun hne => absurd hx (hne x)⟩
  | zeroed hr => exact ⟨rfl, rfl, id, id, fun _ hne => absurd hr hne⟩
  | analyzed l cs _ _ =>
    have frame := analyzeCore_frame l cs s
    exact ⟨frame.cfg, frame.design, fun _ => frame.delayValid, fun hv => by rw [frame.respValid, hv, Bool.or_true],
      fun _ _ => frame.delayLine⟩
  | _ => exact ⟨rfl, rfl, id, id, fun _ _ => rfl⟩

/-- Settles O14: a command that is no setter records an error or answers over an effect that keeps the design. -/
theorem onlySettersChangeTheDesign : Obligations.OnlySettersChangeTheDesign := by
  intro i s t hi ht
  rcases ends_of_exec ht with ⟨e, rfl⟩ | ⟨r, u, rfl, effect⟩
  · exact ⟨rfl, rfl, id, id, fun _ _ => rfl⟩
  · exact effect.keeps_design hi

end Sys2Proof.Machine
end

section
/-! PROOF. RDCSR (43_access.md R182) over the layouts of 10_state.md R25, R28, R29 and R31. -/

namespace Sys2Proof.Machine

theorem readSpace_of_valid {sp : Space} {idx : Nat} {s : State} (h : sp.valid idx s = true) :
    readSpace sp idx s = respondOk (memRead sp idx s) s := if_pos h

theorem readSpace_of_not_valid {sp : Space} {idx : Nat} {s : State} (h : ¬ sp.valid idx s = true) :
    readSpace sp idx s = raiseErr .range s := if_neg h

/-- RDCSR at a number of R25. -/
theorem exec_rdcsr_of_le {num : Nat} (s : State) (h : num ≤ 0x0C) {w : Word} (hw : csrWord num s = w) :
    exec (.rdcsr num) s = .next { s with rsp := some ⟨.ok, w⟩ } := by
  subst hw
  exact congrArg Host.Outcome.next (readSpace_of_valid (decide_eq_true h))

theorem exec_rdcsr_of_gt {num : Nat} (s : State) (h : 0x0C < num) :
    exec (.rdcsr num) s = .next (raiseErr .range s) :=
  congrArg Host.Outcome.next (readSpace_of_not_valid fun hv => Nat.not_le_of_lt h (of_decide_eq_true hv))

theorem toNat_append_eq {m n : Nat} (x : BitVec m) (y : BitVec n) : (x ++ y).toNat = x.toNat * 2 ^ n + y.toNat := by
  rw [BitVec.toNat_append, ← Nat.shiftLeft_add_eq_or_of_lt y.isLt, Nat.shiftLeft_eq]

/-- A register is its fields side by side when its number is theirs. -/
theorem ofNat_eq_zeroExtend {m a : Nat} {x : BitVec m} (h : x.toNat = a) : BitVec.ofNat 64 a = x.zeroExtend 64 := by
  rw [← h, BitVec.ofNat_toNat]

theorem flagAt_eq (b : Bool) (place : Nat) : flagAt b place = b.toNat * 2 ^ place := by
  cases b <;> simp [flagAt]

/-- `ENABLES` is its two bits side by side (R25). -/
theorem enablesWord_eq_append (c : FilterConfig) :
    enablesWord c = (BitVec.ofBool c.hpen ++ BitVec.ofBool c.lpen).zeroExtend 64 := by
  apply ofNat_eq_zeroExtend
  rw [flagAt_eq, flagAt_eq, toNat_append_eq, BitVec.toNat_ofBool, BitVec.toNat_ofBool]
  omega

/-- `CAP` is its three byte fields side by side (R31). -/
theorem capWord_eq_append {p : Config} (hp : p.legal = true) :
    capWord p =
      (BitVec.ofNat 8 p.log2NfftDefault ++ BitVec.ofNat 8 p.log2NfftMax ++ BitVec.ofNat 8 p.smax).zeroExtend 64 := by
  have hs := smax_le_of_legal hp
  have hl := lengths_of_legal hp
  apply ofNat_eq_zeroExtend
  simp only [toNat_append_eq, BitVec.toNat_ofNat]
  omega

/-- `STATUS` is its fields side by side (R29). -/
theorem statusWord_eq_append (s : State) :
    statusWord s = (s.errCode ++ (0 : BitVec 5) ++ BitVec.ofBool s.err ++ BitVec.ofBool s.respValid ++
      BitVec.ofBool s.delayValid).zeroExtend 64 := by
  apply ofNat_eq_zeroExtend
  simp only [flagAt_eq, toNat_append_eq, BitVec.toNat_ofBool, BitVec.ofNat_eq_ofNat, BitVec.toNat_ofNat]
  omega

/-- Settles O46: each number of R25 reads its own CSR, and the others are refused. -/
theorem rdcsrReadsTheCsrs : Obligations.RdcsrReadsTheCsrs := by
  intro s
  refine ⟨exec_rdcsr_of_le s (by decide) rfl, fun hp => exec_rdcsr_of_le s (by decide) ?_,
    fun hp => exec_rdcsr_of_le s (by decide) (capWord_eq_append hp), exec_rdcsr_of_le s (by decide) rfl,
    exec_rdcsr_of_le s (by decide) (enablesWord_eq_append s.cfg), exec_rdcsr_of_le s (by decide) rfl,
    exec_rdcsr_of_le s (by decide) rfl, exec_rdcsr_of_le s (by decide) rfl, exec_rdcsr_of_le s (by decide) rfl,
    exec_rdcsr_of_le s (by decide) ?_, exec_rdcsr_of_le s (by decide) rfl, exec_rdcsr_of_le s (by decide) rfl,
    exec_rdcsr_of_le s (by decide) (statusWord_eq_append s), exec_rdcsr_of_le s (by decide) rfl,
    exec_rdcsr_of_le s (by decide) rfl, fun num h => exec_rdcsr_of_gt s h⟩
  · rw [csrWord, hp]
    rfl
  · rw [csrWord]
    cases s.design.mode <;> rfl

end Sys2Proof.Machine
end

section
/-! PROOF. The twiddle ROM (10_state.md R36): what RDTW answers of it, its exact entries, and that its entries lie one step
of the circle apart. -/

namespace Sys2Proof.Machine

/-! ## RDTW (43_access.md R189) -/

theorem exec_rdtw_of_lt {idx : Nat} (s : State) (h : idx < s.par.nfftMax) :
    exec (.rdtw idx) s = .next { s with rsp := some ⟨.ok, memRead .tw idx s⟩ } :=
  congrArg Host.Outcome.next (readSpace_of_valid (decide_eq_true h))

theorem exec_rdtw_of_ge {idx : Nat} (s : State) (h : s.par.nfftMax ≤ idx) :
    exec (.rdtw idx) s = .next (raiseErr .range s) :=
  congrArg Host.Outcome.next (readSpace_of_not_valid fun hv => Nat.not_lt_of_le h (of_decide_eq_true hv))

theorem memRead_tw_even (t : Nat) (s : State) : memRead .tw (2 * t) s = twRe s.par t := by
  rw [memRead, if_pos (Nat.mul_mod_right 2 t), Nat.mul_div_cancel_left t two_pos]

theorem memRead_tw_odd (t : Nat) (s : State) : memRead .tw (2 * t + 1) s = twIm s.par t := by
  have half : (2 * t + 1) / 2 = t := by omega
  rw [memRead, if_neg (by omega), half]

/-- Index `2t` answers the real, `2t+1` the imaginary part of entry `t`. -/
theorem exec_rdtw_entry (s : State) (t : Nat) (h : 2 * t + 1 < s.par.nfftMax) {re im : Word} (hre : twRe s.par t = re)
    (him : twIm s.par t = im) :
    exec (.rdtw (2 * t)) s = .next { s with rsp := some ⟨.ok, re⟩ } ∧
      exec (.rdtw (2 * t + 1)) s = .next { s with rsp := some ⟨.ok, im⟩ } := by
  rw [exec_rdtw_of_lt s (Nat.lt_of_succ_lt h), exec_rdtw_of_lt s h, memRead_tw_even, memRead_tw_odd, hre, him]
  exact ⟨rfl, rfl⟩

/-! ## Angles -/

/-- `n` eighths of the ROM's turn are `n` eighths of `2^24` units of angle, whatever the ROM's length. -/
theorem twAngle_eighths {p : Config} (hp : p.legal = true) (n : Nat) :
    twAngle p (n * 2 ^ (p.log2NfftMax - 3)) = n * 2 ^ 21 := by
  obtain ⟨h8, h24, -, -⟩ := lengths_of_legal hp
  have split : p.log2NfftMax - 3 + (24 - p.log2NfftMax) = 21 := by omega
  rw [twAngle, Nat.mul_assoc, ← pow_add, split]

theorem nfftMax_eq_eight_mul {p : Config} (hp : p.legal = true) : p.nfftMax = 8 * 2 ^ (p.log2NfftMax - 3) := by
  obtain ⟨h8, -, -, -⟩ := lengths_of_legal hp
  have split : 3 + (p.log2NfftMax - 3) = p.log2NfftMax := by omega
  rw [Config.nfftMax, ← split, pow_add, split]
  rfl

/-- The ROM of a buffer `2^k` times as long has each entry at `2^k` times the index (R36). -/
theorem twAngle_longer {p q : Config} (hq : q.legal = true) (t k : Nat) (hk : q.log2NfftMax = p.log2NfftMax + k) :
    twAngle q (t * 2 ^ k) = twAngle p t := by
  obtain ⟨-, h24, -, -⟩ := lengths_of_legal hq
  have split : k + (24 - q.log2NfftMax) = 24 - p.log2NfftMax := by omega
  rw [twAngle, Nat.mul_assoc, ← pow_add, split, twAngle]

/-! ## The entries R36 gives exactly -/

/-- The entries at 0, 1/8, 1/4 and 3/8 of a turn. -/
theorem twAt_eighths :
    (twReAt (0 * 2 ^ 21) = 0x3FF0000000000000 ∧ twImAt (0 * 2 ^ 21) = 0x0000000000000000) ∧
    (twReAt (1 * 2 ^ 21) = 0x3FE6A09E667F3BCD ∧ twImAt (1 * 2 ^ 21) = 0xBFE6A09E667F3BCD) ∧
    (twReAt (2 * 2 ^ 21) = 0x0000000000000000 ∧ twImAt (2 * 2 ^ 21) = 0xBFF0000000000000) ∧
    (twReAt (3 * 2 ^ 21) = 0xBFE6A09E667F3BCD ∧ twImAt (3 * 2 ^ 21) = 0xBFE6A09E667F3BCD) := by decide +kernel

/-- RDTW at `n` eighths of the ROM answers the entry at `n` eighths of a turn. -/
theorem exec_rdtw_eighths {s : State} (hp : s.par.legal = true) {n t : Nat} (hn : n < 4)
    (ht : t = n * 2 ^ (s.par.log2NfftMax - 3)) {re im : Word}
    (hw : twReAt (n * 2 ^ 21) = re ∧ twImAt (n * 2 ^ 21) = im) :
    exec (.rdtw (2 * t)) s = .next { s with rsp := some ⟨.ok, re⟩ } ∧
      exec (.rdtw (2 * t + 1)) s = .next { s with rsp := some ⟨.ok, im⟩ } := by
  subst ht
  have angle := twAngle_eighths hp n
  have hpos := Nat.two_pow_pos (s.par.log2NfftMax - 3)
  have hle := Nat.mul_le_mul_right (2 ^ (s.par.log2NfftMax - 3)) (Nat.le_of_lt_succ hn)
  refine exec_rdtw_entry s _ ?_ (by rw [twRe, angle, hw.1]) (by rw [twIm, angle, hw.2])
  rw [nfftMax_eq_eight_mul hp]
  omega

/-- Settles O51: RDTW answers by the parity of its index, and the exact entries are evaluated at their angles. -/
theorem rdtwReadsTheTwiddleRom : Obligations.RdtwReadsTheTwiddleRom := by
  intro s
  refine ⟨fun t ht => exec_rdtw_entry s t ht rfl rfl, fun hp => ?_, fun idx h => exec_rdtw_of_ge s h⟩
  have full := nfftMax_eq_eight_mul hp
  obtain ⟨at0, at1, at2, at3⟩ := twAt_eighths
  exact ⟨exec_rdtw_eighths hp (by decide) (by omega) at0, exec_rdtw_eighths hp (by decide) (by omega) at1,
    exec_rdtw_eighths hp (by decide) (by omega) at2, exec_rdtw_eighths hp (by decide) (by omega) at3⟩

/-! ## One step of the circle -/

/-- `r' + i'·I` is the product of `r + i·I` and `r1 + i1·I`, to within `2^-52` in each part; 1.0 is `u` units. -/
abbrev TurnedBy (u : Nat) (r1 i1 r i r' i' : Int) : Prop :=
  (r' * u - (r * r1 - i * i1)).natAbs * 2 ^ 52 ≤ u * u ∧ (i' * u - (r * i1 + i * r1)).natAbs * 2 ^ 52 ≤ u * u

/-- Both points turned by a further quarter, a multiplication by `-I`. -/
theorem TurnedBy.quarter {u : Nat} {r1 i1 r i r' i' : Int} (h : TurnedBy u r1 i1 r i r' i') :
    TurnedBy u r1 i1 i (-r) i' (-r') := by
  have hre : i' * u - (i * r1 - -r * i1) = i' * u - (r * i1 + i * r1) := by ring
  have him : -r' * u - (i * i1 + -r * r1) = -(r' * u - (r * r1 - i * i1)) := by ring
  rw [TurnedBy, hre, him, Int.natAbs_neg]
  exact ⟨h.2, h.1⟩

/-- The statement does not depend on the unit. -/
theorem TurnedBy.scale {u : Nat} {r1 i1 r i r' i' : Int} (h : TurnedBy u r1 i1 r i r' i') (k : Nat) :
    TurnedBy (u * k) (r1 * k) (i1 * k) (r * k) (i * k) (r' * k) (i' * k) := by
  have hre : r' * k * ↑(u * k) - (r * k * (r1 * k) - i * k * (i1 * k)) = (r' * u - (r * r1 - i * i1)) * ↑(k * k) := by
    push_cast
    ring
  have him : i' * k * ↑(u * k) - (r * k * (i1 * k) + i * k * (r1 * k)) = (i' * u - (r * i1 + i * r1)) * ↑(k * k) := by
    push_cast
    ring
  rw [TurnedBy, hre, him, Int.natAbs_mul, Int.natAbs_mul, Int.natAbs_natCast, Nat.mul_right_comm,
    Nat.mul_right_comm _ (k * k), Nat.mul_mul_mul_comm u k]
  exact ⟨Nat.mul_le_mul_right _ h.1, Nat.mul_le_mul_right _ h.2⟩

theorem abs_mul_le_sq {x : Int} {u : Nat} (h : x.natAbs * 2 ^ 52 ≤ u * u) : |x| * 2 ^ 52 ≤ (u : Int) ^ 2 := by
  rw [Int.abs_eq_natAbs, sq]
  exact_mod_cast h

/-! ## The table, in units of `2^-62`

The entries of the table are whole numbers of these larger units, in which the check below computes with short numbers. -/

/-- `2^-62` in units of `2^-1074`. -/
def tableUnit : Nat := 2 ^ 1012

/-- Zero, or a positive word no smaller than `2^-10`. -/
abbrev InTableRange (w : Word) : Prop := w = 0 ∨ (isNeg w = false ∧ 1013 ≤ expField w)

/-- The value of such a word in units of `2^-62`. -/
def tableUnits (w : Word) : Nat := if w = 0 then 0 else (2 ^ 52 + fracField w) * 2 ^ (expField w - 1013)

theorem signedUnits_eq_tableUnits {w : Word} (h : InTableRange w) : signedUnits w = tableUnits w * tableUnit := by
  rcases h with rfl | ⟨hpos, hexp⟩
  · rw [tableUnits, if_pos rfl, Nat.cast_zero, zero_mul]
    rfl
  · have hne : w ≠ 0 := by
      rintro rfl
      exact absurd hexp (by decide)
    have split : expField w - 1 = expField w - 1013 + 1012 := by omega
    rw [signedUnits, if_neg (by simp [hpos]), units, if_neg (by omega), tableUnits, if_neg hne, split, pow_add,
      ← Nat.mul_assoc, Nat.cast_mul, tableUnit]

/-- `cos(2π·t/4096)` as the table holds it. -/
def quarterUnits (t : Nat) : Int := tableUnits (quarterCos t)

theorem quarterCos_inTableRange : ∀ t ∈ List.range 1025, InTableRange (quarterCos t) := by decide +kernel

theorem signedUnits_quarterCos {t : Nat} (h : t ≤ 1024) : signedUnits (quarterCos t) = quarterUnits t * tableUnit :=
  signedUnits_eq_tableUnits (quarterCos_inTableRange t (List.mem_range.mpr (Nat.lt_succ_of_le h)))

/-- The one check of the table's data: with the sines read from its other end, each point is one step from the one
before. -/
theorem quarterUnits_turned : ∀ t ∈ List.range 1024,
    TurnedBy (2 ^ 62) (quarterUnits 1) (-quarterUnits 1023) (quarterUnits t) (-quarterUnits (1024 - t))
      (quarterUnits (t + 1)) (-quarterUnits (1023 - t)) := by decide +kernel

/-! ## The ROM this hardware takes, from its table -/

theorem signedUnits_negEntry (w : Word) : signedUnits (negEntry w) = -signedUnits w := by
  unfold negEntry
  split
  case isTrue h => rw [h]; rfl
  case isFalse => exact signedUnits_fneg w

theorem cosEntry_of_table (t : Nat) : cosEntry (t * 2 ^ 12) = quarterCos t := by
  rw [cosEntry, if_pos (Nat.mul_mod_left t _), Nat.mul_div_cancel t (Nat.two_pow_pos 12)]

theorem twAngle_hardware (t : Nat) : twAngle Config.hardware t = t * 2 ^ 12 := rfl

theorem signedUnits_twRe_firstQuadrant {t : Nat} (h : t ≤ 1024) :
    signedUnits (twRe Config.hardware t) = quarterUnits t * tableUnit := by
  rw [twRe, twAngle_hardware, twReAt, if_pos (by omega), cosEntry_of_table, signedUnits_quarterCos h]

theorem signedUnits_twIm_firstQuadrant {t : Nat} (h : t ≤ 1024) :
    signedUnits (twIm Config.hardware t) = -quarterUnits (1024 - t) * tableUnit := by
  have mirror : 2 ^ 22 - twAngle Config.hardware t = (1024 - t) * 2 ^ 12 := by
    rw [twAngle_hardware]
    omega
  rw [twIm, twImAt, if_pos (by rw [twAngle_hardware]; omega), mirror, signedUnits_negEntry, cosEntry_of_table,
    signedUnits_quarterCos (Nat.sub_le _ _), neg_mul]

/-- A quarter turn on, the real part is the imaginary part of before: both mirror the same entry of the table, and the one
at the quarter itself is zero. -/
theorem twReAt_quarter {a : Nat} (h : a ≤ 2 ^ 22) : twReAt (2 ^ 22 + a) = twImAt a := by
  rw [twReAt, twImAt, if_pos h]
  rcases Nat.eq_zero_or_pos a with rfl | hpos
  · have zero : cosEntry (2 ^ 22) = 0 := by decide +kernel
    rw [if_pos (by omega), Nat.sub_zero, Nat.add_zero, zero]
    rfl
  · have mirror : 2 ^ 23 - (2 ^ 22 + a) = 2 ^ 22 - a := by omega
    rw [if_neg (by omega), mirror]

/-- A quarter turn on, the imaginary part is the negated real part of before. -/
theorem twImAt_quarter {a : Nat} (h : a ≤ 2 ^ 22) : twImAt (2 ^ 22 + a) = negEntry (twReAt a) := by
  rw [twReAt, twImAt, if_pos h]
  rcases Nat.eq_zero_or_pos a with rfl | hpos
  · rfl
  · rw [if_neg (by omega), Nat.add_sub_cancel_left]

theorem twAngle_hardware_quarter (u : Nat) : twAngle Config.hardware (1024 + u) = 2 ^ 22 + twAngle Config.hardware u := by
  rw [twAngle_hardware, twAngle_hardware]
  omega

theorem twRe_quarter {t : Nat} (h : t ≤ 1024) : twRe Config.hardware (1024 + t) = twIm Config.hardware t := by
  rw [twRe, twAngle_hardware_quarter, twReAt_quarter (by rw [twAngle_hardware]; omega), twIm]

theorem signedUnits_twIm_quarter {t : Nat} (h : t ≤ 1024) :
    signedUnits (twIm Config.hardware (1024 + t)) = -signedUnits (twRe Config.hardware t) := by
  rw [twIm, twAngle_hardware_quarter, twImAt_quarter (by rw [twAngle_hardware]; omega), signedUnits_negEntry, twRe]

/-- Entry `t + 1` is entry `t` turned by entry 1. -/
abbrev TwiddleTurned (t : Nat) : Prop :=
  TurnedBy unitScale (signedUnits (twRe Config.hardware 1)) (signedUnits (twIm Config.hardware 1))
    (signedUnits (twRe Config.hardware t)) (signedUnits (twIm Config.hardware t))
    (signedUnits (twRe Config.hardware (t + 1))) (signedUnits (twIm Config.hardware (t + 1)))

theorem twiddleTurned_firstQuadrant {t : Nat} (h : t < 1024) : TwiddleTurned t := by
  have scale : unitScale = 2 ^ 62 * tableUnit := by decide +kernel
  have mirror : 1024 - (t + 1) = 1023 - t := by omega
  rw [TwiddleTurned, scale, signedUnits_twRe_firstQuadrant (t := 1) (by decide),
    signedUnits_twIm_firstQuadrant (t := 1) (by decide), signedUnits_twRe_firstQuadrant h.le,
    signedUnits_twIm_firstQuadrant h.le, signedUnits_twRe_firstQuadrant h, signedUnits_twIm_firstQuadrant h, mirror]
  exact (quarterUnits_turned t (List.mem_range.mpr h)).scale _

/-- The second quadrant is the first a quarter turn on. -/
theorem twiddleTurned {t : Nat} (h : t + 1 < 2048) : TwiddleTurned t := by
  rcases Nat.lt_or_ge t 1024 with hlt | hge
  · exact twiddleTurned_firstQuadrant hlt
  · obtain ⟨u, rfl⟩ := Nat.exists_eq_add_of_le hge
    rw [TwiddleTurned, Nat.add_assoc, twRe_quarter (by omega), twRe_quarter (by omega),
      signedUnits_twIm_quarter (by omega), signedUnits_twIm_quarter (by omega)]
    exact (twiddleTurned_firstQuadrant (by omega)).quarter

/-- Settles O52: the steps of the hardware's ROM are checked on its table, and an entry depends only on its angle. -/
theorem twiddleRomTurnsStepByStep : Obligations.TwiddleRomTurnsStepByStep := by
  refine ⟨fun t ht => (twiddleTurned ht).imp abs_mul_le_sq abs_mul_le_sq, fun p q t k _ hq hk => ?_⟩
  have angle := twAngle_longer hq t k hk
  exact ⟨congrArg twReAt angle, congrArg twImAt angle⟩

end Sys2Proof.Machine
end

section
/-! PROOF. RDCOEF and RDSTATE (43_access.md R183, R184) over the indices of 10_state.md R50. -/

namespace Sys2Proof.Machine

/-! ## RDCOEF -/

theorem valid_coef_iff (idx : Nat) (s : State) :
    Space.valid .coef idx s = true ↔ idx / 8 < s.par.smax ∧ idx % 8 ≤ 4 := by
  rw [Space.valid, coefStage, coefSel, Bool.and_eq_true, decide_eq_true_iff, decide_eq_true_iff]

theorem memRead_coef_gain (k : Nat) (s : State) : memRead .coef (8 * k) s = s.design.gainAt k := by
  rw [memRead, coefStage, coefSel, if_pos (by omega), Nat.mul_div_cancel_left k (by decide)]

theorem memRead_coef_coefficient (k : Nat) {j : Nat} (hj : j < 4) (s : State) :
    memRead .coef (8 * k + 1 + j) s = s.design.coefAt k j := by
  have stage : (8 * k + 1 + j) / 8 = k := by omega
  have selector : (8 * k + 1 + j) % 8 = j + 1 := by omega
  rw [memRead, coefStage, coefSel, stage, selector, if_neg (Nat.succ_ne_zero j), Nat.add_sub_cancel]

theorem exec_rdcoef_of_valid {idx : Nat} {s : State} (hk : idx / 8 < s.par.smax) (hsel : idx % 8 ≤ 4) :
    exec (.rdcoef idx) s = .next (respondOk (memRead .coef idx s) s) :=
  congrArg Host.Outcome.next (readSpace_of_valid ((valid_coef_iff idx s).mpr ⟨hk, hsel⟩))

theorem exec_rdcoef_of_not_valid {idx : Nat} {s : State} (h : s.par.smax ≤ idx / 8 ∨ 4 < idx % 8) :
    exec (.rdcoef idx) s = .next (raiseErr .range s) :=
  congrArg Host.Outcome.next (readSpace_of_not_valid (by rw [valid_coef_iff]; omega))

/-- Settles O47: the index's quotient by 8 is the stage and its remainder selects the gain, a coefficient or nothing. -/
theorem rdcoefReadsTheCoefficients : Obligations.RdcoefReadsTheCoefficients := by
  refine fun s => ⟨fun k hk => ?_, fun k j hk hj => ?_, fun idx h => exec_rdcoef_of_not_valid h⟩
  · rw [exec_rdcoef_of_valid (by omega) (by omega), memRead_coef_gain, respondOk]
  · rw [exec_rdcoef_of_valid (by omega) (by omega), memRead_coef_coefficient k hj, respondOk]

/-! ## RDSTATE -/

theorem memRead_state (k : Nat) {j : Nat} (hj : j < 4) (s : State) :
    memRead .state (4 * k + j) s = tapAt s.delayLine k j := by
  have stage : (4 * k + j) / 4 = k := by omega
  have tap : (4 * k + j) % 4 = j := by omega
  rw [memRead, stage, tap]

theorem exec_rdstate_of_lt {idx : Nat} {s : State} (h : idx < 4 * s.par.smax) :
    exec (.rdstate idx) s = .next (respondOk (memRead .state idx s) s) :=
  congrArg Host.Outcome.next (readSpace_of_valid (decide_eq_true h))

theorem exec_rdstate_of_ge {idx : Nat} {s : State} (h : 4 * s.par.smax ≤ idx) :
    exec (.rdstate idx) s = .next (raiseErr .range s) :=
  congrArg Host.Outcome.next (readSpace_of_not_valid fun hv => Nat.not_lt_of_le h (of_decide_eq_true hv))

/-- Settles O48: below `4*SMAX` the quotient by 4 is the stage and the remainder the tap. -/
theorem rdstateReadsTheDelayLines : Obligations.RdstateReadsTheDelayLines := by
  refine fun s => ⟨fun k j hk hj => ?_, fun idx h => exec_rdstate_of_ge h⟩
  rw [exec_rdstate_of_lt (by omega), memRead_state k hj, respondOk]

end Sys2Proof.Machine
end

section
/-! PROOF. The decoder and the encoder (30_encoding.md R74 to R79): a word is its two fields, and the decoder's answer is
said once, by the row of the opcode map that has the word's opcode. -/

namespace Sys2Proof

/-! ## The fields of a word (R74) -/

theorem toNat_commandWord {opc imm : Nat} (ho : opc < 2 ^ 8) (hi : imm < 2 ^ 24) :
    (commandWord opc imm).toNat = opc * 2 ^ 24 + imm := by
  rw [commandWord, BitVec.toNat_ofNat]
  exact Nat.mod_eq_of_lt (by omega)

theorem opcField_commandWord {opc imm : Nat} (ho : opc < 2 ^ 8) (hi : imm < 2 ^ 24) :
    opcField (commandWord opc imm) = opc := by
  rw [opcField, toNat_commandWord ho hi]
  omega

theorem immField_commandWord {opc imm : Nat} (ho : opc < 2 ^ 8) (hi : imm < 2 ^ 24) :
    immField (commandWord opc imm) = imm := by
  rw [immField, toNat_commandWord ho hi]
  omega

/-- A word is its opcode and its immediate. -/
theorem commandWord_fields (w : BitVec 32) : commandWord (opcField w) (immField w) = w := by
  rw [commandWord, opcField, immField, Nat.div_add_mod', BitVec.ofNat_toNat, BitVec.setWidth_eq]

theorem immField_lt (w : BitVec 32) : immField w < 2 ^ 24 := Nat.mod_lt _ (Nat.two_pow_pos 24)

/-! ## Decoding what the encoder gives -/

/-- A field in the low `k` bits of `IMM`, with nothing above it. -/
theorem unlessReserved_low {n k : Nat} (h : n < 2 ^ k) (i : Nat → Instr) :
    unlessReserved (n / 2 ^ k == 0) (i (n % 2 ^ k)) = .ok (i n) := by
  rw [Nat.div_eq_of_lt h, Nat.mod_eq_of_lt h]
  rfl

/-- Settles O2: the fields of the encoder's word are the opcode and the immediate it was made of. -/
theorem decodeOfEncode : Obligations.DecodeOfEncode := by
  intro i h
  cases i with
  | setlp en | sethp en => cases en <;> rfl
  | setord n | freqresp n | fftrun n | rdcsr n =>
    have hn := of_decide_eq_true h
    simp (disch := omega) only [encode, decode, opcField_commandWord, immField_commandWord]
    exact unlessReserved_low hn _
  | analyze l cs =>
    have all : ∀ l, l < 2 ^ 5 → ∀ cs, decode (encode (.analyze l cs)) = .ok (.analyze l cs) := by decide
    exact all l (of_decide_eq_true h) cs
  | rdcoef n | rdstate n | rdresp n | rdir n | rdre n | rdim n | rdtw n | wrir n =>
    have hn := of_decide_eq_true h
    simp (disch := omega) only [encode, decode, opcField_commandWord, immField_commandWord]
  | setflc | setfhc | setfs | apply =>
    simp (disch := decide) only [encode, decode, opcField_commandWord, immField_commandWord]
    rfl
  | nop | reset | getdelay | getord | clrerr => rfl

/-! ## The opcode map (R76) -/

theorem toNat_and_high_bits (w : BitVec 32) (k : Nat) :
    (w &&& BitVec.allOnes 32 <<< k).toNat = w.toNat / 2 ^ k * 2 ^ k := by
  have hlt : w.toNat / 2 ^ k * 2 ^ k < 2 ^ 32 := (Nat.div_mul_le_self _ _).trans_lt w.isLt
  rw [Laws.and_high_bits w (BitVec.ofNat 32 (w.toNat / 2 ^ k * 2 ^ k)) k (Nat.mod_eq_of_lt hlt).symm,
    BitVec.toNat_ofNat, Nat.mod_eq_of_lt hlt]

theorem and_opcode_bits_eq_iff (w m : BitVec 32) :
    w &&& 0xFF000000 = m &&& 0xFF000000 ↔ opcField w = opcField m := by
  have hmask : (0xFF000000 : BitVec 32) = BitVec.allOnes 32 <<< 24 := by decide
  rw [← BitVec.toNat_inj, hmask, toNat_and_high_bits, toNat_and_high_bits, Nat.mul_left_inj (by decide), opcField,
    opcField]

/-- The opcode column of the map. -/
def opcodes : List Nat := opcodeMap.map fun r => opcField r.matchBits

theorem opcodes_eq : opcodes = [0x00, 0x01, 0x02, 0x03, 0x04, 0x05, 0x06, 0x10, 0x11, 0x20, 0x21, 0x22, 0x23, 0x30, 0x31,
    0x32, 0x33, 0x34, 0x35, 0x36, 0x37, 0x38, 0x39, 0x3F] := by decide

theorem knownOpcode_iff (w : BitVec 32) : knownOpcode w = true ↔ opcField w ∈ opcodes := by
  simp only [knownOpcode, opcodes, List.any_eq_true, List.mem_map, beq_iff_eq, and_opcode_bits_eq_iff,
    eq_comm (a := opcField w)]

theorem wellFormedWord_iff (w : BitVec 32) :
    wellFormedWord w = true ↔ ∃ r ∈ opcodeMap, r.accepts w = true := by
  rw [wellFormedWord, List.any_eq_true]

theorem row_mem_opcodeMap (i : Instr) : i.row ∈ opcodeMap := by
  cases i <;> simp [opcodeMap, Instr.row]

/-- Every row fixes the opcode bits, so the words it accepts have its opcode. -/
theorem opcField_of_accepts {r : OpcodeRow} (hr : r ∈ opcodeMap) {w : BitVec 32} (h : r.accepts w = true) :
    opcField w = opcField r.matchBits := by
  have fixed : ∀ r ∈ opcodeMap, r.mask &&& 0xFF000000 = 0xFF000000 := by decide
  have hw : w &&& r.mask = r.matchBits := eq_of_beq h
  rw [← and_opcode_bits_eq_iff, ← hw, BitVec.and_assoc, fixed r hr]

/-- No two rows share an opcode. -/
theorem row_eq_of_opcField_eq {r r' : OpcodeRow} (hr : r ∈ opcodeMap) (hr' : r' ∈ opcodeMap)
    (h : opcField r.matchBits = opcField r'.matchBits) : r = r' := by
  have distinct : opcodes.Nodup := by rw [opcodes_eq]; decide
  exact List.inj_on_of_nodup_map distinct hr hr' h

/-! ## The words a row accepts, by their fields -/

theorem div_mul_eq_iff_div_mod {n a b c : Nat} (hb : 0 < b) (hc : 0 < c) :
    n / b * b = a * (b * c) ↔ n / (b * c) = a ∧ n % (b * c) / b = 0 := by
  rw [← Nat.div_div_eq_div_mul, Nat.mod_mul_right_div_self, Nat.mul_comm b c, ← Nat.mul_assoc,
    Nat.mul_left_inj hb.ne']
  constructor
  · intro h
    rw [h]
    exact ⟨Nat.mul_div_cancel _ hc, Nat.mul_mod_left _ _⟩
  · rintro ⟨rfl, h⟩
    exact (Nat.div_mul_cancel (Nat.dvd_of_mod_eq_zero h)).symm

theorem and_high_bits_eq_iff {opc k : Nat} (hk : k ≤ 24) {m : BitVec 32} (hm : m.toNat = opc * 2 ^ 24) (w : BitVec 32) :
    w &&& BitVec.allOnes 32 <<< k = m ↔ opcField w = opc ∧ immField w / 2 ^ k = 0 := by
  have hsplit : 2 ^ 24 = 2 ^ k * 2 ^ (24 - k) := by rw [← pow_add, Nat.add_sub_cancel' hk]
  rw [← BitVec.toNat_inj, toNat_and_high_bits, hm, opcField, immField, hsplit,
    div_mul_eq_iff_div_mod (Nat.two_pow_pos _) (Nat.two_pow_pos _)]

/-- A row whose free bits are the low `k` bits of `IMM`. -/
theorem accepts_low_iff {opc k : Nat} (hk : k ≤ 24) {r : OpcodeRow} (hmask : r.mask = BitVec.allOnes 32 <<< k)
    (hm : r.matchBits.toNat = opc * 2 ^ 24) (w : BitVec 32) :
    r.accepts w = true ↔ opcField w = opc ∧ immField w / 2 ^ k = 0 := by
  rw [OpcodeRow.accepts, beq_iff_eq, hmask, and_high_bits_eq_iff hk hm]

/-- `IMM[7:5]` of a word, under the mask. -/
theorem and_imm_7_5_eq_zero_iff (w : BitVec 32) : w &&& 0xE0 = 0 ↔ immField w / 2 ^ 5 % 2 ^ 3 = 0 := by
  have hmask : (0xE0 : BitVec 32) = BitVec.allOnes 32 <<< 5 &&& 0xFF := by decide
  have hbyte : ∀ n, n &&& 0xFF = n % 2 ^ 8 := fun n => Nat.and_two_pow_sub_one_eq_mod n 8
  rw [← BitVec.toNat_inj, hmask, ← BitVec.and_assoc, BitVec.toNat_and, toNat_and_high_bits, immField]
  change _ &&& 0xFF = 0 ↔ _
  rw [hbyte]
  omega

/-- The mask of ANALYZE fixes the bits from 9 on and `IMM[7:5]`. -/
theorem and_analyze_mask_eq_iff (w : BitVec 32) :
    w &&& 0xFFFFFEE0 = 0x20000000 ↔ w &&& BitVec.allOnes 32 <<< 9 = 0x20000000 ∧ w &&& 0xE0 = 0 := by
  constructor
  · intro h
    have under (a : BitVec 32) : w &&& (0xFFFFFEE0 &&& a) = 0x20000000 &&& a := by rw [← BitVec.and_assoc, h]
    exact ⟨under (BitVec.allOnes 32 <<< 9), under 0xE0⟩
  · rintro ⟨high, low⟩
    have hmask : (0xFFFFFEE0 : BitVec 32) = BitVec.allOnes 32 <<< 9 ||| 0xE0 := by decide
    rw [hmask, BitVec.and_or_distrib_left, high, low]
    rfl

/-- The row of ANALYZE, whose free bits are `L` and `CS` (R140). -/
theorem accepts_analyze_iff (l : Nat) (cs : Bool) (w : BitVec 32) :
    (Instr.analyze l cs).row.accepts w = true ↔ opcField w = 0x20 ∧ analyzeReservedClear (immField w) = true := by
  have high := and_high_bits_eq_iff (opc := 0x20) (k := 9) (m := 0x20000000) (by decide) (by decide) w
  rw [OpcodeRow.accepts, beq_iff_eq, Instr.row, and_analyze_mask_eq_iff, high, and_imm_7_5_eq_zero_iff,
    analyzeReservedClear, Bool.and_eq_true, beq_iff_eq, beq_iff_eq]
  tauto

/-! ## What the decoder answers -/

/-- The instruction `i` is what the map has for the opcode of `w`: it is well formed, and where its row accepts `w`, `w`
is its very word. -/
structure Reads (w : BitVec 32) (i : Instr) : Prop where
  opcode : opcField w = opcField i.row.matchBits
  wellFormed : i.wellFormed = true
  word : i.row.accepts w = true → (encode i).word = w

/-- The decoder's answers: no row has the word's opcode, or one has, and the reserved bits decide. -/
def Answers (w : BitVec 32) (r : Except DecodeError Instr) : Prop :=
  (knownOpcode w = false ∧ r = .error .illegalOpcode) ∨
    ∃ i, Reads w i ∧ r = unlessReserved (i.row.accepts w) i

/-- One row of the map: the decoder's test of the reserved bits is the row's, and it reads the immediate `imm`. -/
theorem answers_of_row {w : BitVec 32} {i : Instr} {opc imm : Nat} {clear : Bool} (hopc : opcField w = opc)
    (hm : i.row.matchBits.toNat = opc * 2 ^ 24) (hwf : i.wellFormed = true)
    (hacc : i.row.accepts w = true ↔ opcField w = opc ∧ clear = true)
    (himm : clear = true → immField w = imm) (henc : (encode i).word = commandWord opc imm) :
    Answers w (unlessReserved clear i) := by
  have test : i.row.accepts w = clear := Bool.eq_iff_iff.mpr (hacc.trans (and_iff_right hopc))
  have hrow : opcField i.row.matchBits = opc := by rw [opcField, hm, Nat.mul_div_cancel _ (Nat.two_pow_pos 24)]
  refine .inr ⟨i, ⟨hopc.trans hrow.symm, hwf, fun h => ?_⟩, by rw [test]⟩
  rw [henc, ← himm (test.symm.trans h), ← hopc, commandWord_fields]

/-- A row without operand fields: all of `IMM` is reserved. -/
theorem answers_fixed {w : BitVec 32} {i : Instr} {opc : Nat} (hopc : opcField w = opc)
    (hmask : i.row.mask = 0xFFFFFFFF) (hm : i.row.matchBits.toNat = opc * 2 ^ 24) (hwf : i.wellFormed = true)
    (henc : (encode i).word = commandWord opc 0) : Answers w (unlessReserved (immField w == 0) i) := by
  have hacc := accepts_low_iff (k := 0) (Nat.zero_le _) hmask hm w
  rw [pow_zero, Nat.div_one] at hacc
  exact answers_of_row hopc hm hwf (by rw [hacc, beq_iff_eq]) eq_of_beq henc

/-- A row whose operand is the low `k` bits of `IMM`. -/
theorem answers_low {w : BitVec 32} {i : Instr} {opc k : Nat} (hk : k ≤ 24) (hopc : opcField w = opc)
    (hmask : i.row.mask = BitVec.allOnes 32 <<< k) (hm : i.row.matchBits.toNat = opc * 2 ^ 24)
    (hwf : i.wellFormed = true) (henc : (encode i).word = commandWord opc (immField w % 2 ^ k)) :
    Answers w (unlessReserved (immField w / 2 ^ k == 0) i) := by
  have hacc := accepts_low_iff hk hmask hm w
  refine answers_of_row hopc hm hwf (by rw [hacc, beq_iff_eq]) (fun h => ?_) henc
  exact (Nat.mod_eq_of_lt (Nat.lt_of_div_eq_zero (Nat.two_pow_pos k) (eq_of_beq h))).symm

/-- A row whose operand is all of `IMM`. -/
theorem answers_index {w : BitVec 32} {i : Instr} {opc : Nat} (hopc : opcField w = opc)
    (hmask : i.row.mask = BitVec.allOnes 32 <<< 24) (hm : i.row.matchBits.toNat = opc * 2 ^ 24)
    (hwf : i.wellFormed = decide (immField w < 2 ^ 24)) (henc : (encode i).word = commandWord opc (immField w)) :
    Answers w (.ok i) := by
  have hlt := immField_lt w
  have low := answers_low (k := 24) le_rfl hopc hmask hm (hwf.trans (decide_eq_true hlt))
    (by rwa [Nat.mod_eq_of_lt hlt])
  rwa [Nat.div_eq_of_lt hlt] at low

theorem bitValue_mod_two (n : Nat) : bitValue (n % 2 == 1) = n % 2 := by
  rcases Nat.mod_two_eq_zero_or_one n with h | h <;> rw [h] <;> rfl

/-- SETLP and SETHP, whose operand is bit 0. -/
theorem answers_enable {w : BitVec 32} {i : Instr} {opc : Nat} (hopc : opcField w = opc)
    (hmask : i.row.mask = 0xFFFFFFFE) (hm : i.row.matchBits.toNat = opc * 2 ^ 24) (hwf : i.wellFormed = true)
    (henc : (encode i).word = commandWord opc (bitValue (immField w % 2 == 1))) :
    Answers w (unlessReserved (immField w / 2 == 0) i) :=
  answers_low (k := 1) (by decide) hopc hmask hm hwf (by rw [henc, bitValue_mod_two, pow_one])

theorem answers_analyze {w : BitVec 32} (hopc : opcField w = 0x20) :
    Answers w (unlessReserved (analyzeReservedClear (immField w))
      (.analyze (immField w % 2 ^ 5) (immField w / 2 ^ 8 % 2 == 1))) := by
  have hl : immField w % 2 ^ 5 < 2 ^ 5 := Nat.mod_lt _ (by decide)
  refine answers_of_row (imm := immField w / 2 ^ 8 % 2 * 2 ^ 8 + immField w % 2 ^ 5) hopc rfl (decide_eq_true hl)
    (accepts_analyze_iff _ _ w) (fun h => ?_) (by rw [encode, bitValue_mod_two])
  rw [analyzeReservedClear, Bool.and_eq_true, beq_iff_eq, beq_iff_eq] at h
  omega

/-- The decoder's answer to a word: its 25 arms are the opcode map's 24 rows and the opcodes outside it. -/
theorem decode_answers (c : Command) : Answers c.word (decode c) := by
  have low (k : Nat) : immField c.word % 2 ^ k < 2 ^ k := Nat.mod_lt _ (Nat.two_pow_pos k)
  unfold decode
  split
  case h_1 h | h_4 h | h_5 h | h_6 h | h_8 h | h_9 h | h_11 h | h_14 h | h_24 h => exact answers_fixed h rfl rfl rfl rfl
  case h_2 h | h_3 h => exact answers_enable h rfl rfl rfl rfl
  case h_7 h | h_12 h => exact answers_low (by decide) h rfl rfl (decide_eq_true (low 16)) rfl
  case h_10 h => exact answers_analyze h
  case h_13 h => exact answers_low (by decide) h rfl rfl (decide_eq_true (low 5)) rfl
  case h_15 h => exact answers_low (by decide) h rfl rfl (decide_eq_true (low 8)) rfl
  case h_16 h | h_17 h | h_18 h | h_19 h | h_20 h | h_21 h | h_22 h | h_23 h => exact answers_index h rfl rfl rfl rfl
  case h_25 =>
    refine .inl ⟨?_, rfl⟩
    rw [← Bool.not_eq_true, knownOpcode_iff, opcodes_eq]
    simp_all

/-! ## The statements about the decoder -/

/-- A word that decodes was read as the instruction it decodes to, and that one's row accepts it. -/
theorem reads_of_decode_ok {c : Command} {i : Instr} (h : decode c = .ok i) :
    Reads c.word i ∧ i.row.accepts c.word = true := by
  rcases decode_answers c with ⟨-, herr⟩ | ⟨j, reads, hans⟩
  · cases h.symm.trans herr
  · rw [h, unlessReserved] at hans
    split at hans
    case isTrue hacc =>
      obtain rfl := Except.ok.inj hans
      exact ⟨reads, hacc⟩
    case isFalse => cases hans

/-- Settles O3: the word is the encoder's own, so O2 decodes it, with the operand the encoder gives it. -/
theorem encodeOfDecode : Obligations.EncodeOfDecode := by
  intro c i h
  obtain ⟨reads, hacc⟩ := reads_of_decode_ok h
  have hword := reads.word hacc
  exact ⟨reads.wellFormed, hword, by rw [← hword]; exact decodeOfEncode i reads.wellFormed⟩

theorem knownOpcode_of_reads {w : BitVec 32} {i : Instr} (h : Reads w i) : knownOpcode w = true :=
  (knownOpcode_iff w).mpr (List.mem_map.mpr ⟨i.row, row_mem_opcodeMap i, h.opcode.symm⟩)

theorem knownOpcode_of_wellFormedWord {w : BitVec 32} (h : wellFormedWord w = true) : knownOpcode w = true := by
  obtain ⟨r, hr, hacc⟩ := (wellFormedWord_iff w).mp h
  exact (knownOpcode_iff w).mpr (List.mem_map.mpr ⟨r, hr, (opcField_of_accepts hr hacc).symm⟩)

/-- Some row accepts a word exactly when the only row with its opcode does. -/
theorem wellFormedWord_eq_accepts {w : BitVec 32} {i : Instr} (h : Reads w i) : wellFormedWord w = i.row.accepts w := by
  refine Bool.eq_iff_iff.mpr ((wellFormedWord_iff w).trans ⟨?_, fun hacc => ⟨_, row_mem_opcodeMap i, hacc⟩⟩)
  rintro ⟨r, hr, hacc⟩
  have same := (opcField_of_accepts hr hacc).symm.trans h.opcode
  rwa [← row_eq_of_opcField_eq hr (row_mem_opcodeMap i) same]

/-- The decoder's answer, by the opcode map's two tests of the word. -/
theorem decode_cases (c : Command) :
    (knownOpcode c.word = false ∧ wellFormedWord c.word = false ∧ decode c = .error .illegalOpcode) ∨
    (knownOpcode c.word = true ∧ wellFormedWord c.word = false ∧ decode c = .error .reservedBit) ∨
    (knownOpcode c.word = true ∧ wellFormedWord c.word = true ∧ ∃ i, decode c = .ok i) := by
  rcases decode_answers c with ⟨hknown, hans⟩ | ⟨i, reads, hans⟩
  · refine .inl ⟨hknown, ?_, hans⟩
    rw [← Bool.not_eq_true] at hknown ⊢
    exact fun hwf => hknown (knownOpcode_of_wellFormedWord hwf)
  · have hknown := knownOpcode_of_reads reads
    rw [← wellFormedWord_eq_accepts reads] at hans
    cases hwf : wellFormedWord c.word with
    | false => exact .inr (.inl ⟨hknown, rfl, by rw [hans, hwf]; rfl⟩)
    | true => exact .inr (.inr ⟨hknown, rfl, i, by rw [hans, hwf]; rfl⟩)

/-- Settles O4: in each of the three cases of a word both sides of every clause are known. -/
theorem decoderMatchesOpcodeMap : Obligations.DecoderMatchesOpcodeMap := by
  intro c
  refine ⟨fun i h => (reads_of_decode_ok h).2, ?_⟩
  rcases decode_cases c with ⟨hknown, hwf, hans⟩ | ⟨hknown, hwf, hans⟩ | ⟨hknown, hwf, i, hans⟩ <;>
    simp [hknown, hwf, hans]

/-- Settles O1: each word is the encoder's for the well-formed instruction it stands for. -/
theorem decodeSampleWords : Obligations.DecodeSampleWords :=
  ⟨decodeOfEncode .nop rfl, decodeOfEncode (.setlp true) rfl, decodeOfEncode (.setflc _) rfl,
    decodeOfEncode (.setord 4) rfl, decodeOfEncode (.apply _) rfl, decodeOfEncode (.analyze 8 false) rfl,
    decodeOfEncode (.analyze 8 true) rfl, decodeOfEncode (.freqresp 100) rfl, decodeOfEncode (.rdcoef 10) rfl,
    decodeOfEncode (.wrir 3 _) rfl⟩

/-- A command that ignores `D` decodes the same with any other (R79). -/
theorem decode_operand_irrelevant {w : BitVec 32} (h : opcField w ∉ [0x03, 0x04, 0x05, 0x10, 0x39]) (d d' : Word) :
    decode ⟨w, d⟩ = decode ⟨w, d'⟩ := by
  simp only [decode]
  split
  case h_4 hopc | h_5 hopc | h_6 hopc | h_8 hopc | h_23 hopc => simp [hopc] at h
  all_goals rfl

end Sys2Proof
end

section
/-! PROOF. The step over a command, over a word that is none and over the host's other moves (30_encoding.md R71 to R73,
R77 to R79), and that every command answers once. -/

namespace Sys2Proof.Machine

theorem step_of_decode_ok {s : State} {c : Command} {rest : List HostEvent} {i : Instr}
    (hs : s.inbox = .command c :: rest) (hd : decode c = .ok i) :
    step s = exec i (takeResponse { s with inbox := rest }) := by
  simp [step, nextEvent_cons s _ rest hs, hd]

theorem step_of_decode_error {s : State} {c : Command} {rest : List HostEvent} {e : DecodeError}
    (hs : s.inbox = .command c :: rest) (hd : decode c = .error e) :
    step s = .next (raiseErr (decodeErrKind e) (takeResponse { s with inbox := rest })) := by
  simp [step, nextEvent_cons s _ rest hs, hd]

/-- Settles O5: taking the response leaves all but the port. -/
theorem stepRunsDecodedInstruction : Obligations.StepRunsDecodedInstruction :=
  fun _ _ _ _ hs hd => step_of_decode_ok hs hd

/-- Settles O6: an opcode of no row decodes to an illegal opcode, which ends with the error record. -/
theorem unknownOpcodeAnswersErrOpc : Obligations.UnknownOpcodeAnswersErrOpc := by
  intro s c rest hs hknown
  obtain ⟨-, -, illegal, -⟩ := decoderMatchesOpcodeMap c
  exact step_of_decode_error hs (illegal.mpr hknown)

/-- Settles O7: a word of a known opcode and no row decodes to a reserved bit, which ends with the error record. -/
theorem reservedBitAnswersErrRsv : Obligations.ReservedBitAnswersErrRsv := by
  intro s c rest hs hknown hwf
  obtain ⟨-, -, -, reserved⟩ := decoderMatchesOpcodeMap c
  exact step_of_decode_error hs (reserved.mpr ⟨hknown, hwf⟩)

/-- Settles O8: the operand reaches a step through the decoder alone. -/
theorem ignoredOperandHasNoEffect : Obligations.IgnoredOperandHasNoEffect := by
  intro s w d d' rest h
  simp only [step, nextEvent, decode_operand_irrelevant h d d']

/-- Settles O9: each move's effect is the step's own case of it. -/
theorem hostMovesBesideCommands : Obligations.HostMovesBesideCommands := by
  refine fun s rest => ⟨fun hs => ?_, fun hs => ?_, fun hs => ?_⟩
  · simp [step, nextEvent_nil s hs]
  · simp [step, nextEvent_cons s _ rest hs, takeResponse]
  · simp [step, nextEvent_cons s _ rest hs, hardReset]

/-- No effect of a command takes a move of the host. -/
theorem Effect.inbox {i : Instr} {s u : State} (he : Effect i s u) : u.inbox = s.inbox := by
  cases he with
  | analyzed l cs _ _ => exact (analyzeCore_frame l cs s).inbox
  | _ => rfl

/-- Settles O11: a command ends with an error record, whose result word is 0, or answers over an effect. -/
theorem everyCommandAnswersOnce : Obligations.EveryCommandAnswersOnce := by
  intro i s
  obtain ⟨t, ht, ⟨e, rfl⟩ | ⟨r, u, rfl, effect⟩⟩ := exec_cases i s
  · exact ⟨_, ⟨.err e, 0⟩, ht, rfl, fun _ => rfl, rfl, rfl⟩
  · exact ⟨_, ⟨.ok, r⟩, ht, rfl, fun hne => absurd rfl hne, rfl, effect.inbox⟩

end Sys2Proof.Machine
end

section
/-! PROOF. The setters store and redesign (40_config_design.md R90 to R96, R106), and the design in force is always one a
redesign of the six registers gives (R97, R108). -/

namespace Sys2Proof.Machine

/-- A setter's outcome (R90), with the test it makes of its register read as a proposition. -/
theorem next_setter {same : Bool} {P : Prop} [Decidable P] (h : same = true ↔ P) (c : FilterConfig) (s : State) :
    (.next (respondOk 0 (setter same c s)) : Host.Outcome State Fault Refusal) =
      .next (if P then respondOk 0 s else respondOk 0 (redesign { s with cfg := c })) := by
  rw [setter, if_congr h rfl rfl, apply_ite (respondOk 0)]

/-- A 16-bit register holds the value a 16-bit operand stores exactly when it reads as that operand (R96). -/
theorem order_beq_ofNat_iff (v : BitVec 16) {n : Nat} (hn : n < 2 ^ 16) :
    (v == BitVec.ofNat 16 n) = true ↔ v.toNat = n := by
  rw [beq_iff_eq, ← BitVec.toNat_inj, BitVec.toNat_ofNat, Nat.mod_eq_of_lt hn]

/-- Settles O18: the six setters are one, each with the test of its own register. -/
theorem settersStoreAndRedesign : Obligations.SettersStoreAndRedesign :=
  fun s => ⟨fun _ => next_setter beq_iff_eq _ s, fun _ => next_setter beq_iff_eq _ s, fun _ => next_setter beq_iff_eq _ s,
    fun _ => next_setter beq_iff_eq _ s, fun _ => next_setter beq_iff_eq _ s,
    fun _ hn => next_setter (order_beq_ofNat_iff _ hn) _ s⟩

/-- Whether the design is current is seen from the parameters, the configuration and the design alone. -/
theorem DesignCurrent.congr {s t : State} (h : DesignCurrent s) (hpar : t.par = s.par) (hcfg : t.cfg = s.cfg)
    (hdesign : t.design = s.design) : DesignCurrent t := by
  rwa [DesignCurrent, hpar, hcfg, hdesign]

theorem designCurrent_redesign (s : State) : DesignCurrent (redesign s) := ⟨s.draws, rfl⟩

/-- With nothing enabled the design is Bypass, under any parameters (R38, R98). -/
theorem designCurrent_hardReset (s : State) : DesignCurrent (hardReset s) :=
  ⟨0, designOf_of_bypass s.par _ 0 fun _ => rfl⟩

/-- An effect redesigns, or leaves the configuration and the design alone (R23). -/
theorem Effect.keeps_designCurrent {i : Instr} {s u : State} (he : Effect i s u) (h : DesignCurrent s) :
    DesignCurrent u := by
  cases he with
  | redesigned c _ => exact designCurrent_redesign _
  | analyzed l cs _ _ =>
    have frame := analyzeCore_frame l cs s
    exact h.congr frame.par frame.cfg frame.design
  | _ => exact h

theorem exec_keeps_designCurrent {i : Instr} {s t : State} (h : DesignCurrent s) (ht : exec i s = .next t) :
    DesignCurrent t := by
  rcases ends_of_exec ht with ⟨e, rfl⟩ | ⟨r, u, rfl, effect⟩
  · exact h.congr rfl rfl rfl
  · exact (effect.keeps_designCurrent h).congr rfl rfl rfl

/-- Settles O17: a step is one of the host's moves; a command or a reset leaves a current design, and the others do not
touch it. -/
theorem stepKeepsDesignCurrent : Obligations.StepKeepsDesignCurrent := by
  intro s t h ht
  rcases step_cases s with ⟨-, hs⟩ | ⟨rest, ⟨-, hs⟩ | ⟨-, hs⟩ | ⟨c, -, ⟨e, -, hs⟩ | ⟨i, -, hs⟩⟩⟩
  · obtain rfl := Host.Outcome.next.inj (hs.symm.trans ht)
    exact h
  · obtain rfl := Host.Outcome.next.inj (hs.symm.trans ht)
    exact designCurrent_hardReset _
  · obtain rfl := Host.Outcome.next.inj (hs.symm.trans ht)
    exact h.congr rfl rfl rfl
  · obtain rfl := Host.Outcome.next.inj (hs.symm.trans ht)
    exact h.congr rfl rfl rfl
  · have taken : DesignCurrent (takeResponse { s with inbox := rest }) := h.congr rfl rfl rfl
    exact exec_keeps_designCurrent taken (hs.symm.trans ht)

end Sys2Proof.Machine
end

section
/-! PROOF. The mode, the counts and the unassigned words of a design (40_config_design.md R98 to R101, R105). -/

namespace Sys2Proof.Machine

/-! ## The mode the enables ask for (R98) -/

/-- R98, a case for each setting of the two enables; so for the other modes. -/
theorem modeOf_eq_bandPass_iff (c : FilterConfig) (half : Word) :
    modeOf c half = .bandPass ↔ c.lpen = true ∧ c.hpen = true ∧ flt f0 c.fhc = true ∧ flt c.fhc c.flc = true ∧
      flt c.flc half = true := by
  rw [modeOf]
  cases c.lpen <;> cases c.hpen <;> simp [ite_eq_iff, and_assoc]

theorem modeOf_eq_lowPass_iff (c : FilterConfig) (half : Word) :
    modeOf c half = .lowPass ↔ c.lpen = true ∧ c.hpen = false ∧ flt f0 c.flc = true ∧ fle c.flc half = true := by
  rw [modeOf]
  cases c.lpen <;> cases c.hpen <;> simp [ite_eq_iff]

theorem modeOf_eq_highPass_iff (c : FilterConfig) (half : Word) :
    modeOf c half = .highPass ↔ c.lpen = false ∧ c.hpen = true ∧ flt f0 c.fhc = true ∧ fle c.fhc half = true := by
  rw [modeOf]
  cases c.lpen <;> cases c.hpen <;> simp [ite_eq_iff]

/-! ## The mode and the counts of a design (R99 to R101) -/

/-- A mode other than Bypass results when it is asked for at an order from 1 on and its stages fit (R99, R100). -/
theorem designOf_mode_eq_iff (p : Config) (c : FilterConfig) (n : Nat) {m : Mode} (hm : m ≠ .bypass) :
    (runDraw (designOf p c) n).1.mode = m ↔
      1 ≤ c.order.toNat ∧ modeOf c (runDraw (fmul c.fs fHalf) n).1 = m ∧ stagesOf m c.order.toNat ≤ p.smax := by
  rw [designOf_mode, runDraw_deriveMode_fst, withCapacity]
  split
  case isTrue h => exact ⟨fun h => absurd h.symm hm, fun ⟨h1, _⟩ => by omega⟩
  case isFalse h1 =>
    split
    case isTrue h2 => exact ⟨fun h => absurd h.symm hm, fun ⟨_, h, h3⟩ => by rw [h] at h2; omega⟩
    case isFalse h2 => exact ⟨fun h => ⟨by omega, h, h ▸ Nat.le_of_not_lt h2⟩, fun ⟨_, h, _⟩ => h⟩

/-- The stage count is the one R99 gives the mode that results. -/
theorem designOf_numStages_eq (p : Config) (c : FilterConfig) (n : Nat) (hp : p.smax ≤ 255) :
    (runDraw (designOf p c) n).1.numStages.toNat = stagesOf (runDraw (designOf p c) n).1.mode c.order.toNat := by
  rw [designOf_numStages p c n hp, designOf_mode]
  rcases deriveMode_cases p c n with h | ⟨-, -, -, h⟩ <;> rw [h]
  rfl

/-- Settles O19: each mode's condition is that of the enables with the order and capacity tests about it, and both counts
are functions of the mode. -/
theorem modeDerivation : Obligations.ModeDerivation := by
  intro p c n hp half d order
  have stages : d.numStages.toNat = stagesOf d.mode order := designOf_numStages_eq p c n (smax_le_of_legal hp)
  have coefs : d.numCoef = numCoefOf d.mode := by rw [designOf_numCoef, designOf_mode]
  rw [stages, coefs]
  refine ⟨?_, ?_, ?_, fun h => ?_, ?_, fun h => ?_⟩
  · have h := designOf_mode_eq_iff p c n (m := .bandPass) (by decide)
    simp only [modeOf_eq_bandPass_iff, and_assoc] at h
    exact h
  · have h := designOf_mode_eq_iff p c n (m := .lowPass) (by decide)
    simp only [modeOf_eq_lowPass_iff, and_assoc] at h
    exact h
  · have h := designOf_mode_eq_iff p c n (m := .highPass) (by decide)
    simp only [modeOf_eq_highPass_iff, and_assoc] at h
    exact h
  · rw [h]; exact ⟨rfl, rfl⟩
  · rintro (h | h) <;> rw [h] <;> exact ⟨rfl, rfl⟩
  · rw [h]; exact ⟨rfl, rfl⟩

/-- Settles O21: the files of a design are empty from its stages on, and its stages assign no further coefficient. -/
theorem unassignedCoefficientsAreZero : Obligations.UnassignedCoefficientsAreZero := by
  intro p c n hp d
  have files := designOf_files p c n (smax_le_of_legal hp)
  exact ⟨fun k hk => WordMem.read_of_below _ _ k files.gain_ok.2 hk, files.coef_zero⟩

end Sys2Proof.Machine
end

section
/-! PROOF. The words of every stage of a design are results of the operations 40_config_design.md R102 to R104 write: a
result of a computation comes of results of its parts, and the designer's loops keep each stage's own words. -/

namespace Sys2Proof.Machine

/-! ## Results of a computation taken apart (00_scope.md R13) -/

theorem yields_pure_iff {α : Type} (a w : α) : Yields (pure a) w ↔ w = a :=
  ⟨fun ⟨_, h⟩ => h.symm, fun h => ⟨0, h.symm⟩⟩

theorem Yields.bind {α β : Type} {x : Draw α} {f : α → Draw β} {w : β} (h : Yields (x >>= f) w) :
    ∃ a, Yields x a ∧ Yields (f a) w := by
  obtain ⟨n, h⟩ := h
  exact ⟨_, ⟨n, rfl⟩, _, h⟩

/-- A choice of the first part, over one continuation. -/
theorem Yields.ite_bind {α β : Type} {P : Prop} [Decidable P] {x y : Draw α} {f : α → Draw β} {w : β}
    (h : Yields (if P then x >>= f else y >>= f) w) : ∃ a, Yields (if P then x else y) a ∧ Yields (f a) w := by
  rw [← apply_ite (· >>= f)] at h
  exact h.bind

/-! ## The parts both generators share (R102 to R104) -/

theorem isPoleSine_of_yields {k stages : Nat} {r : Word} (h : Yields (poleSine k stages) r) :
    IsPoleSine k stages r := by
  obtain ⟨p, hp, h⟩ := h.bind
  obtain ⟨q, hq, hr⟩ := h.bind
  exact ⟨p, q, hp, hq, hr⟩

theorem isDenominator_of_yields {x2 tx r s : Word} (h : Yields (stageDenominator x2 tx r) s) :
    IsDenominator x2 tx r s := by
  obtain ⟨t, ht, h⟩ := h.bind
  obtain ⟨u, hu, hs⟩ := h.bind
  exact ⟨t, u, ht, hu, hs⟩

theorem isLastCoef_of_yields {x2 tx r s c : Word} (h : Yields (stageLastCoef x2 tx r s) c) :
    IsLastCoef x2 tx r s c := by
  obtain ⟨t, ht, h⟩ := h.bind
  obtain ⟨u, hu, h⟩ := h.bind
  obtain ⟨v, hv, h⟩ := h.bind
  obtain ⟨w, hw, h⟩ := h.bind
  exact ⟨t, u, v, w, ht, hu, hv, hw, (yields_pure_iff _ _).mp h⟩

/-- The words a stage loop leaves are a result of each stage. -/
theorem yields_stages {stages nc : Nat} {stage : Nat → Draw (Word × List Word)} {gc : WordMem × WordMem}
    (hlen : ∀ k n, (runDraw (stage k) n).1.2.length = nc) (h4 : nc ≤ 4)
    (h : Yields ((List.range stages).foldlM (fun gc k => do
      let st ← stage k
      pure (writeStage gc k st.1 st.2)) (WordMem.zeros, WordMem.zeros)) gc) {k : Nat} (hk : k < stages) :
    ∃ st, Yields (stage k) st ∧ gc.1.read k = st.1 ∧ ∀ j, j < nc → gc.2.read (4 * k + j) = st.2.getD j f0 := by
  obtain ⟨n, rfl⟩ := h
  exact (runDraw_stages stages nc stage hlen h4 n).2 k hk

/-- The gain and coefficient files of a design are a result of its own mode's generator at its own stage count (R97). -/
theorem designOf_files_yields (p : Config) (c : FilterConfig) (n : Nat) (hp : p.smax ≤ 255) :
    Yields (designCoefs (runDraw (designOf p c) n).1.mode c (runDraw (designOf p c) n).1.numStages.toNat)
      ((runDraw (designOf p c) n).1.gain, (runDraw (designOf p c) n).1.coef) := by
  rw [designOf_numStages p c n hp, designOf_mode, runDraw_designOf]
  exact ⟨_, rfl⟩

/-! ## Low-pass and high-pass (R103) -/

/-- `g`, `c0`, `c1` are the words of stage `k` of a low-pass or high-pass design (R103). -/
def IsLpHpStage (lowPass : Bool) (a2 ta : Word) (stages k : Nat) (g c0 c1 : Word) : Prop :=
  ∃ r s u v, IsPoleSine k stages r ∧ IsDenominator a2 ta r s ∧
    Yields (if lowPass then fdiv a2 s else fdiv f1 s) g ∧
    Yields (fsub f1 a2) u ∧ Yields (fmul f2 u) v ∧ Yields (fdiv v s) c0 ∧ IsLastCoef a2 ta r s c1

theorem isLpHpStage_of_yields {lowPass : Bool} {a2 ta : Word} {stages k : Nat} {st : Word × List Word}
    (h : Yields (lpHpStage lowPass a2 ta stages k) st) :
    IsLpHpStage lowPass a2 ta stages k st.1 (st.2.getD 0 f0) (st.2.getD 1 f0) := by
  obtain ⟨r, hr, h⟩ := h.bind
  obtain ⟨s, hs, h⟩ := h.bind
  obtain ⟨g, hg, h⟩ := h.ite_bind
  obtain ⟨u, hu, h⟩ := h.bind
  obtain ⟨v, hv, h⟩ := h.bind
  obtain ⟨c0, hc0, h⟩ := h.bind
  obtain ⟨c1, hc1, h⟩ := h.bind
  obtain rfl := (yields_pure_iff _ _).mp h
  exact ⟨r, s, u, v, isPoleSine_of_yields hr, isDenominator_of_yields hs, hg, hu, hv, hc0, isLastCoef_of_yields hc1⟩

theorem designLpHp_stages {lowPass : Bool} {c : FilterConfig} {stages : Nat} {gc : WordMem × WordMem}
    (h : Yields (designLpHp lowPass c stages) gc) :
    ∃ a a2 ta, IsPrewarp (if lowPass then c.flc else c.fhc) c.fs a a2 ta ∧ ∀ k, k < stages →
      IsLpHpStage lowPass a2 ta stages k (gc.1.read k) (gc.2.read (4 * k + 0)) (gc.2.read (4 * k + 1)) := by
  obtain ⟨p, hp, h⟩ := h.bind
  obtain ⟨q, hq, h⟩ := h.bind
  obtain ⟨a, ha, h⟩ := h.bind
  obtain ⟨a2, ha2, h⟩ := h.bind
  obtain ⟨ta, hta, h⟩ := h.bind
  refine ⟨a, a2, ta, ⟨p, q, hp, hq, ha, ha2, hta⟩, fun k hk => ?_⟩
  obtain ⟨st, hst, hgain, hcoef⟩ := yields_stages (lpHpStage_length lowPass a2 ta stages) (by decide) h hk
  rw [hgain, hcoef 0 (by decide), hcoef 1 (by decide)]
  exact isLpHpStage_of_yields hst

theorem designCoefs_of_lpHp {m : Mode} (hm : m = .lowPass ∨ m = .highPass) (c : FilterConfig) (stages : Nat) :
    designCoefs m c stages = designLpHp (decide (m = .lowPass)) c stages := by
  rcases hm with rfl | rfl <;> rfl

/-- Settles O22: the two modes share one generator, told apart by whether the mode is LowPass. -/
theorem lowPassHighPassCoefficients : Obligations.LowPassHighPassCoefficients := by
  intro p c n hp d hm
  have files := designOf_files_yields p c n (smax_le_of_legal hp)
  rw [designCoefs_of_lpHp hm] at files
  have words := designLpHp_stages files
  simp only [IsLpHpStage, decide_eq_true_eq] at words
  exact words

/-! ## Band-pass (R104) -/

/-- `g`, `c0` to `c3` are the words of stage `k` of a band-pass design (R104). -/
def IsBpStage (fs a2 fa b b2 tb : Word) (stages k : Nat) (g c0 c1 c2 c3 : Word) : Prop :=
  ∃ r s br u0 v0 t1 u1 v1 w1 u2 v2, IsPoleSine k stages r ∧ IsDenominator b2 tb r s ∧
    Yields (fdiv b2 fs) g ∧ Yields (fmul b r) br ∧
    Yields (fadd f1 br) u0 ∧ Yields (fmul fa u0) v0 ∧ Yields (fdiv v0 s) c0 ∧
    Yields (fmul f2 a2) t1 ∧ Yields (fsub b2 t1) u1 ∧ Yields (fsub u1 f1) v1 ∧ Yields (fmul f2 v1) w1 ∧
    Yields (fdiv w1 s) c1 ∧
    Yields (fsub f1 br) u2 ∧ Yields (fmul fa u2) v2 ∧ Yields (fdiv v2 s) c2 ∧ IsLastCoef b2 tb r s c3

theorem isBpStage_of_yields {fs a2 fa b b2 tb : Word} {stages k : Nat} {st : Word × List Word}
    (h : Yields (bpStage fs a2 fa b b2 tb stages k) st) :
    IsBpStage fs a2 fa b b2 tb stages k st.1 (st.2.getD 0 f0) (st.2.getD 1 f0) (st.2.getD 2 f0) (st.2.getD 3 f0) := by
  obtain ⟨r, hr, h⟩ := h.bind
  obtain ⟨s, hs, h⟩ := h.bind
  obtain ⟨g, hg, h⟩ := h.bind
  obtain ⟨br, hbr, h⟩ := h.bind
  obtain ⟨u0, hu0, h⟩ := h.bind
  obtain ⟨v0, hv0, h⟩ := h.bind
  obtain ⟨c0, hc0, h⟩ := h.bind
  obtain ⟨t1, ht1, h⟩ := h.bind
  obtain ⟨u1, hu1, h⟩ := h.bind
  obtain ⟨v1, hv1, h⟩ := h.bind
  obtain ⟨w1, hw1, h⟩ := h.bind
  obtain ⟨c1, hc1, h⟩ := h.bind
  obtain ⟨u2, hu2, h⟩ := h.bind
  obtain ⟨v2, hv2, h⟩ := h.bind
  obtain ⟨c2, hc2, h⟩ := h.bind
  obtain ⟨c3, hc3, h⟩ := h.bind
  obtain rfl := (yields_pure_iff _ _).mp h
  exact ⟨r, s, br, u0, v0, t1, u1, v1, w1, u2, v2, isPoleSine_of_yields hr, isDenominator_of_yields hs, hg, hbr, hu0,
    hv0, hc0, ht1, hu1, hv1, hw1, hc1, hu2, hv2, hc2, isLastCoef_of_yields hc3⟩

theorem designBp_stages {c : FilterConfig} {stages : Nat} {gc : WordMem × WordMem} (h : Yields (designBp c stages) gc) :
    ∃ a a2 fa b b2 tb, IsBandPrewarp c a a2 fa b b2 tb ∧ ∀ k, k < stages →
      IsBpStage c.fs a2 fa b b2 tb stages k (gc.1.read k) (gc.2.read (4 * k + 0)) (gc.2.read (4 * k + 1))
        (gc.2.read (4 * k + 2)) (gc.2.read (4 * k + 3)) := by
  obtain ⟨sum, hsum, h⟩ := h.bind
  obtain ⟨psum, hpsum, h⟩ := h.bind
  obtain ⟨tp, htp, h⟩ := h.bind
  obtain ⟨dif, hdif, h⟩ := h.bind
  obtain ⟨pdif, hpdif, h⟩ := h.bind
  obtain ⟨tm, htm, h⟩ := h.bind
  obtain ⟨ctp, hctp, h⟩ := h.bind
  obtain ⟨ctm, hctm, h⟩ := h.bind
  obtain ⟨a, ha, h⟩ := h.bind
  obtain ⟨a2, ha2, h⟩ := h.bind
  obtain ⟨b, hb, h⟩ := h.bind
  obtain ⟨b2, hb2, h⟩ := h.bind
  obtain ⟨tb, htb, h⟩ := h.bind
  obtain ⟨fa, hfa, h⟩ := h.bind
  refine ⟨a, a2, fa, b, b2, tb, ⟨sum, psum, tp, dif, pdif, tm, ctp, ctm, hsum, hpsum, htp, hdif, hpdif, htm, hctp, hctm,
    ha, ha2, hb, hb2, htb, hfa⟩, fun k hk => ?_⟩
  obtain ⟨st, hst, hgain, hcoef⟩ := yields_stages (bpStage_length c.fs a2 fa b b2 tb stages) (by decide) h hk
  rw [hgain, hcoef 0 (by decide), hcoef 1 (by decide), hcoef 2 (by decide), hcoef 3 (by decide)]
  exact isBpStage_of_yields hst

/-- Settles O23: the files of a band-pass design are a result of its generator. -/
theorem bandPassCoefficients : Obligations.BandPassCoefficients := by
  intro p c n hp d hm
  have files := designOf_files_yields p c n (smax_le_of_legal hp)
  rw [show (runDraw (designOf p c) n).1.mode = .bandPass from hm] at files
  exact designBp_stages files

end Sys2Proof.Machine
end

section
/-! PROOF. One stage of the cascade: its accumulator, its output and the shift (41_engine.md R124 to R126). -/

namespace Sys2Proof.Machine

/-! ## The accumulator (R124) -/

theorem Yields.foldlM_range_succ {β : Type} {f : β → Nat → Draw β} {m : Nat} {b w : β}
    (h : Yields ((List.range (m + 1)).foldlM f b) w) :
    ∃ a, Yields ((List.range m).foldlM f b) a ∧ Yields (f a m) w := by
  obtain ⟨n, rfl⟩ := h
  rw [runDraw_foldlM_range_succ]
  exact ⟨_, ⟨n, rfl⟩, _, rfl⟩

/-- `w` is `x` plus the first `nc` products of stage `k`, added in ascending order. -/
def IsAccumulator (d : Design) (line : WordMem) (k : Nat) (x : Word) : Nat → Word → Prop
  | 0, w => w = x
  | j + 1, w => ∃ p a, IsAccumulator d line k x j a ∧ Yields (fmul (d.coefAt k j) (tapAt line k j)) p ∧
      Yields (fadd a p) w

theorem isAccumulator_of_yields {d : Design} {line : WordMem} {k : Nat} {x w : Word}
    (h : Yields (accumulate d line k x) w) : IsAccumulator d line k x d.numCoef.toNat w := by
  rw [accumulate] at h
  generalize d.numCoef.toNat = nc at h ⊢
  induction nc generalizing w with
  | zero => exact (yields_pure_iff x w).mp h
  | succ j ih =>
    obtain ⟨a, ha, h⟩ := h.foldlM_range_succ
    obtain ⟨p, hp, hw⟩ := h.bind
    exact ⟨p, a, ih ha, hp, hw⟩

/-! ## The output (R125) -/

/-- What every mode but Bypass answers: `gain*((w0 op 2*mid) + last)`. -/
def combination (op : Word → Word → Draw Word) (gain w0 mid last : Word) : Draw Word := do
  let t ← fmul f2 mid
  let u ← op w0 t
  let v ← fadd u last
  fmul gain v

/-- Low-pass and high-pass differ in the sign of the middle term alone. -/
theorem stageOutput_of_lpHp {d : Design} (hm : d.mode = .lowPass ∨ d.mode = .highPass) (line : WordMem) (k : Nat)
    (w0 : Word) :
    stageOutput d line k w0 = combination (fun w t => if d.mode = .lowPass then fadd w t else fsub w t) (d.gainAt k) w0
      (tapAt line k 0) (tapAt line k 1) := by
  rcases hm with hm | hm <;> simp [stageOutput, hm, combination]

theorem stageOutput_of_bandPass {d : Design} (hm : d.mode = .bandPass) (line : WordMem) (k : Nat) (w0 : Word) :
    stageOutput d line k w0 = combination fsub (d.gainAt k) w0 (tapAt line k 1) (tapAt line k 3) := by
  simp only [stageOutput, hm, combination]

theorem yields_parts_of_yields_combination {op : Word → Word → Draw Word} {gain w0 mid last y : Word}
    (h : Yields (combination op gain w0 mid last) y) :
    ∃ t u v, Yields (fmul f2 mid) t ∧ Yields (op w0 t) u ∧ Yields (fadd u last) v ∧ Yields (fmul gain v) y := by
  obtain ⟨t, ht, h⟩ := h.bind
  obtain ⟨u, hu, h⟩ := h.bind
  obtain ⟨v, hv, hy⟩ := h.bind
  exact ⟨t, u, v, ht, hu, hv, hy⟩

/-! ## The shift (R126) -/

theorem tapAt_shiftIn_zero {line : WordMem} (h : line.wf = true) (k nc : Nat) (w0 : Word) :
    tapAt (shiftIn line k nc w0) k 0 = w0 := by
  rw [tapAt, read_shiftIn _ _ _ _ h, if_pos (Nat.add_zero _)]

theorem tapAt_shiftIn_succ {line : WordMem} (h : line.wf = true) (k : Nat) {nc j : Nat} (hj : j + 1 < nc) (w0 : Word) :
    tapAt (shiftIn line k nc w0) k (j + 1) = tapAt line k j := by
  rw [tapAt, read_shiftIn _ _ _ _ h, if_neg (by omega), if_pos (by omega)]
  rfl

/-! ## The stage (R121) -/

/-- A stage's output is on the taps before the shift, and its accumulator is what is shifted in. -/
theorem engineStage_yields (d : Design) (line : WordMem) (k : Nat) (x : Word) (n : Nat) :
    ∃ w0, IsAccumulator d line k x d.numCoef.toNat w0 ∧
      Yields (stageOutput d line k w0) (runDraw (engineStage d k (x, line)) n).1.1 ∧
      (runDraw (engineStage d k (x, line)) n).1.2 = shiftIn line k d.numCoef.toNat w0 :=
  ⟨_, isAccumulator_of_yields ⟨n, rfl⟩, ⟨_, rfl⟩, rfl⟩

/-- Settles O27: two products in the accumulator, two taps in the shift. -/
theorem lowPassHighPassStage : Obligations.LowPassHighPassStage := by
  intro d line k x n hm hnc hwf r
  obtain ⟨w0, hacc, hout, hline⟩ := engineStage_yields d line k x n
  rw [show d.numCoef.toNat = 2 by rw [hnc]; rfl] at hacc hline
  obtain ⟨p1, a, ⟨p0, _, rfl, hp0, ha⟩, hp1, hw0⟩ := hacc
  rw [stageOutput_of_lpHp hm] at hout
  obtain ⟨t, u, v, ht, hu, hv, hy⟩ := yields_parts_of_yields_combination hout
  refine ⟨p0, a, p1, w0, t, u, v, hp0, ha, hp1, hw0, ht, hu, hv, hy, ?_⟩
  rw [show r.2 = _ from hline]
  exact ⟨tapAt_shiftIn_zero hwf k 2 w0, tapAt_shiftIn_succ hwf k (by decide) w0,
    fun i h0 h1 => read_shiftIn_other line k 2 w0 i (by omega)⟩

/-- Settles O28: four products in the accumulator, four taps in the shift. -/
theorem bandPassStage : Obligations.BandPassStage := by
  intro d line k x n hm hnc hwf r
  obtain ⟨w0, hacc, hout, hline⟩ := engineStage_yields d line k x n
  rw [show d.numCoef.toNat = 4 by rw [hnc]; rfl] at hacc hline
  obtain ⟨p3, a2, ⟨p2, a1, ⟨p1, a0, ⟨p0, _, rfl, hp0, ha0⟩, hp1, ha1⟩, hp2, ha2⟩, hp3, hw0⟩ := hacc
  rw [stageOutput_of_bandPass hm] at hout
  obtain ⟨t, u, v, ht, hu, hv, hy⟩ := yields_parts_of_yields_combination hout
  refine ⟨p0, a0, p1, a1, p2, a2, p3, w0, t, u, v, hp0, ha0, hp1, ha1, hp2, ha2, hp3, hw0, ht, hu, hv, hy, ?_⟩
  rw [show r.2 = _ from hline]
  exact ⟨tapAt_shiftIn_zero hwf k 4 w0, tapAt_shiftIn_succ hwf k (by decide) w0,
    tapAt_shiftIn_succ hwf k (by decide) w0, tapAt_shiftIn_succ hwf k (by decide) w0,
    fun i hi => read_shiftIn_other line k 4 w0 i (by omega)⟩

end Sys2Proof.Machine
end

section
/-! PROOF. The cascade stage after stage, and the commands APPLY and RESET over it (41_engine.md R120 to R123, R127). -/

namespace Sys2Proof.Machine

/-! ## The cascade (R123) -/

/-- A stage reads its design's mode, coefficients and gain, and not the stage count. -/
theorem engineStage_withNumStages (d : Design) (m : BitVec 8) : engineStage { d with numStages := m } = engineStage d := rfl

theorem engineApply_withNumStages {d : Design} (hm : d.mode ≠ .bypass) (line : WordMem) (x : Word) {stages : Nat}
    (h : stages < 2 ^ 8) :
    engineApply { d with numStages := BitVec.ofNat 8 stages } line x =
      (List.range stages).foldlM (fun xl k => engineStage d k xl) (x, line) := by
  rw [engineApply, if_neg hm, engineStage_withNumStages, BitVec.toNat_ofNat, Nat.mod_eq_of_lt h]

/-- Settles O26: the cascade is a loop over its stages, so one stage more is one more round at its end. -/
theorem cascadeRunsStagesInOrder : Obligations.CascadeRunsStagesInOrder := by
  intro d line x stages n hm hs
  constructor
  · rw [show (0 : BitVec 8) = BitVec.ofNat 8 0 from rfl, engineApply_withNumStages hm line x (by decide)]
    exact runDraw_pure _ _
  · rw [engineApply_withNumStages hm line x hs, engineApply_withNumStages hm line x (by omega)]
    exact runDraw_foldlM_range_succ (fun xl k => engineStage d k xl) stages (x, line) n

/-! ## APPLY and RESET (R120, R122, R127) -/

theorem exec_apply_of_runDraw {s : State} {x y : Word} {line : WordMem} {n : Nat}
    (h : runDraw (engineApply s.design s.delayLine x) s.draws = ((y, line), n)) :
    exec (.apply x) s = .next { s with delayLine := line, draws := n, rsp := some ⟨.ok, y⟩ } := by
  rw [show exec (.apply x) s = execApply x s from rfl, execApply, h]
  rfl

/-- Settles O25: a sample leaves every tap outside the active shape alone. -/
theorem applyCompletesAndWritesActiveTaps : Obligations.ApplyCompletesAndWritesActiveTaps := by
  intro s x hd
  exact ⟨_, _, _, rfl, exec_apply_of_runDraw rfl, engineApply_inactive _ _ _ x _ hd⟩

/-- Settles O24: in Bypass a sample is its own answer and leaves the delay lines and the draws. -/
theorem applyInBypassIsIdentity : Obligations.ApplyInBypassIsIdentity := fun s x hm =>
  exec_apply_of_runDraw (runDraw_engineApply_bypass s.design s.delayLine x s.draws hm)

theorem exec_reset (s : State) :
    exec .reset s = .next { s with delayLine := WordMem.zeros, rsp := some ⟨.ok, 0⟩ } := rfl

/-- Settles O29: the state RESET leaves is one it writes again as it is. -/
theorem resetZeroesDelayLines : Obligations.ResetZeroesDelayLines := fun s =>
  ⟨_, exec_reset s, fun k j => WordMem.read_zeros (4 * k + j), rfl, exec_reset _⟩

end Sys2Proof.Machine
end

section
/-! PROOF. The procedure of ANALYZE and the commands over it (42_analysis.md R140 to R145, R155 to R157). -/

namespace Sys2Proof.Machine

/-! ## Lengths the buffers do not hold (R140, R157) -/

theorem not_lengthInRange {p : Config} {l : Nat} (h : l < 1 ∨ p.log2NfftMax < l) : ¬ lengthInRange p l = true := by
  rw [lengthInRange_iff]
  omega

/-- Settles O30: both commands test the length before anything else. -/
theorem analysisLengthOutOfRange : Obligations.AnalysisLengthOutOfRange := fun _ _ _ h =>
  ⟨congrArg Host.Outcome.next (if_neg (not_lengthInRange h)),
    congrArg Host.Outcome.next (if_neg (not_lengthInRange h))⟩

/-- FFTRUN at a length the buffers hold (R157). -/
theorem exec_fftrun_of_inRange (l : Nat) (s : State) (h1 : 1 ≤ l) (h2 : l ≤ s.par.log2NfftMax) :
    exec (.fftrun l) s = .next (respondOk 0 (runFft l s)) :=
  congrArg Host.Outcome.next (if_pos ((lengthInRange_iff s.par l).mpr ⟨h1, h2⟩))

/-! ## ANALYZE_CORE in Bypass (R142) -/

theorem analyzeCore_of_bypass {s : State} (hm : s.design.mode = .bypass) (l : Nat) (cs : Bool) :
    analyzeCore l cs s =
      if cs then setResp (2 ^ l / 2) (s.resp.fill (2 ^ l / 2) fun _ => f0) (setDelay 0 s) else setDelay 0 s := if_pos hm

/-- Settles O31: the response file is the old one, or the old one filled with zeros. -/
theorem analyzeInBypass : Obligations.AnalyzeInBypass := by
  intro l cs s hm h1 h2 hwf
  rw [exec_analyze_of_inRange l cs s h1 h2, analyzeCore_of_bypass hm]
  cases cs with
  | false => exact ⟨s.resp, rfl, fun _ => rfl, fun h => absurd h Bool.false_ne_true⟩
  | true =>
    exact ⟨s.resp.fill (2 ^ l / 2) fun _ => f0, rfl, fun h => absurd h.symm Bool.false_ne_true,
      fun _ => WordMem.read_fill _ _ _ hwf⟩

/-! ## The frame (R140, R145, R155) -/

/-- Settles O32: every write of the analysis is below its length, and a delay-only one writes `IR` alone. -/
theorem analyzeFrame : Obligations.AnalyzeFrame := by
  intro l cs s t h1 h2 ht
  rw [exec_analyze_of_inRange l cs s h1 h2] at ht
  cases ht
  have frame := analyzeCore_frame l cs s
  refine ⟨frame.par, frame.cfg, frame.design, frame.delayLine, frame.err, frame.errCode, frame.inbox, fun n hn => ?_,
    fun j hj => analyzeCore_resp_keeps l cs s (keptBelow_read _ j _ hj) rfl, ?_⟩
  · exact ⟨analyzeCore_ir_keeps l cs s (keptBelow_read _ n _ hn) rfl,
      analyzeCore_fft_keeps l cs s (keptBelow_read _ n _ hn) (keptBelow_read _ n _ hn) rfl rfl⟩
  · rintro rfl
    obtain ⟨hre, him, hresp⟩ := analyzeCore_delay_only l s
    exact ⟨hre, him, hresp, frame.respLen, frame.respValid⟩

/-- Settles O33: no analysis is among the commands that write the design or the delay lines. -/
theorem analysisLeavesTheFilterUndisturbed : Obligations.AnalysisLeavesTheFilterUndisturbed := by
  intro i s hi
  have hkind : isSetter i = false ∧ (∀ x, i ≠ .apply x) ∧ i ≠ .reset := by
    rcases hi with ⟨l, cs, rfl⟩ | rfl | ⟨np, rfl⟩ <;> simp [isSetter]
  obtain ⟨hset, happly, hreset⟩ := hkind
  obtain ⟨t, ht, -⟩ := exec_cases i s
  obtain ⟨-, hdesign, -, -, hline⟩ := onlySettersChangeTheDesign i s t hset ht
  exact ⟨t, ht, hline happly hreset, fun x => by rw [hdesign, hline happly hreset]⟩

/-! ## GETDELAY (R156) -/

theorem exec_getdelay_of_valid {s : State} (h : s.delayValid = true) : exec .getdelay s = .next (respondDelay s) :=
  congrArg (fun t => Host.Outcome.next (respondDelay t)) (if_pos h)

theorem exec_getdelay_of_not_valid {s : State} (h : s.delayValid = false) :
    exec .getdelay s = .next (respondDelay (analyzeCore s.par.log2NfftDefault false s)) :=
  congrArg (fun t => Host.Outcome.next (respondDelay t)) (if_neg (by simp [h]))

/-- Settles O36: GETDELAY answers over the state as it is, or over the delay-only analysis of the default length. -/
theorem getdelayReusesTheCachedDelay : Obligations.GetdelayReusesTheCachedDelay := by
  refine fun s => ⟨fun h => exec_getdelay_of_valid h, fun h => ?_, fun h hp => ?_, fun hp => by rw [hp]; rfl⟩
  · exact ⟨_, exec_getdelay_of_not_valid h, (analyzeCore_frame _ false s).delayValid, rfl⟩
  · obtain ⟨-, -, h1, h2⟩ := lengths_of_legal hp
    rw [exec_getdelay_of_not_valid h, exec_analyze_of_inRange _ false s h1 h2]

/-! ## FFTRUN (R157) -/

/-- The FFT buffer after the first `st` stages on the bit-reversed load, from the counter `n`. -/
def fftAfter (p : Config) (ir : WordMem) (l : Nat) (z : WordMem × WordMem) (n st : Nat) : WordMem × WordMem :=
  (runDraw ((List.range st).foldlM (fun z s => fftStage p l (s + 1) z) (fftLoad ir l z)) n).1

theorem fftAfter_zero (p : Config) (ir : WordMem) (l : Nat) (z : WordMem × WordMem) (n : Nat) :
    fftAfter p ir l z n 0 = fftLoad ir l z := rfl

theorem fftStage_yields_fftAfter (p : Config) (ir : WordMem) (l : Nat) (z : WordMem × WordMem) (n st : Nat) :
    Yields (fftStage p l (st + 1) (fftAfter p ir l z n st)) (fftAfter p ir l z n (st + 1)) :=
  ⟨_, congrArg Prod.fst (runDraw_foldlM_range_succ (fun z s => fftStage p l (s + 1) z) st (fftLoad ir l z) n).symm⟩

/-- Settles O42: the FFT is its load and then its stages, all of whose writes are below the length. -/
theorem fftrunRunsTheFftAlone : Obligations.FftrunRunsTheFftAlone := by
  intro l s h1 h2
  refine ⟨_, _, _, exec_fftrun_of_inRange l s h1 h2, ?_, fun q hq => ?_⟩
  · exact ⟨fftAfter s.par s.ir l (s.re, s.im) s.draws, fftAfter_zero _ _ _ _ _,
      fun st _ => fftStage_yields_fftAfter _ _ _ _ _ st, rfl⟩
  · exact fftCore_keeps s.par s.ir l (keptBelow_read _ q _ hq) (keptBelow_read _ q _ hq) (s.re, s.im) s.draws rfl rfl

end Sys2Proof.Machine
end

section
/-! PROOF. The first maximum of a sequence of words by strict `>` (00_scope.md R16), which the peak search takes of the
magnitudes of the capture (42_analysis.md R146) and NORMALIZE of the bins (R154). -/

namespace Sys2Proof.Machine

/-! ## Strict comparison -/

theorem fgt_iff (a b : Word) : fgt a b = true ↔ isNaN a = false ∧ isNaN b = false ∧ orderKey b < orderKey a := by
  simp only [fgt, flt, Bool.and_eq_true, Bool.not_eq_true', decide_eq_true_eq]
  tauto

@[simp] theorem fgt_self (a : Word) : fgt a a = false := by
  rw [← Bool.not_eq_true, fgt_iff]
  omega

/-! ## The first maximum -/

/-- The index of the first maximum among the first `n` words: a later word takes the place only by a strict `>`. -/
def firstMax (v : Nat → Word) : Nat → Nat
  | 0 => 0
  | n + 1 => if fgt (v n) (v (firstMax v n)) then n else firstMax v n

@[simp] theorem firstMax_one (v : Nat → Word) : firstMax v 1 = 0 := by simp [firstMax]

theorem firstMax_lt (v : Nat → Word) {n : Nat} (h : 1 ≤ n) : firstMax v n < n := by
  induction n, h using Nat.le_induction with
  | base => rw [firstMax_one]; exact Nat.one_pos
  | succ n _ ih =>
    rw [firstMax]
    split <;> omega

theorem firstMax_congr {v w : Nat → Word} {n : Nat} (h : ∀ i, i < n → v i = w i) : firstMax v n = firstMax w n := by
  induction n with
  | zero => rfl
  | succ n ih =>
    have hbest : firstMax v n = firstMax w n := ih fun i hi => h i (by omega)
    have hlt : firstMax w n < n + 1 := by
      rcases Nat.eq_zero_or_pos n with rfl | hn
      · exact Nat.one_pos
      · exact (firstMax_lt w hn).trans (Nat.lt_succ_self n)
    rw [firstMax, firstMax, hbest, h n (Nat.lt_succ_self n), h _ hlt]

/-- A NaN at index 0 is never beaten. -/
theorem firstMax_of_isNaN {v : Nat → Word} (h : isNaN (v 0) = true) (n : Nat) : firstMax v n = 0 := by
  induction n with
  | zero => rfl
  | succ n ih =>
    rw [firstMax, ih, if_neg]
    simp [fgt_iff, h]

/-- `k` is the first index below `n` whose word no other exceeds, NaNs aside. -/
structure IsFirstMax (v : Nat → Word) (n k : Nat) : Prop where
  lt : k < n
  notNaN : isNaN (v k) = false
  max : ∀ j, j < n → fgt (v j) (v k) = false
  first : ∀ j, j < k → isNaN (v j) = false → flt (v j) (v k) = true

/-- A word that beats the maximum so far is the first maximum itself. -/
theorem IsFirstMax.beaten {v : Nat → Word} {n k : Nat} (h : IsFirstMax v n k) (hgt : fgt (v n) (v k) = true) :
    IsFirstMax v (n + 1) n := by
  obtain ⟨hn, hk, hlt⟩ := (fgt_iff _ _).mp hgt
  have below (j : Nat) (hj : j < n) (hv : isNaN (v j) = false) : orderKey (v j) < orderKey (v n) := by
    have hle := h.max j hj
    rw [← Bool.not_eq_true, fgt_iff] at hle
    by_contra hge
    exact hle ⟨hv, hk, by omega⟩
  refine ⟨Nat.lt_succ_self n, hn, fun j hj => ?_, fun j hj hv => (fgt_iff _ _).mpr ⟨hn, hv, below j hj hv⟩⟩
  rcases Nat.lt_succ_iff_lt_or_eq.mp hj with hj | rfl
  · rw [← Bool.not_eq_true, fgt_iff]
    rintro ⟨hv, -, hgt⟩
    exact lt_asymm hgt (below j hj hv)
  · exact fgt_self _

/-- A word that does not beat the maximum so far leaves it in place. -/
theorem IsFirstMax.kept {v : Nat → Word} {n k : Nat} (h : IsFirstMax v n k) (hgt : fgt (v n) (v k) = false) :
    IsFirstMax v (n + 1) k := by
  refine ⟨h.lt.trans (Nat.lt_succ_self n), h.notNaN, fun j hj => ?_, h.first⟩
  rcases Nat.lt_succ_iff_lt_or_eq.mp hj with hj | rfl
  · exact h.max j hj
  · exact hgt

theorem isFirstMax_firstMax {v : Nat → Word} (h0 : isNaN (v 0) = false) {n : Nat} (h : 1 ≤ n) :
    IsFirstMax v n (firstMax v n) := by
  induction n, h using Nat.le_induction with
  | base =>
    rw [firstMax_one]
    refine ⟨Nat.one_pos, h0, fun j hj => ?_, fun j hj => absurd hj (Nat.not_lt_zero j)⟩
    rw [Nat.lt_one_iff.mp hj, fgt_self]
  | succ n _ ih =>
    rw [firstMax]
    split
    case isTrue hgt => exact ih.beaten hgt
    case isFalse hgt => exact ih.kept (Bool.not_eq_true _ ▸ hgt)

/-! ## The peak (R146) -/

@[simp] theorem magBits_fabs (w : Word) : magBits (fabs w) = magBits w := by
  have hmask : BitVec.setWidth 63 (0x7FFFFFFFFFFFFFFF : Word) = BitVec.allOnes 63 := by decide
  rw [magBits, magBits, ← BitVec.toNat_setWidth 63, ← BitVec.toNat_setWidth 63, fabs, BitVec.setWidth_and, hmask,
    BitVec.and_allOnes]

@[simp] theorem isNaN_fabs (w : Word) : isNaN (fabs w) = isNaN w := by rw [isNaN, magBits_fabs, isNaN]

/-- The magnitude of every word of a file, by index. -/
def magnitudes (ir : WordMem) (n : Nat) : Word := fabs (ir.read n)

theorem peakAt_eq (ir : WordMem) (n : Nat) :
    peakAt ir n = (magnitudes ir (firstMax (magnitudes ir) n), firstMax (magnitudes ir) n) := by
  induction n with
  | zero => rfl
  | succ n ih =>
    rcases Nat.eq_zero_or_pos n with rfl | hn
    · rw [peakAt_one, firstMax_one]; rfl
    · rw [peakAt_succ ir n hn.ne', ih, firstMax]
      exact (apply_ite (fun k => (magnitudes ir k, k)) _ _ _).symm

theorem peak_eq_firstMax (ir : WordMem) (n : Nat) : peak ir n = firstMax (magnitudes ir) n := by
  rw [peak_eq, peakAt_eq]

/-- Settles O35: the peak is the first maximum of the magnitudes. -/
theorem peakIsFirstMaximum : Obligations.PeakIsFirstMaximum := by
  intro ir nfft h
  rw [peak_eq_firstMax]
  refine ⟨firstMax_lt _ h, fun hn => firstMax_of_isNaN (by rw [magnitudes, isNaN_fabs, hn]) nfft, fun hn => ?_⟩
  have hmax := isFirstMax_firstMax (v := magnitudes ir) (by rw [magnitudes, isNaN_fabs, hn]) h
  refine ⟨(isNaN_fabs _).symm.trans hmax.notNaN, hmax.max, fun j hj hv => hmax.first j hj ((isNaN_fabs _).trans hv)⟩

/-! ## The maximum bin (R154) -/

theorem respMax_eq_firstMax (resp : WordMem) (h : Nat) : respMax resp h = resp.read (firstMax resp.read h) := by
  induction h with
  | zero => rfl
  | succ h ih =>
    rw [respMax, List.range_succ, List.foldl_append, ← respMax, ih]
    rcases Nat.eq_zero_or_pos h with rfl | hh
    · rw [firstMax_one]; rfl
    · rw [firstMax, apply_ite resp.read]
      exact if_neg hh.ne'

end Sys2Proof.Machine
end

section
/-! PROOF. Bit reversal and the load it directs (42_analysis.md R147, R148). -/

namespace Sys2Proof.Machine

/-! ## Bit reversal (R148) -/

theorem testBit_bitrev (n l i : Nat) (hi : i < l) : (bitrev n l).testBit i = n.testBit (l - 1 - i) := by
  induction l generalizing n with
  | zero => omega
  | succ l ih =>
    rw [bitrev, Nat.mul_comm, Nat.testBit_two_pow_mul_add _ (bitrev_lt _ l)]
    split
    case isTrue hlt =>
      rw [ih (n / 2) hlt, Nat.testBit_div_two]
      congr 1
      omega
    case isFalse hlt =>
      obtain rfl : i = l := by omega
      simp

theorem bitrev_bitrev {n l : Nat} (h : n < 2 ^ l) : bitrev (bitrev n l) l = n := by
  refine Nat.eq_of_testBit_eq fun i => ?_
  by_cases hi : i < l
  · rw [testBit_bitrev _ _ _ hi, testBit_bitrev _ _ _ (by omega)]
    congr 1
    omega
  · have hpow : 2 ^ l ≤ 2 ^ i := Nat.pow_le_pow_right two_pos (by omega)
    rw [Nat.testBit_lt_two_pow ((bitrev_lt _ l).trans_le hpow), Nat.testBit_lt_two_pow (h.trans_le hpow)]

theorem bitrev_eq_iff {n q l : Nat} (hn : n < 2 ^ l) (hq : q < 2 ^ l) : bitrev n l = q ↔ n = bitrev q l :=
  ⟨fun h => by rw [← h, bitrev_bitrev hn], fun h => by rw [h, bitrev_bitrev hq]⟩

/-! ## The load (R147) -/

/-- A loop that writes an index at one round alone leaves that round's word there. -/
theorem read_foldl_write_once {bound : Nat} (ix : Nat → Nat) (value : Nat → Word) (m : WordMem) (hwf : m.wf = true)
    (hix : ∀ n, ix n < bound) (q n₀ : Nat) (N : Nat) (honce : ∀ n, n < N → (ix n = q ↔ n = n₀)) (h₀ : n₀ < N) :
    ((List.range N).foldl (fun m n => m.write (ix n) (value n)) m).read q = value n₀ := by
  induction N with
  | zero => omega
  | succ N ih =>
    rw [List.range_succ, List.foldl_append, List.foldl_cons, List.foldl_nil,
      WordMem.read_write _ _ _ _ (foldl_write_keeps (keptBelow_wf bound) ix value _ (fun n _ => hix n) m hwf)]
    split
    case isTrue h => rw [(honce N (Nat.lt_succ_self N)).mp h]
    case isFalse h =>
      rw [honce N (Nat.lt_succ_self N)] at h
      exact ih (fun n hn => honce n (by omega)) (by omega)

theorem fftLoad_re {ir : WordMem} {l : Nat} {z : WordMem × WordMem} (hwf : z.1.wf = true) {q : Nat} (hq : q < 2 ^ l) :
    (fftLoad ir l z).1.read q = ir.read (bitrev q l) :=
  read_foldl_write_once (fun n => bitrev n l) ir.read z.1 hwf (fun n => bitrev_lt n l) q (bitrev q l) (2 ^ l)
    (fun _ hn => bitrev_eq_iff hn hq) (bitrev_lt q l)

theorem fftLoad_im {ir : WordMem} {l : Nat} {z : WordMem × WordMem} (hwf : z.2.wf = true) {q : Nat} (hq : q < 2 ^ l) :
    (fftLoad ir l z).2.read q = f0 :=
  (WordMem.read_fill z.2 (2 ^ l) (fun _ => f0) hwf q).trans (if_pos hq)

/-- Settles O39: bit `i` of a reversed index is bit `l - 1 - i` of the index, so reversing twice gives it back, and each
word of the load is written by one round alone. -/
theorem bitReversedLoad : Obligations.BitReversedLoad := by
  refine ⟨fun n l hn => ⟨bitrev_lt n l, bitrev_bitrev hn, testBit_bitrev n l⟩, fun ir l z hre him q => ?_⟩
  exact ⟨fun hq => ⟨fftLoad_re hre hq, fftLoad_im him hq⟩,
    fun hq => fftLoad_keeps ir l (keptBelow_read _ q _ hq) (keptBelow_read _ q _ hq) z rfl rfl⟩

end Sys2Proof.Machine
end

section
/-! PROOF. The butterfly and the stage: a stage gives every pair its butterfly once, on words no other butterfly of the stage
touches (42_analysis.md R149 to R152). -/

namespace Sys2Proof.Machine

/-! ## The butterfly (R151) -/

/-- The words of a file after the two writes a butterfly makes into it. -/
theorem read_write_pair {m : WordMem} (hwf : m.wf = true) {p q : Nat} (hpq : p ≠ q) (vq vp : Word) :
    ((m.write q vq).write p vp).read q = vq ∧ ((m.write q vq).write p vp).read p = vp ∧
      ∀ i, i ≠ p → i ≠ q → ((m.write q vq).write p vp).read i = m.read i := by
  have hq := WordMem.wf_write m q vq hwf
  refine ⟨?_, ?_, fun i hp hq => ?_⟩
  · rw [WordMem.read_write_ne _ _ _ _ hpq, WordMem.read_write _ _ _ _ hwf, if_pos rfl]
  · rw [WordMem.read_write _ _ _ _ hq, if_pos rfl]
  · rw [WordMem.read_write_ne _ _ _ _ hp.symm, WordMem.read_write_ne _ _ _ _ hq.symm]

/-- Settles O40: the operations in their order, then the two writes into each half. -/
theorem butterflyResult : Obligations.ButterflyResult := by
  intro p q wr wi z n hpq hre him r
  have h : Yields (butterfly p q wr wi z) r := ⟨n, rfl⟩
  clear_value r
  obtain ⟨a, ha, h⟩ := h.bind
  obtain ⟨b, hb, h⟩ := h.bind
  obtain ⟨tr, htr, h⟩ := h.bind
  obtain ⟨c, hc, h⟩ := h.bind
  obtain ⟨e, he, h⟩ := h.bind
  obtain ⟨ti, hti, h⟩ := h.bind
  obtain ⟨rq, hrq, h⟩ := h.bind
  obtain ⟨iq, hiq, h⟩ := h.bind
  obtain ⟨rp, hrp, h⟩ := h.bind
  obtain ⟨ip, hip, h⟩ := h.bind
  obtain rfl := (yields_pure_iff _ _).mp h
  obtain ⟨hreq, hrep, hrei⟩ := read_write_pair hre hpq rq rp
  obtain ⟨himq, himp, himi⟩ := read_write_pair him hpq iq ip
  refine ⟨a, b, tr, c, e, ti, ha, hb, htr, hc, he, hti, ?_⟩
  rw [hreq, himq, hrep, himp]
  exact ⟨hrq, hiq, hrp, hip, fun i hp hq => ⟨hrei i hp hq, himi i hp hq⟩⟩

/-- A butterfly reads its pair alone: on buffers with the same pair it writes the same words and draws the same. -/
theorem butterfly_congr {p q : Nat} {z w : WordMem × WordMem} (hrep : w.1.read p = z.1.read p)
    (himp : w.2.read p = z.2.read p) (hreq : w.1.read q = z.1.read q) (himq : w.2.read q = z.2.read q) (wr wi : Word)
    (n : Nat) :
    ∃ rq rp iq ip k,
      runDraw (butterfly p q wr wi z) n = (((z.1.write q rq).write p rp, (z.2.write q iq).write p ip), k) ∧
      runDraw (butterfly p q wr wi w) n = (((w.1.write q rq).write p rp, (w.2.write q iq).write p ip), k) := by
  simp only [butterfly, runDraw_bind, runDraw_pure, hrep, himp, hreq, himq]
  exact ⟨_, _, _, _, _, rfl, rfl⟩

/-! ## A pair in the course of a stage -/

/-- `w` is canonical and holds the words of `z` at `p` and `q`. -/
structure HoldsPair (p q : Nat) (z w : WordMem × WordMem) : Prop where
  re_wf : w.1.wf = true
  im_wf : w.2.wf = true
  re_low : w.1.read p = z.1.read p
  im_low : w.2.read p = z.2.read p
  re_high : w.1.read q = z.1.read q
  im_high : w.2.read q = z.2.read q

/-- The pair's own butterfly gives what it gives on `z`. -/
theorem HoldsPair.own {p q : Nat} {z w : WordMem × WordMem} (h : HoldsPair p q z w) (hpq : p ≠ q) (hre : z.1.wf = true)
    (him : z.2.wf = true) (wr wi : Word) (n : Nat) :
    HoldsPair p q (runDraw (butterfly p q wr wi z) n).1 (runDraw (butterfly p q wr wi w) n).1 := by
  obtain ⟨rq, rp, iq, ip, k, hz, hw⟩ := butterfly_congr h.re_low h.im_low h.re_high h.im_high wr wi n
  obtain ⟨zreq, zrep, -⟩ := read_write_pair hre hpq rq rp
  obtain ⟨zimq, zimp, -⟩ := read_write_pair him hpq iq ip
  obtain ⟨wreq, wrep, -⟩ := read_write_pair h.re_wf hpq rq rp
  obtain ⟨wimq, wimp, -⟩ := read_write_pair h.im_wf hpq iq ip
  rw [hz, hw]
  exact ⟨WordMem.wf_write _ _ _ (WordMem.wf_write _ _ _ h.re_wf), WordMem.wf_write _ _ _ (WordMem.wf_write _ _ _ h.im_wf),
    wrep.trans zrep.symm, wimp.trans zimp.symm, wreq.trans zreq.symm, wimq.trans zimq.symm⟩

/-- A butterfly on two other words leaves the pair alone. -/
theorem HoldsPair.other {p q p' q' : Nat} {z w : WordMem × WordMem} (h : HoldsPair p q z w)
    (hoff : p' ≠ p ∧ p' ≠ q ∧ q' ≠ p ∧ q' ≠ q) (wr wi : Word) (n : Nat) :
    HoldsPair p q z (runDraw (butterfly p' q' wr wi w) n).1 := by
  obtain ⟨rq, rp, iq, ip, hw⟩ := butterfly_writes p' q' wr wi w n
  obtain ⟨hpp, hpq, hqp, hqq⟩ := hoff
  have low (m : WordMem) (vq vp : Word) : ((m.write q' vq).write p' vp).read p = m.read p := by
    rw [WordMem.read_write_ne _ _ _ _ hpp, WordMem.read_write_ne _ _ _ _ hqp]
  have high (m : WordMem) (vq vp : Word) : ((m.write q' vq).write p' vp).read q = m.read q := by
    rw [WordMem.read_write_ne _ _ _ _ hpq, WordMem.read_write_ne _ _ _ _ hqq]
  rw [hw]
  exact ⟨WordMem.wf_write _ _ _ (WordMem.wf_write _ _ _ h.re_wf), WordMem.wf_write _ _ _ (WordMem.wf_write _ _ _ h.im_wf),
    (low _ _ _).trans h.re_low, (low _ _ _).trans h.im_low, (high _ _ _).trans h.re_high, (high _ _ _).trans h.im_high⟩

/-! ## The pairs of a stage (R149) -/

theorem add_mul_inj {m a b g h : Nat} (ha : a < m) (hb : b < m) (heq : a + g * m = b + h * m) : a = b ∧ g = h := by
  have hab : a = b := by
    have hmod := congrArg (· % m) heq
    simpa only [Nat.add_mul_mod_self_right, Nat.mod_eq_of_lt ha, Nat.mod_eq_of_lt hb] using hmod
  subst hab
  exact ⟨rfl, Nat.eq_of_mul_eq_mul_right (by omega) (Nat.add_left_cancel heq)⟩

/-- Two pairs of one stage share no index. -/
theorem pairs_disjoint {m j g i : Nat} (hm : m / 2 + m / 2 = m) (hj : j < m / 2) (hi : i % m < m / 2)
    (hne : j ≠ i % m ∨ g ≠ i / m) :
    j + g * m ≠ i ∧ j + g * m ≠ i + m / 2 ∧ j + g * m + m / 2 ≠ i ∧ j + g * m + m / 2 ≠ i + m / 2 := by
  have hdiv := Nat.mod_add_div' i m
  have key {a b : Nat} (ha : a < m) (hb : b < m) (hab : a ≠ b ∨ g ≠ i / m) : a + g * m ≠ b + i / m * m := fun heq => by
    obtain ⟨h1, h2⟩ := add_mul_inj ha hb heq
    exact hab.elim (absurd h1) (absurd h2)
  have h1 := key (a := j) (b := i % m) (by omega) (by omega) hne
  have h2 := key (a := j) (b := i % m + m / 2) (by omega) (by omega) (.inl (by omega))
  have h3 := key (a := j + m / 2) (b := i % m) (by omega) (by omega) (.inl (by omega))
  omega

/-! ## The stage (R150, R152) -/

/-- A loop over distinct rounds, one of which leads from `P` to `Q` while the others keep both. -/
theorem runDraw_foldlM_once {α β : Type} {P Q : β → Prop} {f : β → α → Draw β} {l : List α} {a : α} (hl : l.Nodup)
    (ha : a ∈ l) (hP : ∀ b c n, c ∈ l → c ≠ a → P b → P (runDraw (f b c) n).1)
    (hPQ : ∀ b n, P b → Q (runDraw (f b a) n).1)
    (hQ : ∀ b c n, c ∈ l → c ≠ a → Q b → Q (runDraw (f b c) n).1) (b : β) (n : Nat) (hb : P b) :
    Q (runDraw (l.foldlM f b) n).1 := by
  induction l generalizing b n with
  | nil => exact absurd ha List.not_mem_nil
  | cons c l ih =>
    obtain ⟨hc, hl⟩ := List.nodup_cons.mp hl
    rw [List.foldlM_cons, runDraw_bind]
    by_cases hca : c = a
    · subst hca
      exact runDraw_foldlM_keeps Q f l
        (fun b' c' n' hc' => hQ b' c' n' (List.mem_cons_of_mem _ hc') (ne_of_mem_of_not_mem hc' hc)) _ _ (hPQ b n hb)
    · exact ih hl (List.mem_of_ne_of_mem (Ne.symm hca) ha)
        (fun b' c' n' hc' => hP b' c' n' (List.mem_cons_of_mem _ hc'))
        (fun b' c' n' hc' => hQ b' c' n' (List.mem_cons_of_mem _ hc')) _ _ (hP b c n List.mem_cons_self hca hb)

/-- The butterflies of another twiddle leave the pair alone. -/
theorem HoldsPair.fftTwiddle_other {p : Config} {l m j i : Nat} {z w : WordMem × WordMem}
    (h : HoldsPair i (i + m / 2) z w) (hm : m / 2 + m / 2 = m) (hj : j < m / 2) (hi : i % m < m / 2) (hne : j ≠ i % m)
    (n : Nat) : HoldsPair i (i + m / 2) z (runDraw (fftTwiddle p l m j w) n).1 :=
  runDraw_foldlM_keeps (HoldsPair i (i + m / 2) z) _ _
    (fun _ _ n _ hw => hw.other (pairs_disjoint hm hj hi (.inl hne)) _ _ n) w n h

/-- `w` holds what the butterfly of the pair at `i` in groups of `m` gives on `z`. -/
def PairDone (p : Config) (m i : Nat) (z w : WordMem × WordMem) : Prop :=
  ∃ b, Yields (butterfly i (i + m / 2) (twRe p (i % m * (p.nfftMax / m))) (twIm p (i % m * (p.nfftMax / m))) z) b ∧
    HoldsPair i (i + m / 2) b w

/-- Among the butterflies of its twiddle the pair's own comes once, at the group `i / m`. -/
theorem pairDone_fftTwiddle {p : Config} {l m i : Nat} {z w : WordMem × WordMem} (h : HoldsPair i (i + m / 2) z w)
    (hre : z.1.wf = true) (him : z.2.wf = true) (hm : m / 2 + m / 2 = m) (hdvd : m ∣ 2 ^ l) (hl : i < 2 ^ l)
    (hi : i % m < m / 2) (n : Nat) : PairDone p m i z (runDraw (fftTwiddle p l m (i % m) w) n).1 := by
  refine runDraw_foldlM_once (P := HoldsPair i (i + m / 2) z) (Q := PairDone p m i z) (a := i / m) List.nodup_range
    (List.mem_range.mpr (Nat.div_lt_div_of_lt_of_dvd hdvd hl)) (fun b g n _ hg hb => ?_) (fun b n hb => ?_)
    (fun b g n _ hg hb => ?_) w n h
  · exact hb.other (pairs_disjoint hm hi hi (.inr hg)) _ _ n
  · rw [Nat.mod_add_div']
    exact ⟨_, ⟨n, rfl⟩, hb.own (by omega) hre him _ _ n⟩
  · obtain ⟨r, hr, hb⟩ := hb
    exact ⟨r, hr, hb.other (pairs_disjoint hm hi hi (.inr hg)) _ _ n⟩

/-- Among the twiddles of a stage the pair's own comes once, at `i % m`. -/
theorem pairDone_fftStage {p : Config} {l s i : Nat} {z : WordMem × WordMem} (hre : z.1.wf = true) (him : z.2.wf = true)
    (hm : 2 ^ s / 2 + 2 ^ s / 2 = 2 ^ s) (hdvd : 2 ^ s ∣ 2 ^ l) (hl : i < 2 ^ l) (hi : i % 2 ^ s < 2 ^ s / 2) (n : Nat) :
    PairDone p (2 ^ s) i z (runDraw (fftStage p l s z) n).1 := by
  refine runDraw_foldlM_once (P := HoldsPair i (i + 2 ^ s / 2) z) (Q := PairDone p (2 ^ s) i z) (a := i % 2 ^ s)
    List.nodup_range (List.mem_range.mpr hi) (fun b j n hj hne hb => ?_) (fun b n hb => ?_) (fun b j n hj hne hb => ?_) z n
    ⟨hre, him, rfl, rfl, rfl, rfl⟩
  · exact hb.fftTwiddle_other hm (List.mem_range.mp hj) hi hne n
  · exact pairDone_fftTwiddle hb hre him hm hdvd hl hi n
  · obtain ⟨r, hr, hb⟩ := hb
    exact ⟨r, hr, hb.fftTwiddle_other hm (List.mem_range.mp hj) hi hne n⟩

/-- Settles O41: every other butterfly of the stage works on other words, so the pair's own finds the words before the
stage and nothing touches what it leaves. -/
theorem fftStageIsSimultaneousButterflies : Obligations.FftStageIsSimultaneousButterflies := by
  intro p l s z n i h1 hsl _ hre him hl hi t q r
  have heven : 2 ∣ 2 ^ s := dvd_pow_self 2 (by omega)
  obtain ⟨b, hb, holds⟩ := pairDone_fftStage (p := p) hre him (by omega) (pow_dvd_pow 2 hsl) hl hi n
  exact ⟨b, hb, holds.re_low, holds.im_low, holds.re_high, holds.im_high⟩

end Sys2Proof.Machine
end

section
/-! PROOF. Magnitudes and normalization bin by bin (42_analysis.md R153, R154): both are loops that write their bins in
ascending order, each from a word no earlier round has touched. -/

namespace Sys2Proof.Machine

/-! ## Loops that write word after word -/

/-- A loop that computes word `j` of a file from the file as it then is, for `j` in `0..h-1`. -/
def wordLoop (f : WordMem → Nat → Draw Word) (h : Nat) (m : WordMem) : Draw WordMem :=
  (List.range h).foldlM (fun r j => do
    let v ← f r j
    pure (r.write j v)) m

theorem dbStep_eq_wordLoop (re im : WordMem) (h : Nat) (resp : WordMem) :
    dbStep re im h resp = wordLoop (fun _ j => dbBin (re.read j) (im.read j)) h resp := rfl

theorem normalizeResp_eq_wordLoop (h : Nat) (resp : WordMem) :
    normalizeResp h resp = wordLoop (fun r j => fsub (r.read j) (respMax resp h)) h resp := rfl

theorem runDraw_wordLoop_succ (f : WordMem → Nat → Draw Word) (h : Nat) (m : WordMem) (n : Nat) :
    runDraw (wordLoop f (h + 1) m) n =
      let r := runDraw (wordLoop f h m) n
      let v := runDraw (f r.1 h) r.2
      (r.1.write h v.1, v.2) := by
  rw [wordLoop, runDraw_foldlM_range_succ, runDraw_bind, runDraw_pure]
  rfl

/-- `r` comes of `m` by writing the words below `h`, word `j` a result of `f` on a file that from `j` on is still `m`. -/
structure WrittenBelow (f : WordMem → Nat → Draw Word) (m : WordMem) (h : Nat) (r : WordMem) : Prop where
  wf : r.wf = true
  rest : ∀ j, h ≤ j → r.read j = m.read j
  word : ∀ j, j < h → ∃ r', (∀ i, j ≤ i → r'.read i = m.read i) ∧ Yields (f r' j) (r.read j)

theorem writtenBelow_wordLoop (f : WordMem → Nat → Draw Word) {m : WordMem} (hwf : m.wf = true) (h n : Nat) :
    WrittenBelow f m h (runDraw (wordLoop f h m) n).1 := by
  induction h with
  | zero => exact ⟨hwf, fun _ _ => rfl, fun j hj => absurd hj (Nat.not_lt_zero j)⟩
  | succ h ih =>
    rw [runDraw_wordLoop_succ]
    refine ⟨WordMem.wf_write _ _ _ ih.wf, fun j hj => ?_, fun j hj => ?_⟩
    · rw [WordMem.read_write_ne _ _ _ _ (by omega), ih.rest j (by omega)]
    · rw [WordMem.read_write _ _ _ _ ih.wf]
      split
      case isTrue heq => exact heq ▸ ⟨_, ih.rest, _, rfl⟩
      case isFalse hne => exact ih.word j (by omega)

/-! ## The dB step (R153) -/

theorem yields_parts_of_yields_dbBin {re im v : Word} (h : Yields (dbBin re im) v) :
    ∃ a b p, Yields (fmul re re) a ∧ Yields (fmul im im) b ∧ Yields (fadd a b) p ∧ (feq p f0 = true → v = fFloor) ∧
      (feq p f0 = false → ∃ g, Yields (flog10 p) g ∧ Yields (fmul f10 g) v) := by
  obtain ⟨a, ha, h⟩ := h.bind
  obtain ⟨b, hb, h⟩ := h.bind
  obtain ⟨p, hp, h⟩ := h.bind
  refine ⟨a, b, p, ha, hb, hp, fun hz => ?_, fun hz => ?_⟩
  · rw [if_pos hz] at h
    exact (yields_pure_iff _ _).mp h
  · rw [if_neg (by simp [hz])] at h
    exact h.bind

/-- Settles O43: bin `j` is a result of the one-bin computation, which reads no bin. -/
theorem decibelBins : Obligations.DecibelBins := by
  intro re im h resp n hwf r
  have written := writtenBelow_wordLoop (fun _ j => dbBin (re.read j) (im.read j)) hwf h n
  refine ⟨fun j hj => ?_, written.rest⟩
  obtain ⟨_, -, hv⟩ := written.word j hj
  exact yields_parts_of_yields_dbBin hv

/-! ## NORMALIZE (R154) -/

theorem yields_normalizeResp {resp : WordMem} (hwf : resp.wf = true) (h n : Nat) {j : Nat} (hj : j < h) :
    Yields (fsub (resp.read j) (respMax resp h)) ((runDraw (normalizeResp h resp) n).1.read j) := by
  have written := writtenBelow_wordLoop (fun r j => fsub (r.read j) (respMax resp h)) hwf h n
  obtain ⟨r, hr, hv⟩ := written.word j hj
  rwa [hr j le_rfl] at hv

theorem fsub_self_of_isFinite {a : Word} (ha : isFinite a = true) : Gives (fsub a a) f0 := by
  have hzero := gives_fsub_of_zero_difference ha ha (sub_self _)
  rwa [Bool.and_not_self] at hzero

theorem Gives.eq_of_yields {α : Type} {x : Draw α} {a w : α} (h : Gives x a) (hw : Yields x w) : w = a := by
  obtain ⟨n, rfl⟩ := hw
  rw [h n]

/-- A negative word or a zero is at most 0. -/
theorem fle_ofSignMag_f0 {neg : Bool} {m : Nat} (hm : m ≤ infBits) (h : neg = true ∨ m = 0) :
    fle (ofSignMag neg m) f0 = true := by
  have hlt : m < 2 ^ 63 := hm.trans_lt (by decide)
  have hkey : orderKey (ofSignMag neg m) ≤ orderKey f0 := by
    rw [orderKey_eq, isNeg_ofSignMag _ _ hlt, magBits_ofSignMag _ _ hlt, show orderKey f0 = 0 from by decide]
    rcases h with rfl | rfl <;> simp
  rw [fle, isNaN_ofSignMag _ _ hm, decide_eq_true hkey]
  decide

/-- The difference of a finite word and one at least as great is at most 0. -/
theorem fle_f0_of_yields_fsub {a b w : Word} (ha : isFinite a = true) (hb : isFinite b = true) (hab : fgt a b = false)
    (hw : Yields (fsub a b) w) : fle w f0 = true := by
  have hle : signedUnits a + signedUnits (fneg b) ≤ 0 := by
    rw [fgt, flt_of_isFinite hb ha, decide_eq_false_iff_not] at hab
    rw [signedUnits_fneg]
    omega
  have hb' : isFinite (fneg b) = true := (isFinite_fneg b).trans hb
  rw [fsub] at hw
  by_cases hx : signedUnits a + signedUnits (fneg b) = 0
  · rw [fadd_of_zero_sum ha hb' hx, yields_pure_iff] at hw
    exact hw ▸ fle_ofSignMag_f0 (Nat.zero_le _) (.inr rfl)
  · rw [fadd_of_nonzero_sum ha hb' hx, yields_pure_iff] at hw
    exact hw ▸ fle_ofSignMag_f0 (roundMag_le _ _) (.inl (decide_eq_true (by omega)))

/-- Settles O44: the maximum is the bin at the first maximum; over finite bins its own difference is zero and every other
one that of a bin not greater. -/
theorem normalizedMaximumIsZero : Obligations.NormalizedMaximumIsZero := by
  intro h resp n hh hwf mx r
  have hmx : mx = resp.read (firstMax resp.read h) := respMax_eq_firstMax resp h
  have hlt := firstMax_lt resp.read hh
  have word (j : Nat) (hj : j < h) : Yields (fsub (resp.read j) mx) (r.read j) := yields_normalizeResp hwf h n hj
  refine ⟨fun h0 => by rw [hmx, firstMax_of_isNaN h0], fun h0 => ?_, word,
    (writtenBelow_wordLoop (fun r j => fsub (r.read j) (respMax resp h)) hwf h n).rest, fun hfin => ?_⟩
  · have hmax := isFirstMax_firstMax h0 hh
    rw [hmx]
    exact ⟨_, hlt, rfl, hmax.notNaN, hmax.max, hmax.first⟩
  · have hmax := isFirstMax_firstMax (not_nan_inf_of_isFinite (hfin 0 hh)).1 hh
    have hmxfin : isFinite mx = true := hmx ▸ hfin _ hlt
    refine ⟨⟨_, hlt, (fsub_self_of_isFinite hmxfin).eq_of_yields ?_⟩, fun j hj => ?_⟩
    · simpa only [← hmx] using word _ hlt
    · exact fle_f0_of_yields_fsub (hfin j hj) hmxfin (hmx ▸ hmax.max j hj) (word j hj)

end Sys2Proof.Machine
end

section
/-! PROOF. What ANALYZE computes outside Bypass (42_analysis.md R141, R144, R155): the capture sample by sample, the peak and
the spectrum over it. -/

namespace Sys2Proof.Machine

/-! ## The capture (R143, R144) -/

/-- The delay lines before sample `k` of the impulse, driven from the counter `n`. -/
def lineBefore (d : Design) (ir : WordMem) (n k : Nat) : WordMem := (runDraw (driveImpulse d k ir) n).1.1

/-- Every sample captured is the engine's output on it, over the delay lines the sample before left. -/
theorem yields_driveImpulse (d : Design) {ir : WordMem} (hwf : ir.wf = true) (n nfft : Nat) {k : Nat} (hk : k < nfft) :
    Yields (engineApply d (lineBefore d ir n k) (impulse k))
      ((runDraw (driveImpulse d nfft ir) n).1.2.read k, lineBefore d ir n (k + 1)) := by
  induction nfft with
  | zero => exact absurd hk (Nat.not_lt_zero k)
  | succ nfft ih =>
    have captured := driveImpulse_keeps d nfft (keptBelow_wf nfft) ir n hwf
    rw [runDraw_driveImpulse_succ, WordMem.read_write _ _ _ _ captured]
    split
    case isTrue heq =>
      subst heq
      rw [lineBefore, lineBefore, runDraw_driveImpulse_succ]
      exact ⟨_, rfl⟩
    case isFalse hne => exact ih (by omega)

/-! ## The procedure (R141) -/

/-- Steps 1 to 4 of the procedure: the capture, and its peak in `DELAY`. -/
def captureDelay (l : Nat) (s : State) : State := setDelay (peak (capture (2 ^ l) s).ir (2 ^ l)) (capture (2 ^ l) s)

theorem analyzeCore_of_not_bypass {s : State} (hm : s.design.mode ≠ .bypass) (l : Nat) (cs : Bool) :
    analyzeCore l cs s = if cs then addSpectrum l (captureDelay l s) else captureDelay l s := if_neg hm

/-- Step 5 is the FFT of the capture, the dB step on it and the normalization of that. -/
theorem yields_addSpectrum (l : Nat) (s : State) :
    Yields (fftCore s.par (addSpectrum l s).ir l (s.re, s.im)) ((addSpectrum l s).re, (addSpectrum l s).im) ∧
      ∃ r, Yields (dbStep (addSpectrum l s).re (addSpectrum l s).im (2 ^ l / 2) s.resp) r ∧
        Yields (normalizeResp (2 ^ l / 2) r) (addSpectrum l s).resp :=
  ⟨⟨s.draws, rfl⟩, Yields.bind (x := dbStep _ _ _ _) ⟨(runFft l s).draws, rfl⟩⟩

theorem analyzeCore_ir_of_not_bypass {s : State} (hm : s.design.mode ≠ .bypass) (l : Nat) (cs : Bool) :
    (analyzeCore l cs s).ir = (runDraw (driveImpulse s.design (2 ^ l) s.ir) s.draws).1.2 := by
  rw [analyzeCore_of_not_bypass hm]
  cases cs <;> rfl

theorem analyzeCore_delay_of_not_bypass {s : State} (hm : s.design.mode ≠ .bypass) (l : Nat) (cs : Bool) :
    (analyzeCore l cs s).delay = BitVec.ofNat 32 (peak (analyzeCore l cs s).ir (2 ^ l)) := by
  rw [analyzeCore_ir_of_not_bypass hm, analyzeCore_of_not_bypass hm]
  cases cs <;> rfl

/-- Settles O34: the analysis is the capture and its delay, and with a spectrum step 5 over them. -/
theorem analyzeResult : Obligations.AnalyzeResult := by
  intro l cs s hm h1 h2 hwf
  have frame := analyzeCore_frame l cs s
  refine ⟨_, exec_analyze_of_inRange l cs s h1 h2, ⟨lineBefore s.design s.ir s.draws, rfl, fun n hn => ?_⟩,
    analyzeCore_delay_of_not_bypass hm l cs, frame.delayValid, rfl, ?_⟩
  · rw [respondDelay_eq, respondOk_ir, analyzeCore_ir_of_not_bypass hm]
    exact yields_driveImpulse s.design hwf s.draws _ hn
  · rintro rfl
    have hcore : analyzeCore l true s = addSpectrum l (captureDelay l s) :=
      (analyzeCore_of_not_bypass hm l true).trans (if_pos rfl)
    obtain ⟨hfft, hcurve⟩ := yields_addSpectrum l (captureDelay l s)
    rw [← hcore] at hfft hcurve
    exact ⟨hfft, hcurve, frame.respLen, frame.respValid⟩

end Sys2Proof.Machine
end

section
/-! PROOF. Noninterference of the analysis (42_analysis.md R161): over buffers that agree below the analysed length every
step of the procedure draws the same and leaves buffers that agree there, and the capture begins with none to agree. -/

namespace Sys2Proof.Machine

/-! ## Files that agree below a bound -/

/-- Two canonical files with the same words below `n`. -/
structure AgreeBelow (n : Nat) (m m' : WordMem) : Prop where
  wf : m.wf = true
  wf' : m'.wf = true
  read : ∀ i, i < n → m.read i = m'.read i

theorem agreeBelow_zero {m m' : WordMem} (h : m.wf = true) (h' : m'.wf = true) : AgreeBelow 0 m m' :=
  ⟨h, h', fun i hi => absurd hi (Nat.not_lt_zero i)⟩

/-- The same word written into both files extends the agreement to its own index. -/
theorem AgreeBelow.write_of {n k i : Nat} {m m' : WordMem} (h : AgreeBelow n m m') (v : Word)
    (hk : ∀ j, j < k → j = i ∨ j < n) : AgreeBelow k (m.write i v) (m'.write i v) := by
  refine ⟨WordMem.wf_write _ _ _ h.wf, WordMem.wf_write _ _ _ h.wf', fun j hj => ?_⟩
  rw [WordMem.read_write _ _ _ _ h.wf, WordMem.read_write _ _ _ _ h.wf']
  split
  case isTrue => rfl
  case isFalse hne => exact h.read j ((hk j hj).resolve_left (Ne.symm hne))

theorem AgreeBelow.write {n : Nat} {m m' : WordMem} (h : AgreeBelow n m m') (i : Nat) (v : Word) :
    AgreeBelow n (m.write i v) (m'.write i v) := h.write_of v fun _ hj => .inr hj

theorem AgreeBelow.write_next {n : Nat} {m m' : WordMem} (h : AgreeBelow n m m') (v : Word) :
    AgreeBelow (n + 1) (m.write n v) (m'.write n v) := h.write_of v fun _ hj => by omega

/-- Two runs with related results that draw alike. -/
def Alike {β : Type} (R : β → β → Prop) (a b : β × Nat) : Prop := R a.1 b.1 ∧ a.2 = b.2

/-! ## The capture and its peak (R143 to R146) -/

/-- Two captures in hand: the same delay lines, and files that agree on the samples so far. -/
def SameCapture (k : Nat) (a b : WordMem × WordMem) : Prop := a.1 = b.1 ∧ AgreeBelow k a.2 b.2

theorem driveImpulse_alike (d : Design) {ir ir' : WordMem} (h : ir.wf = true) (h' : ir'.wf = true) (n nfft : Nat) :
    Alike (SameCapture nfft) (runDraw (driveImpulse d nfft ir) n) (runDraw (driveImpulse d nfft ir') n) := by
  induction nfft with
  | zero => exact ⟨⟨rfl, agreeBelow_zero h h'⟩, rfl⟩
  | succ nfft ih =>
    obtain ⟨⟨hline, hagree⟩, hdraws⟩ := ih
    simp only [runDraw_driveImpulse_succ, hline, hdraws]
    exact ⟨⟨rfl, hagree.write_next _⟩, rfl⟩

theorem AgreeBelow.peak_eq {n : Nat} {ir ir' : WordMem} (h : AgreeBelow n ir ir') : peak ir n = peak ir' n := by
  rw [peak_eq_firstMax, peak_eq_firstMax]
  exact firstMax_congr fun i hi => congrArg fabs (h.read i hi)

/-! ## The FFT (R147 to R151) -/

/-- The agreement of both halves of the FFT buffer. -/
def AgreeHalves (n : Nat) (z w : WordMem × WordMem) : Prop := AgreeBelow n z.1 w.1 ∧ AgreeBelow n z.2 w.2

theorem AgreeBelow.fftLoad {l : Nat} {ir ir' : WordMem} (h : AgreeBelow (2 ^ l) ir ir') {z w : WordMem × WordMem}
    (hz : z.1.wf = true ∧ z.2.wf = true) (hw : w.1.wf = true ∧ w.2.wf = true) :
    AgreeHalves (2 ^ l) (fftLoad ir l z) (fftLoad ir' l w) := by
  have keeps := keptBelow_wf (2 ^ l)
  obtain ⟨hz1, hz2⟩ := fftLoad_keeps ir l keeps keeps z hz.1 hz.2
  obtain ⟨hw1, hw2⟩ := fftLoad_keeps ir' l keeps keeps w hw.1 hw.2
  refine ⟨⟨hz1, hw1, fun q hq => ?_⟩, ⟨hz2, hw2, fun q hq => ?_⟩⟩
  · rw [fftLoad_re hz.1 hq, fftLoad_re hw.1 hq, h.read _ (bitrev_lt q l)]
  · rw [fftLoad_im hz.2 hq, fftLoad_im hw.2 hq]

theorem butterfly_alike {n p q : Nat} {z w : WordMem × WordMem} (h : AgreeHalves n z w) (hp : p < n) (hq : q < n)
    (wr wi : Word) (k : Nat) :
    Alike (AgreeHalves n) (runDraw (butterfly p q wr wi z) k) (runDraw (butterfly p q wr wi w) k) := by
  obtain ⟨hre, him⟩ := h
  obtain ⟨rq, rp, iq, ip, k', hz, hw⟩ := butterfly_congr (hre.read p hp).symm (him.read p hp).symm (hre.read q hq).symm
    (him.read q hq).symm wr wi k
  rw [hz, hw]
  exact ⟨⟨(hre.write q rq).write p rp, (him.write q iq).write p ip⟩, rfl⟩

theorem foldlM_alike {α β : Type} {R : β → β → Prop} {f : β → α → Draw β} {l : List α}
    (hf : ∀ b c n a, a ∈ l → R b c → Alike R (runDraw (f b a) n) (runDraw (f c a) n)) {b c : β} (h : R b c) (n : Nat) :
    Alike R (runDraw (l.foldlM f b) n) (runDraw (l.foldlM f c) n) :=
  runDraw_foldlM_rel (Alike R) f f l (fun b c m n a ha ⟨hbc, hn⟩ => by
    obtain rfl : m = n := hn
    exact hf b c m a ha hbc) b c n n ⟨h, rfl⟩

theorem fftStage_alike (p : Config) {l s : Nat} (hs : s + 1 ≤ l) {z w : WordMem × WordMem} (h : AgreeHalves (2 ^ l) z w)
    (n : Nat) :
    Alike (AgreeHalves (2 ^ l)) (runDraw (fftStage p l (s + 1) z) n) (runDraw (fftStage p l (s + 1) w) n) := by
  refine foldlM_alike (f := fun z j => fftTwiddle p l (2 ^ (s + 1)) j z) (fun z w n j hj h => ?_) h n
  refine foldlM_alike (f := fun z g => butterfly (j + g * 2 ^ (s + 1)) _ _ _ z) (fun z w n g hg h => ?_) h n
  have hlt := butterfly_index_lt l s j g hs (List.mem_range.mp hj) (List.mem_range.mp hg)
  exact butterfly_alike h (lt_of_le_of_lt (Nat.le_add_right _ _) hlt) hlt _ _ n

theorem fftCore_alike (p : Config) {l : Nat} {ir ir' : WordMem} (h : AgreeBelow (2 ^ l) ir ir') {z w : WordMem × WordMem}
    (hz : z.1.wf = true ∧ z.2.wf = true) (hw : w.1.wf = true ∧ w.2.wf = true) (n : Nat) :
    Alike (AgreeHalves (2 ^ l)) (runDraw (fftCore p ir l z) n) (runDraw (fftCore p ir' l w) n) :=
  foldlM_alike (fun _ _ n _ hs h => fftStage_alike p (List.mem_range.mp hs) h n) (h.fftLoad hz hw) n

/-! ## The curve (R153, R154) -/

theorem runDraw_dbStep_succ (re im : WordMem) (h : Nat) (resp : WordMem) (n : Nat) :
    runDraw (dbStep re im (h + 1) resp) n =
      let r := runDraw (dbStep re im h resp) n
      let v := runDraw (dbBin (re.read h) (im.read h)) r.2
      (r.1.write h v.1, v.2) :=
  runDraw_wordLoop_succ (fun _ j => dbBin (re.read j) (im.read j)) h resp n

/-- The dB step reads no bin, so its bins agree whatever the files held. -/
theorem dbStep_alike {h : Nat} {re re' im im' : WordMem} (hre : ∀ j, j < h → re.read j = re'.read j)
    (him : ∀ j, j < h → im.read j = im'.read j) {resp resp' : WordMem} (hwf : resp.wf = true) (hwf' : resp'.wf = true)
    (n : Nat) : Alike (AgreeBelow h) (runDraw (dbStep re im h resp) n) (runDraw (dbStep re' im' h resp') n) := by
  induction h with
  | zero => exact ⟨agreeBelow_zero hwf hwf', rfl⟩
  | succ h ih =>
    obtain ⟨hagree, hdraws⟩ := ih (fun j hj => hre j (by omega)) (fun j hj => him j (by omega))
    simp only [runDraw_dbStep_succ, hdraws, hre h (Nat.lt_succ_self h), him h (Nat.lt_succ_self h)]
    exact ⟨hagree.write_next _, rfl⟩

theorem AgreeBelow.respMax_eq {h : Nat} (hh : 1 ≤ h) {r r' : WordMem} (hr : AgreeBelow h r r') :
    respMax r h = respMax r' h := by
  rw [respMax_eq_firstMax, respMax_eq_firstMax, firstMax_congr hr.read]
  exact hr.read _ (firstMax_lt _ hh)

theorem normalizeResp_alike {h : Nat} (hh : 1 ≤ h) {r r' : WordMem} (hr : AgreeBelow h r r') (n : Nat) :
    Alike (AgreeBelow h) (runDraw (normalizeResp h r) n) (runDraw (normalizeResp h r') n) := by
  rw [normalizeResp_eq_wordLoop, normalizeResp_eq_wordLoop, hr.respMax_eq hh]
  refine foldlM_alike (fun b c n j hj hbc => ?_) hr n
  simp only [runDraw_bind, runDraw_pure, hbc.read j (List.mem_range.mp hj)]
  exact ⟨hbc.write j _, rfl⟩

theorem dbCurve_alike {h : Nat} (hh : 1 ≤ h) {re re' im im' : WordMem} (hre : AgreeBelow h re re')
    (him : AgreeBelow h im im') {resp resp' : WordMem} (hwf : resp.wf = true) (hwf' : resp'.wf = true) (n : Nat) :
    AgreeBelow h (runDraw (dbCurve re im h resp) n).1 (runDraw (dbCurve re' im' h resp') n).1 := by
  obtain ⟨hr, hdraws⟩ := dbStep_alike hre.read him.read hwf hwf' n
  simp only [dbCurve, runDraw_bind, hdraws]
  exact (normalizeResp_alike hh hr _).1

/-! ## The procedure (R141, R142) -/

/-- Every buffer of the analyzer is canonical. -/
structure BuffersWf (s : State) : Prop where
  ir : s.ir.wf = true
  re : s.re.wf = true
  im : s.im.wf = true
  resp : s.resp.wf = true

theorem captureDelay_alike (l : Nat) {s t : State} (hd : s.design = t.design) (hn : s.draws = t.draws)
    (hs : s.ir.wf = true) (ht : t.ir.wf = true) :
    AgreeBelow (2 ^ l) (captureDelay l s).ir (captureDelay l t).ir ∧ (captureDelay l s).delay = (captureDelay l t).delay ∧
      (captureDelay l s).draws = (captureDelay l t).draws := by
  obtain ⟨⟨-, hagree⟩, hdraws⟩ := driveImpulse_alike s.design hs ht s.draws (2 ^ l)
  simp only [captureDelay, setDelay_ir, setDelay_delay, setDelay_draws, capture_ir, capture_draws, ← hd, ← hn]
  exact ⟨hagree, by rw [hagree.peak_eq], hdraws⟩

theorem AgreeBelow.mono {n k : Nat} {m m' : WordMem} (h : AgreeBelow n m m') (hk : k ≤ n) : AgreeBelow k m m' :=
  ⟨h.wf, h.wf', fun i hi => h.read i (by omega)⟩

theorem addSpectrum_resp (l : Nat) (s : State) : (addSpectrum l s).resp =
    (runDraw (dbCurve (runFft l s).re (runFft l s).im (2 ^ l / 2) s.resp) (runFft l s).draws).1 := rfl

theorem addSpectrum_alike {l : Nat} (h1 : 1 ≤ l) {s t : State} (hp : s.par = t.par) (hn : s.draws = t.draws)
    (hir : AgreeBelow (2 ^ l) s.ir t.ir) (hs : BuffersWf s) (ht : BuffersWf t) :
    AgreeHalves (2 ^ l) ((addSpectrum l s).re, (addSpectrum l s).im) ((addSpectrum l t).re, (addSpectrum l t).im) ∧
      AgreeBelow (2 ^ l / 2) (addSpectrum l s).resp (addSpectrum l t).resp := by
  have hfft : Alike (AgreeHalves (2 ^ l)) (((runFft l s).re, (runFft l s).im), (runFft l s).draws)
      (((runFft l t).re, (runFft l t).im), (runFft l t).draws) := by
    simp only [runFft_re, runFft_im, runFft_draws, ← hp, ← hn]
    exact fftCore_alike s.par hir ⟨hs.re, hs.im⟩ ⟨ht.re, ht.im⟩ s.draws
  obtain ⟨hhalves, hdraws : (runFft l s).draws = (runFft l t).draws⟩ := hfft
  have hhalf : 1 ≤ 2 ^ l / 2 := Nat.div_pos (Nat.le_self_pow (by omega) 2) two_pos
  have hcurve := dbCurve_alike hhalf (hhalves.1.mono (Nat.div_le_self _ 2)) (hhalves.2.mono (Nat.div_le_self _ 2)) hs.resp
    ht.resp (runFft l s).draws
  rw [addSpectrum_resp, addSpectrum_resp, ← hdraws]
  exact ⟨hhalves, hcurve⟩

/-- What two analyses under a design of mode `m` have in common (R161). -/
structure SameAnalysis (l : Nat) (cs : Bool) (m : Mode) (t u : State) : Prop where
  delay : t.delay = u.delay
  ir : m ≠ .bypass → AgreeBelow (2 ^ l) t.ir u.ir
  fft : m ≠ .bypass → cs = true → AgreeHalves (2 ^ l) (t.re, t.im) (u.re, u.im)
  resp : cs = true → AgreeBelow (2 ^ l / 2) t.resp u.resp

theorem AgreeBelow.fill {m m' : WordMem} (h : m.wf = true) (h' : m'.wf = true) (n : Nat) (value : Nat → Word) :
    AgreeBelow n (m.fill n value) (m'.fill n value) :=
  ⟨WordMem.wf_fill m n value h, WordMem.wf_fill m' n value h', fun i hi => by
    rw [WordMem.read_fill m n value h, WordMem.read_fill m' n value h', if_pos hi, if_pos hi]⟩

theorem sameAnalysis_of_bypass {s t : State} (hs : s.design.mode = .bypass) (ht : t.design.mode = .bypass)
    (hws : BuffersWf s) (hwt : BuffersWf t) (l : Nat) (cs : Bool) :
    SameAnalysis l cs .bypass (analyzeCore l cs s) (analyzeCore l cs t) := by
  rw [analyzeCore_of_bypass hs, analyzeCore_of_bypass ht]
  cases cs with
  | false => exact ⟨rfl, fun h => absurd rfl h, fun h => absurd rfl h, fun h => absurd h Bool.false_ne_true⟩
  | true =>
    exact ⟨rfl, fun h => absurd rfl h, fun h => absurd rfl h, fun _ => AgreeBelow.fill hws.resp hwt.resp _ _⟩

theorem sameAnalysis_of_not_bypass {l : Nat} (h1 : 1 ≤ l) {s t : State} (hm : s.design.mode ≠ .bypass)
    (hp : s.par = t.par) (hd : s.design = t.design) (hn : s.draws = t.draws) (hs : BuffersWf s) (ht : BuffersWf t)
    (cs : Bool) : SameAnalysis l cs s.design.mode (analyzeCore l cs s) (analyzeCore l cs t) := by
  obtain ⟨hir, hdelay, hdraws⟩ := captureDelay_alike l hd hn hs.ir ht.ir
  rw [analyzeCore_of_not_bypass hm, analyzeCore_of_not_bypass (hd ▸ hm)]
  cases cs with
  | false => exact ⟨hdelay, fun _ => hir, fun _ h => absurd h Bool.false_ne_true, fun h => absurd h Bool.false_ne_true⟩
  | true =>
    obtain ⟨hfft, hresp⟩ := addSpectrum_alike (s := captureDelay l s) (t := captureDelay l t) h1 hp hdraws hir
      ⟨hir.wf, hs.re, hs.im, hs.resp⟩ ⟨hir.wf', ht.re, ht.im, ht.resp⟩
    exact ⟨hdelay, fun _ => hir, fun _ _ => hfft, fun _ => hresp⟩

theorem analyzeCore_sameAnalysis {l : Nat} (h1 : 1 ≤ l) (cs : Bool) {s t : State} (hp : s.par = t.par)
    (hd : s.design = t.design) (hn : s.draws = t.draws) (hs : BuffersWf s) (ht : BuffersWf t) :
    SameAnalysis l cs s.design.mode (analyzeCore l cs s) (analyzeCore l cs t) := by
  by_cases hm : s.design.mode = .bypass
  · rw [hm]
    exact sameAnalysis_of_bypass hm (hd ▸ hm) hs ht l cs
  · exact sameAnalysis_of_not_bypass h1 hm hp hd hn hs ht cs

/-- Settles O45: each step of the procedure draws the same and leaves the same words in both states. -/
theorem analysisDependsOnTheDesignOnly : Obligations.AnalysisDependsOnTheDesignOnly := by
  intro l cs s₁ s₂ t₁ t₂ hp hd hn h1 h2 hir₁ hir₂ hre₁ hre₂ him₁ him₂ hresp₁ hresp₂ ht₁ ht₂
  rw [exec_analyze_of_inRange l cs s₁ h1 h2] at ht₁
  rw [exec_analyze_of_inRange l cs s₂ h1 (hp ▸ h2)] at ht₂
  cases ht₁
  cases ht₂
  have same := analyzeCore_sameAnalysis h1 cs hp hd hn ⟨hir₁, hre₁, him₁, hresp₁⟩ ⟨hir₂, hre₂, him₂, hresp₂⟩
  refine ⟨same.delay, ?_, fun hm n hlt => ⟨(same.ir hm).read n hlt, fun hcs => ?_⟩, fun hcs => ⟨?_, (same.resp hcs).read⟩⟩
  · simp only [respondDelay_eq, respondOk_rsp, delayWord, same.delay]
  · obtain ⟨hre, him⟩ := same.fft hm hcs
    exact ⟨hre.read n hlt, him.read n hlt⟩
  · have len (s : State) : (analyzeCore l cs s).respLen = BitVec.ofNat 32 (2 ^ l / 2) := by
      rw [(analyzeCore_frame l cs s).respLen, if_pos hcs]
    exact (len s₁).trans (len s₂).symm

end Sys2Proof.Machine
end

section
/-! PROOF. The access and housekeeping commands over the response curve, the buffers and the error record (43_access.md R180,
R181, R185 to R188, R190, R191, R203). -/

namespace Sys2Proof.Machine

/-! ## RDRESP (R185, R203) -/

theorem valid_resp_iff (idx : Nat) (s : State) :
    Space.valid .resp idx s = true ↔ s.respValid = true ∧ idx < s.respLen.toNat := by
  rw [Space.valid, Bool.and_eq_true, decide_eq_true_iff]

theorem exec_rdresp_of_stale {s : State} (h : s.respValid = false) (idx : Nat) :
    exec (.rdresp idx) s = .next (raiseErr .stale s) :=
  congrArg Host.Outcome.next (if_neg (ne_true_of_eq_false h))

theorem exec_rdresp_of_respValid {s : State} (h : s.respValid = true) (idx : Nat) :
    exec (.rdresp idx) s = .next (readSpace .resp idx s) :=
  congrArg Host.Outcome.next (if_pos h)

/-- Settles O49: a stale curve is refused before the space is looked at; a valid one is read as its space says. -/
theorem rdrespRefusesStaleResponses : Obligations.RdrespRefusesStaleResponses := by
  refine fun s idx => ⟨fun hstale => exec_rdresp_of_stale hstale idx, fun hv hge => ?_, fun hv hlt => ?_⟩
  · rw [exec_rdresp_of_respValid hv, readSpace_of_not_valid (by rw [valid_resp_iff]; omega)]
    rfl
  · rw [exec_rdresp_of_respValid hv, readSpace_of_valid ((valid_resp_iff idx s).mpr ⟨hv, hlt⟩)]
    rfl

/-! ## RDIR, RDRE and RDIM (R186 to R188) -/

/-- The spaces of `NFFT_MAX` words the analyzer fills (R50). -/
def Space.isBuffer (sp : Space) : Prop := sp = .ir ∨ sp = .fftRe ∨ sp = .fftIm

theorem valid_buffer_iff {sp : Space} (hsp : sp.isBuffer) (idx : Nat) (s : State) :
    sp.valid idx s = true ↔ idx < s.par.nfftMax := by
  rcases hsp with rfl | rfl | rfl
  all_goals exact decide_eq_true_iff

theorem readSpace_buffer_of_lt {sp : Space} (hsp : sp.isBuffer) {idx : Nat} {s : State} (h : idx < s.par.nfftMax) :
    readSpace sp idx s = respondOk (memRead sp idx s) s :=
  readSpace_of_valid ((valid_buffer_iff hsp idx s).mpr h)

theorem readSpace_buffer_of_ge {sp : Space} (hsp : sp.isBuffer) {idx : Nat} {s : State} (h : s.par.nfftMax ≤ idx) :
    readSpace sp idx s = raiseErr .range s :=
  readSpace_of_not_valid fun hv => Nat.not_lt_of_le h ((valid_buffer_iff hsp idx s).mp hv)

/-- Settles O50: each of the three commands reads its buffer's space. -/
theorem bufferReads : Obligations.BufferReads := by
  have ir : Space.ir.isBuffer := .inl rfl
  have re : Space.fftRe.isBuffer := .inr (.inl rfl)
  have im : Space.fftIm.isBuffer := .inr (.inr rfl)
  refine fun s idx => ⟨fun h => ⟨?_, ?_, ?_⟩, fun h => ⟨?_, ?_, ?_⟩⟩
  · exact congrArg Host.Outcome.next (readSpace_buffer_of_lt ir h)
  · exact congrArg Host.Outcome.next (readSpace_buffer_of_lt re h)
  · exact congrArg Host.Outcome.next (readSpace_buffer_of_lt im h)
  · exact congrArg Host.Outcome.next (readSpace_buffer_of_ge ir h)
  · exact congrArg Host.Outcome.next (readSpace_buffer_of_ge re h)
  · exact congrArg Host.Outcome.next (readSpace_buffer_of_ge im h)

/-! ## WRIR (R190) -/

theorem exec_wrir_of_lt {idx : Nat} {s : State} (h : idx < s.par.nfftMax) (d : Word) :
    exec (.wrir idx d) s = .next (respondOk 0 { s with ir := s.ir.write idx d }) :=
  congrArg Host.Outcome.next (if_pos h)

theorem exec_wrir_of_ge {idx : Nat} {s : State} (h : s.par.nfftMax ≤ idx) (d : Word) :
    exec (.wrir idx d) s = .next (raiseErr .range s) :=
  congrArg Host.Outcome.next (if_neg (Nat.not_lt_of_le h))

/-- Settles O53: the file left is the one with the word written, which reads as before at every other index. -/
theorem wrirWritesOneWord : Obligations.WrirWritesOneWord := by
  refine fun s idx d hwf => ⟨fun h => ⟨s.ir.write idx d, exec_wrir_of_lt h d, fun n => ?_⟩, fun h => exec_wrir_of_ge h d⟩
  rw [WordMem.read_write s.ir idx n d hwf]
  simp only [eq_comm]

/-! ## NOP, GETORD and CLRERR (R180, R181, R191) -/

theorem exec_nop (s : State) : exec .nop s = .next (respondOk 0 s) := rfl

theorem exec_getord (s : State) : exec .getord s = .next (respondOk (s.cfg.order.zeroExtend 64) s) := rfl

theorem exec_clrerr (s : State) : exec .clrerr s = .next (respondOk 0 (clearErr s)) := rfl

/-- Settles O54: none of the three commands tests anything. -/
theorem nopGetordClrerr : Obligations.NopGetordClrerr := fun s => ⟨exec_nop s, exec_getord s, exec_clrerr s⟩

end Sys2Proof.Machine
end

section
/-! PROOF. The error record (60_exceptions.md R201, R202, R205): what sets it, what leaves it, what clears it, and that no
command but RDCSR of `STATUS` sees it. -/

namespace Sys2Proof.Machine

/-! ## What a command's end does to the record (R201, R202, R205) -/

/-- An answer with an error status is the answer of the error's own record and of nothing else. -/
theorem eq_raiseErr_of_rsp_err {i : Instr} {s t : State} {e : ErrKind} {r : Word} (ht : exec i s = .next t)
    (hrsp : t.rsp = some ⟨.err e, r⟩) : t = raiseErr e s := by
  rcases ends_of_exec ht with ⟨e', rfl⟩ | ⟨r', u, rfl, -⟩
  · rw [raiseErr_rsp] at hrsp
    cases hrsp
    rfl
  · rw [respondOk_rsp] at hrsp
    cases hrsp

/-- Settles O12: the state left is the one `raiseErr` leaves. -/
theorem failedCommandChangesOnlyErrorRecord : Obligations.FailedCommandChangesOnlyErrorRecord :=
  fun _ _ _ _ _ ht hrsp => eq_raiseErr_of_rsp_err ht hrsp

theorem raiseErr_keeps_first (e : ErrKind) (s : State) :
    (raiseErr e s).err = true ∧ (s.err = false → (raiseErr e s).errCode = e.code) ∧
      (s.err = true → (raiseErr e s).errCode = s.errCode) :=
  ⟨rfl, fun h => if_neg (ne_true_of_eq_false h), fun h => if_pos h⟩

theorem Effect.keeps_record {i : Instr} {s u : State} (he : Effect i s u) (hi : i ≠ .clrerr) :
    u.err = s.err ∧ u.errCode = s.errCode := by
  cases he with
  | analyzed l cs _ _ =>
    have frame := analyzeCore_frame l cs s
    exact ⟨frame.err, frame.errCode⟩
  | cleared hc => exact absurd hc hi
  | _ => exact ⟨rfl, rfl⟩

theorem record_kept_of_rsp_ok {i : Instr} {s t : State} {r : Word} (hi : i ≠ .clrerr) (ht : exec i s = .next t)
    (hrsp : t.rsp = some ⟨.ok, r⟩) : t.err = s.err ∧ t.errCode = s.errCode := by
  rcases ends_of_exec ht with ⟨e, rfl⟩ | ⟨r', u, rfl, effect⟩
  · rw [raiseErr_rsp] at hrsp
    cases hrsp
  · exact effect.keeps_record hi

theorem eq_clrerr_of_exec_clears {i : Instr} {s t : State} (ht : exec i s = .next t) (hs : s.err = true)
    (hclear : t.err = false) : i = .clrerr := by
  by_contra hi
  have kept : t.err = true := by
    rcases ends_of_exec ht with ⟨e, rfl⟩ | ⟨r, u, rfl, effect⟩
    · rfl
    · exact (effect.keeps_record hi).1.trans hs
  exact Bool.false_ne_true (hclear.symm.trans kept)

/-- A step that clears a set `ERR` is a hardware reset or CLRERR (R202): the host's other moves leave it, and a word that
is no command sets it. -/
theorem clearing_step {s t : State} (hs : s.err = true) (ht : step s = .next t) (hclear : t.err = false) :
    ∃ rest, s.inbox = .reset :: rest ∨ ∃ c, s.inbox = .command c :: rest ∧ decode c = .ok .clrerr := by
  rcases step_cases s with ⟨-, hn⟩ | ⟨rest, ⟨hin, -⟩ | ⟨-, hn⟩ | ⟨c, hin, ⟨e, -, hn⟩ | ⟨i, hd, hn⟩⟩⟩
  · cases hn.symm.trans ht
    exact absurd (hclear.symm.trans hs) Bool.false_ne_true
  · exact ⟨rest, .inl hin⟩
  · cases hn.symm.trans ht
    exact absurd (hclear.symm.trans hs) Bool.false_ne_true
  · cases hn.symm.trans ht
    cases hclear
  · obtain rfl := eq_clrerr_of_exec_clears (hn.symm.trans ht) hs hclear
    exact ⟨rest, .inr ⟨c, hin, hd⟩⟩

/-! ## The record has no effect on a command (R202) -/

/-- The same state with another error record. -/
def withRecord (b : Bool) (c : BitVec 8) (s : State) : State := { s with err := b, errCode := c }

theorem withRecord_restore (b : Bool) (c : BitVec 8) (s : State) :
    withRecord s.err s.errCode (withRecord b c s) = s := rfl

/-- Whatever record a state comes with, only the record of the state left may depend on it. -/
def RecordBlind (f : State → State) : Prop :=
  ∀ (b : Bool) (c : BitVec 8) (s : State), ∃ b' c', f (withRecord b c s) = withRecord b' c' (f s)

theorem recordBlind_id : RecordBlind id := fun b c _ => ⟨b, c, rfl⟩

theorem recordBlind_raiseErr (e : ErrKind) : RecordBlind (raiseErr e) := fun _ _ _ => ⟨_, _, rfl⟩

theorem RecordBlind.comp {f g : State → State} (hg : RecordBlind g) (hf : RecordBlind f) :
    RecordBlind fun s => g (f s) := by
  intro b c s
  obtain ⟨b', c', hfs⟩ := hf b c s
  obtain ⟨b'', c'', hgs⟩ := hg b' c' (f s)
  exact ⟨b'', c'', by simp only [hfs, hgs]⟩

theorem RecordBlind.respond {f : State → State} {r : State → Word} (hf : RecordBlind f)
    (hr : ∀ b c s, r (withRecord b c s) = r s) : RecordBlind fun s => respondOk (r s) (f s) := by
  intro b c s
  obtain ⟨b', c', hfs⟩ := hf b c s
  exact ⟨b', c', by simp only [hfs, hr]; rfl⟩

theorem RecordBlind.ite {P : State → Prop} [DecidablePred P] {f g : State → State}
    (hP : ∀ b c s, P (withRecord b c s) ↔ P s) (hf : RecordBlind f) (hg : RecordBlind g) :
    RecordBlind fun s => if P s then f s else g s := by
  intro b c s
  by_cases h : P s
  · simpa only [hP b c s, if_pos h] using hf b c s
  · simpa only [hP b c s, if_neg h] using hg b c s

theorem recordBlind_respondDelay : RecordBlind respondDelay := recordBlind_id.respond fun _ _ _ => rfl

theorem analyzeCore_withRecord (l : Nat) (cs : Bool) (b : Bool) (c : BitVec 8) (s : State) :
    analyzeCore l cs (withRecord b c s) = withRecord b c (analyzeCore l cs s) := by
  by_cases hm : s.design.mode = .bypass
  · simp only [analyzeCore, withRecord, hm, if_true]
    cases cs <;> rfl
  · simp only [analyzeCore, withRecord, hm, if_false]
    cases cs <;> rfl

theorem recordBlind_analyzeCore (l : Nat) (cs : Bool) : RecordBlind (analyzeCore l cs) :=
  fun b c s => ⟨b, c, analyzeCore_withRecord l cs b c s⟩

theorem recordBlind_setter {same : State → Bool} {cfg : State → FilterConfig}
    (hsame : ∀ b c s, same (withRecord b c s) = same s) (hcfg : ∀ b c s, cfg (withRecord b c s) = cfg s) :
    RecordBlind fun s => respondOk 0 (setter (same s) (cfg s) s) := by
  have stored : RecordBlind fun s => redesign { s with cfg := cfg s } :=
    fun b c s => ⟨b, c, by simp only [hcfg]; rfl⟩
  have set := RecordBlind.ite (P := fun s => same s = true) (fun b c s => by rw [hsame]) recordBlind_id stored
  exact set.respond fun _ _ _ => rfl

theorem csrWord_withRecord {num : Nat} (h : num ≠ 0x0A) (b : Bool) (c : BitVec 8) (s : State) :
    csrWord num (withRecord b c s) = csrWord num s := by
  unfold csrWord
  split
  case h_11 => exact absurd rfl h
  all_goals rfl

/-- A read is blind to the record at every index of every space but the one of `STATUS` (R29). -/
theorem recordBlind_readSpace (sp : Space) (idx : Nat) (h : sp = .csr → idx ≠ 0x0A) : RecordBlind (readSpace sp idx) := by
  have valid (b c s) : sp.valid idx (withRecord b c s) = sp.valid idx s := by cases sp <;> rfl
  have word (b c s) : memRead sp idx (withRecord b c s) = memRead sp idx s := by
    cases sp with
    | csr => exact csrWord_withRecord (h rfl) b c s
    | _ => rfl
  exact .ite (fun b c s => by rw [valid]) (recordBlind_id.respond word) (recordBlind_raiseErr .range)

/-- Every command but RDCSR of `STATUS` is blind to the record (R202). -/
theorem exec_recordBlind {i : Instr} (hi : i ≠ .rdcsr 0x0A) :
    ∃ f, RecordBlind f ∧ ∀ s, exec i s = .next (f s) := by
  cases i with
  | nop => exact ⟨_, recordBlind_id.respond fun _ _ _ => rfl, fun _ => rfl⟩
  | setlp _ | sethp _ | setflc _ | setfhc _ | setfs _ | setord _ =>
    exact ⟨_, recordBlind_setter (fun _ _ _ => rfl) (fun _ _ _ => rfl), fun _ => rfl⟩
  | apply x => exact ⟨_, fun b c _ => ⟨b, c, rfl⟩, fun _ => rfl⟩
  | reset => exact ⟨_, fun b c _ => ⟨b, c, rfl⟩, fun _ => rfl⟩
  | analyze l cs =>
    exact ⟨_, .ite (fun _ _ _ => Iff.rfl) (recordBlind_respondDelay.comp (recordBlind_analyzeCore l cs))
      (recordBlind_raiseErr .range), fun _ => rfl⟩
  | getdelay =>
    have fresh : RecordBlind fun s => analyzeCore s.par.log2NfftDefault false s :=
      fun b c s => recordBlind_analyzeCore s.par.log2NfftDefault false b c s
    exact ⟨_, recordBlind_respondDelay.comp (.ite (fun _ _ _ => Iff.rfl) recordBlind_id fresh), fun _ => rfl⟩
  | freqresp np =>
    exact ⟨_, .ite (fun _ _ _ => Iff.rfl) (recordBlind_raiseErr .range)
      ((recordBlind_analyzeCore _ true).respond fun _ _ _ => rfl), fun _ => rfl⟩
  | fftrun l =>
    exact ⟨_, .ite (fun _ _ _ => Iff.rfl) (fun b c _ => ⟨b, c, rfl⟩) (recordBlind_raiseErr .range), fun _ => rfl⟩
  | getord => exact ⟨_, recordBlind_id.respond fun _ _ _ => rfl, fun _ => rfl⟩
  | rdcsr num => exact ⟨_, recordBlind_readSpace .csr num fun _ hn => hi (hn ▸ rfl), fun _ => rfl⟩
  | rdresp idx =>
    exact ⟨_, .ite (fun _ _ _ => Iff.rfl) (recordBlind_readSpace .resp idx nofun) (recordBlind_raiseErr .stale),
      fun _ => rfl⟩
  | rdcoef idx => exact ⟨_, recordBlind_readSpace .coef idx nofun, fun _ => rfl⟩
  | rdstate idx => exact ⟨_, recordBlind_readSpace .state idx nofun, fun _ => rfl⟩
  | rdir idx => exact ⟨_, recordBlind_readSpace .ir idx nofun, fun _ => rfl⟩
  | rdre idx => exact ⟨_, recordBlind_readSpace .fftRe idx nofun, fun _ => rfl⟩
  | rdim idx => exact ⟨_, recordBlind_readSpace .fftIm idx nofun, fun _ => rfl⟩
  | rdtw idx => exact ⟨_, recordBlind_readSpace .tw idx nofun, fun _ => rfl⟩
  | wrir idx d =>
    exact ⟨_, .ite (fun _ _ _ => Iff.rfl) (fun b c _ => ⟨b, c, rfl⟩) (recordBlind_raiseErr .range), fun _ => rfl⟩
  | clrerr => exact ⟨_, fun _ _ _ => ⟨false, 0, rfl⟩, fun _ => rfl⟩

theorem exec_withRecord {i : Instr} {s t : State} (hi : i ≠ .rdcsr 0x0A) (ht : exec i s = .next t) (b : Bool)
    (c : BitVec 8) : ∃ b' c', exec i (withRecord b c s) = .next (withRecord b' c' t) := by
  obtain ⟨f, blind, hf⟩ := exec_recordBlind hi
  obtain ⟨b', c', hbc⟩ := blind b c s
  cases (hf s).symm.trans ht
  exact ⟨b', c', by rw [hf, hbc]⟩

/-- Settles O13: an error ends with `raiseErr` over the record as it stood, a success other than CLRERR's is over an effect
that keeps the record, and a command run over another record leaves the same state up to its record. -/
theorem errorRecordIsSticky : Obligations.ErrorRecordIsSticky := by
  refine ⟨fun i s t e r ht hrsp => ?_, fun s c rest e hin hd => ?_, fun i s t r hi ht hrsp => ?_, fun s => ?_,
    fun s rest hin => ?_, fun s t hs ht hclear => ?_, fun i s t b c hi ht => ?_⟩
  · obtain rfl := eq_raiseErr_of_rsp_err ht hrsp
    exact raiseErr_keeps_first e s
  · exact ⟨_, step_of_decode_error hin hd, raiseErr_keeps_first (decodeErrKind e) s⟩
  · exact record_kept_of_rsp_ok hi ht hrsp
  · exact exec_clrerr s
  · obtain ⟨-, -, reset⟩ := hostMovesBesideCommands s rest
    exact ⟨_, reset hin, rfl, rfl⟩
  · exact clearing_step hs ht hclear
  · obtain ⟨b', c', hrun⟩ := exec_withRecord hi ht b c
    exact ⟨_, hrun, rfl, withRecord_restore b' c' t⟩

end Sys2Proof.Machine
end
